-- ==== Sys2Proof/Word.lean ====
section
/-! DEFINITION. The words the spec treats as bits: the command word and its operand fields
(30_encoding R100, R101, R115). Counts, indexes into memory, duty values and times are numbers (`Nat`). -/

namespace Sys2Proof

/-- A command word, 96 bits (R100). -/
abbrev Word := BitVec 96

/-- A byte: a channel value, a brightness, a byte of pixel memory (R10). -/
abbrev Byte := BitVec 8

/-- The `INST` field: the number of an instance (R101). -/
abbrev InstNo := BitVec 8

/-- A pixel index, range start or range count, `INDEX_WIDTH = 16` bits (R7, R101). -/
abbrev Index := BitVec 16

/-- The 32-bit Color (R115). -/
abbrev Color := BitVec 32

end Sys2Proof
end

