-- ==== Sys2Proof/Syntax.lean ====
section
/-! DEFINITION. The commands of the capability interface, one constructor for each row of
spec/opcode_table.json (30_encoding R105), with the operands R102 assembles. -/

namespace Sys2Proof

/-- The names of the 15 commands (R105): what `CUR` and a fault record hold of a command (R36, R233). -/
inductive Opcode where
  | beginCtl | endCtl
  | setPixelRgb | setPixelRgbw | setPixelColor | getPixelColor
  | fill | fillRange | clear | setBrightness | getCount
  | showFrame | canShow | isBusy | wait
  deriving DecidableEq, Repr

/-- A command with its operands. `inst` is the instance it acts on. -/
inductive Instr where
  | beginCtl (inst : InstNo)
  | endCtl (inst : InstNo)
  | setPixelRgb (inst : InstNo) (index : Index) (r g b : Byte)
  | setPixelRgbw (inst : InstNo) (index : Index) (r g b w : Byte)
  | setPixelColor (inst : InstNo) (index : Index) (color : Color)
  | getPixelColor (inst : InstNo) (index : Index)
  | fill (inst : InstNo) (color : Color)
  | fillRange (inst : InstNo) (start count : Index) (color : Color)
  | clear (inst : InstNo)
  | setBrightness (inst : InstNo) (brightness : Byte)
  | getCount (inst : InstNo)
  | showFrame (inst : InstNo)
  | canShow (inst : InstNo)
  | isBusy (inst : InstNo)
  | wait (inst : InstNo)
  deriving DecidableEq, Repr

/-- The command's name. -/
def Instr.opcode : Instr → Opcode
  | .beginCtl _ => .beginCtl
  | .endCtl _ => .endCtl
  | .setPixelRgb _ _ _ _ _ => .setPixelRgb
  | .setPixelRgbw _ _ _ _ _ _ => .setPixelRgbw
  | .setPixelColor _ _ _ => .setPixelColor
  | .getPixelColor _ _ => .getPixelColor
  | .fill _ _ => .fill
  | .fillRange _ _ _ _ => .fillRange
  | .clear _ => .clear
  | .setBrightness _ _ => .setBrightness
  | .getCount _ => .getCount
  | .showFrame _ => .showFrame
  | .canShow _ => .canShow
  | .isBusy _ => .isBusy
  | .wait _ => .wait

/-- The instance the command acts on (R102). -/
def Instr.inst : Instr → InstNo
  | .beginCtl i => i
  | .endCtl i => i
  | .setPixelRgb i _ _ _ _ => i
  | .setPixelRgbw i _ _ _ _ _ => i
  | .setPixelColor i _ _ => i
  | .getPixelColor i _ => i
  | .fill i _ => i
  | .fillRange i _ _ _ => i
  | .clear i => i
  | .setBrightness i _ => i
  | .getCount i => i
  | .showFrame i => i
  | .canShow i => i
  | .isBusy i => i
  | .wait i => i

end Sys2Proof
end

