-- ==== Sys2Proof/WellFormed.lean ====
section
/-! DEFINITION. Which commands are well formed for a number of instances (30_encoding R101, R102).
Every operand's range is its type's; the one check left is `0 <= i < INSTANCES`. -/

namespace Sys2Proof

/-- The command names an instance there is (R101: `0 <= i < INSTANCES`). -/
def Instr.WellFormed (instances : Nat) (i : Instr) : Bool :=
  decide (i.inst.toNat < instances)

end Sys2Proof
end

