-- ==== Sys2Proof/Decode.lean ====
section
/-! DEFINITION. The decoder and the encoder of the command word (30_encoding R100 to R107). -/

namespace Sys2Proof

/-- The formats of R103. -/
inductive Format where
  | n | i | irgb | ic | c | rc | br
  deriving DecidableEq, Repr

/-- Why a word is no command; both are the refusal `IllegalCommand` (R106, R239). -/
inductive DecodeError where
  | unlistedOpcode
  | reservedNotZero
  deriving DecidableEq, Repr

/-- The `OPC` value of a command (R105). -/
def Opcode.code : Opcode → BitVec 8
  | .beginCtl => 0x01
  | .endCtl => 0x02
  | .setPixelRgb => 0x10
  | .setPixelRgbw => 0x11
  | .setPixelColor => 0x12
  | .getPixelColor => 0x13
  | .fill => 0x14
  | .fillRange => 0x15
  | .clear => 0x16
  | .setBrightness => 0x17
  | .getCount => 0x19
  | .showFrame => 0x20
  | .canShow => 0x21
  | .isBusy => 0x22
  | .wait => 0x23

/-- The format of a command (R105). -/
def Opcode.format : Opcode → Format
  | .beginCtl => .n
  | .endCtl => .n
  | .setPixelRgb => .irgb
  | .setPixelRgbw => .ic
  | .setPixelColor => .ic
  | .getPixelColor => .i
  | .fill => .c
  | .fillRange => .rc
  | .clear => .n
  | .setBrightness => .br
  | .getCount => .n
  | .showFrame => .n
  | .canShow => .n
  | .isBusy => .n
  | .wait => .n

/-- The mask of a format: 1 on the opcode and on every must-be-zero field (R107). -/
def Format.mask : Format → Word
  | .n => 0xFF00FFFFFFFFFFFFFFFFFFFF#96
  | .i => 0xFF000000FFFFFFFFFFFFFFFF#96
  | .irgb => 0xFF000000FFFFFFFFFF000000#96
  | .ic => 0xFF000000FFFFFFFF00000000#96
  | .c => 0xFF00FFFFFFFFFFFF00000000#96
  | .rc => 0xFF0000000000FFFF00000000#96
  | .br => 0xFF00FFFFFFFFFFFFFFFFFF00#96

/-- The commands, in the order of the opcode map (R105). -/
def Opcode.all : List Opcode :=
  [.beginCtl, .endCtl, .setPixelRgb, .setPixelRgbw, .setPixelColor, .getPixelColor, .fill, .fillRange, .clear,
   .setBrightness, .getCount, .showFrame, .canShow, .isBusy, .wait]

/-- The command of an `OPC` value, if the opcode map lists it (R105, R106). -/
def Opcode.ofCode (code : BitVec 8) : Option Opcode :=
  Opcode.all.find? fun op => op.code == code

/-- The fields of the command word, bit 95 most significant (R101). -/
def Word.opc (w : Word) : BitVec 8 := w.extractLsb' 88 8
def Word.inst (w : Word) : InstNo := w.extractLsb' 80 8
def Word.fieldA (w : Word) : Index := w.extractLsb' 64 16
def Word.fieldB (w : Word) : Index := w.extractLsb' 48 16
def Word.rsv (w : Word) : BitVec 16 := w.extractLsb' 32 16
def Word.fieldD (w : Word) : Color := w.extractLsb' 0 32

/-- `brightness = D[7:0]` (R102). -/
def Word.brightness (w : Word) : Byte := w.extractLsb' 0 8

/-- The channel fields of a Color (R115, R116). -/
def Color.white (c : Color) : Byte := c.extractLsb' 24 8
def Color.red (c : Color) : Byte := c.extractLsb' 16 8
def Color.green (c : Color) : Byte := c.extractLsb' 8 8
def Color.blue (c : Color) : Byte := c.extractLsb' 0 8

/-- `Color(r, g, b, w) = {w, r, g, b}` (R115). -/
def Color.pack (r g b w : Byte) : Color := w ++ r ++ g ++ b

/-- Operand assembly (R102) for a word of a listed opcode. -/
def Opcode.assembleOperands (op : Opcode) (w : Word) : Instr :=
  let i := Word.inst w
  let d := Word.fieldD w
  match op with
  | .beginCtl => .beginCtl i
  | .endCtl => .endCtl i
  | .setPixelRgb => .setPixelRgb i (Word.fieldA w) (Color.red d) (Color.green d) (Color.blue d)
  | .setPixelRgbw => .setPixelRgbw i (Word.fieldA w) (Color.red d) (Color.green d) (Color.blue d) (Color.white d)
  | .setPixelColor => .setPixelColor i (Word.fieldA w) d
  | .getPixelColor => .getPixelColor i (Word.fieldA w)
  | .fill => .fill i d
  | .fillRange => .fillRange i (Word.fieldA w) (Word.fieldB w) d
  | .clear => .clear i
  | .setBrightness => .setBrightness i (Word.brightness w)
  | .getCount => .getCount i
  | .showFrame => .showFrame i
  | .canShow => .canShow i
  | .isBusy => .isBusy i
  | .wait => .wait i

/-- The `match` pattern of a command's row: the opcode in bits 95:88, every other bit 0 (R107). -/
def Opcode.pattern (op : Opcode) : Word := op.code ++ 0#88

/-- The word carries the command: `(word AND mask) = match` (R107). -/
def Opcode.matchesWord (op : Opcode) (w : Word) : Bool := (w &&& op.format.mask) == op.pattern

/-- The decoder, total on 96-bit words (R107). -/
def decode (w : Word) : Except DecodeError Instr :=
  match Opcode.ofCode (Word.opc w) with
  | none => .error .unlistedOpcode
  | some op => if op.matchesWord w then .ok (op.assembleOperands w) else .error .reservedNotZero

/-- A word from its fields, the reserved field 0 (R101). -/
def Word.ofFields (opc : BitVec 8) (inst : InstNo) (a b : Index) (d : Color) : Word :=
  opc ++ inst ++ a ++ b ++ 0#16 ++ d

/-- The word of a command (R101 to R103). -/
def encode (i : Instr) : Word :=
  match i with
  | .setPixelRgb _ index r g b => Word.ofFields i.opcode.code i.inst index 0 (Color.pack r g b 0)
  | .setPixelRgbw _ index r g b w => Word.ofFields i.opcode.code i.inst index 0 (Color.pack r g b w)
  | .setPixelColor _ index color => Word.ofFields i.opcode.code i.inst index 0 color
  | .getPixelColor _ index => Word.ofFields i.opcode.code i.inst index 0 0
  | .fill _ color => Word.ofFields i.opcode.code i.inst 0 0 color
  | .fillRange _ start count color => Word.ofFields i.opcode.code i.inst start count color
  | .setBrightness _ brightness => Word.ofFields i.opcode.code i.inst 0 0 (0#24 ++ brightness)
  | .beginCtl _ => Word.ofFields i.opcode.code i.inst 0 0 0
  | .endCtl _ => Word.ofFields i.opcode.code i.inst 0 0 0
  | .clear _ => Word.ofFields i.opcode.code i.inst 0 0 0
  | .getCount _ => Word.ofFields i.opcode.code i.inst 0 0 0
  | .showFrame _ => Word.ofFields i.opcode.code i.inst 0 0 0
  | .canShow _ => Word.ofFields i.opcode.code i.inst 0 0 0
  | .isBusy _ => Word.ofFields i.opcode.code i.inst 0 0 0
  | .wait _ => Word.ofFields i.opcode.code i.inst 0 0 0

/-- The instruction the decoder reads from the low `nbits` bits of `w`, numbered as spec/opcode_table.json numbers
them. A command reaches the block as one 96-bit value, not as bytes of a memory (R91, R100), so the table's number is
the word (log 13). -/
def decodeTableWord (nbits w : Nat) : Option Instr :=
  match decode (BitVec.ofNat 96 (w % 2 ^ nbits)) with
  | .ok i => some i
  | .error _ => none

end Sys2Proof
end

