-- ==== Sys2Proof/Config.lean ====
section
/-! DEFINITION. What an implementation fixes (00_scope R7, R33) and the free values of the model: constants with no
body, of which no proof can see a value. Which configurations are admitted is Machine/Configuration.lean. -/

namespace Sys2Proof

/-- The six colour orders (R3). -/
inductive ColorOrder where
  | grb | rgb | brg | bgr | grbw | rgbw
  deriving DecidableEq, Repr

/-- The colour channels of a pixel (R71). -/
inductive Channel where
  | r | g | b | w
  deriving DecidableEq, Repr

/-- `DUTY_WIDTH`, the bits of one stream entry: one of 8, 16, 32 (R7). -/
inductive DutyWidth where
  | w8 | w16 | w32
  deriving DecidableEq, Repr

/-- `CCR_LAG`: 0 or 1 periods between a transfer and its effect on the output (R7, R47). -/
inductive CcrLag where
  | lag0 | lag1
  deriving DecidableEq, Repr

/-- The hardware binding of an instance: opaque identifiers (R7, R33). -/
structure Binding where
  pin : Nat
  timingGenerator : Nat
  timingChannel : Nat
  transferChannel : Nat
  deriving DecidableEq, Repr

/-- The immutable configuration of one instance (R33) and the addresses the platform gives its memories and its
compare register (R82). -/
structure InstCfg where
  /-- `N` -/
  ledCount : Nat
  /-- `ORDER` -/
  colorOrder : ColorOrder
  binding : Binding
  pixBase : Nat
  streamBase : Nat
  ccrAddr : Nat
  deriving DecidableEq, Repr

/-- The parameters all instances share (R7). -/
structure Params where
  periodTicks : Nat
  dutyZero : Nat
  dutyOne : Nat
  dutyWidth : DutyWidth
  ccrLag : CcrLag
  resetCycles : Nat
  resetThresholdUs : Nat
  timeWidth : Nat
  brightnessInit : Nat
  deriving DecidableEq, Repr

/-- Who can take the next turn (R13): the host, the timing generator of an instance (which performs the transfer
engine's transfers), the time source. -/
inductive Agent where
  | host
  | timingGenerator (inst : InstNo)
  | timeSource
  deriving DecidableEq, Repr, Inhabited

/-- FREE VALUE (log 7): whose turn it is when the schedule held in the state is used up; "agents' steps interleave in
any order" (R243). -/
opaque Config.freeAgent : Nat → Agent

/-- FREE VALUE (log 8): whether an allocation succeeds, `draw ok in {true, false}` (R181). -/
opaque Config.allocOk : Nat → Bool

/-- FREE VALUE (log 9): byte `k` of the pixel memory a BEGIN allocates, `draw PIX[i]` (R181). -/
opaque Config.pixByte : Nat → Nat → Byte

/-- FREE VALUE (log 10): entry `j` of the stream memory a BEGIN allocates, "any L entries" (R181), before it is cut to
`DUTY_WIDTH` bits. -/
opaque Config.streamEntry : Nat → Nat → Nat

end Sys2Proof
end

