-- ==== Sys2Proof/Machine/Operands.lean ====
section
/-! DEFINITION. Derived constants (10_state R35), where a channel lies in a pixel (20_memory R71, 30_encoding R118),
the brightness scale (41_encoder R161). -/

namespace Sys2Proof.Machine

/-- `CH` (R35). -/
def channels : ColorOrder → Nat
  | .grb => 3
  | .rgb => 3
  | .brg => 3
  | .bgr => 3
  | .grbw => 4
  | .rgbw => 4

/-- The channel `ch` of a colour given channel by channel (R71). -/
def channelValue (r g b w : Byte) : Channel → Byte
  | .r => r
  | .g => g
  | .b => b
  | .w => w

/-- `off(ORDER, ch)` (R71); `none` for white on a three-channel order. -/
def off : ColorOrder → Channel → Option Nat
  | .grb, .r => some 1
  | .grb, .g => some 0
  | .grb, .b => some 2
  | .grb, .w => none
  | .rgb, .r => some 0
  | .rgb, .g => some 1
  | .rgb, .b => some 2
  | .rgb, .w => none
  | .brg, .r => some 1
  | .brg, .g => some 2
  | .brg, .b => some 0
  | .brg, .w => none
  | .bgr, .r => some 2
  | .bgr, .g => some 1
  | .bgr, .b => some 0
  | .bgr, .w => none
  | .grbw, .r => some 1
  | .grbw, .g => some 0
  | .grbw, .b => some 2
  | .grbw, .w => some 3
  | .rgbw, .r => some 0
  | .rgbw, .g => some 1
  | .rgbw, .b => some 2
  | .rgbw, .w => some 3

/-- `wch`: the fixed wire order G, R, B[, W] (R118). -/
def wireChannels (o : ColorOrder) : List Channel :=
  if channels o = 4 then [.g, .r, .b, .w] else [.g, .r, .b]

/-- `woff(ORDER, 0 .. CH - 1) = off(ORDER, wch(c))` (R118). -/
def woff (o : ColorOrder) : List Nat := (wireChannels o).filterMap (off o)

/-- `BPP` (R35). -/
def bitsPerPixel (o : ColorOrder) : Nat := 8 * channels o

/-- `PIXBYTES` (R35). -/
def pixBytes (cfg : InstCfg) : Nat := cfg.ledCount * channels cfg.colorOrder

/-- `N * BPP`: the number of data entries of a stream (R119). -/
def dataEntries (cfg : InstCfg) : Nat := cfg.ledCount * bitsPerPixel cfg.colorOrder

/-- `L` (R35). -/
def streamLen (p : Params) (cfg : InstCfg) : Nat := dataEntries cfg + p.resetCycles

/-- `DUTY_WIDTH` as a number of bits (R7). -/
def dutyBits : DutyWidth → Nat
  | .w8 => 8
  | .w16 => 16
  | .w32 => 32

/-- `CCR_LAG` as a number of periods (R7). -/
def lagPeriods : CcrLag → Nat
  | .lag0 => 0
  | .lag1 => 1

/-- `scale(v, br)` (R161). -/
def scale (v br : Byte) : Byte :=
  if br = 255 then v else BitVec.ofNat 8 (v.toNat * br.toNat / 255)

/-- A number cut to `DUTY_WIDTH` bits (R43). -/
def cutToDutyWidth (p : Params) (n : Nat) : Nat := n % 2 ^ dutyBits p.dutyWidth

end Sys2Proof.Machine
end

