-- ==== Sys2Proof/Machine/State.lean ====
section
/-! DEFINITION. The state of the block (10_state R36 to R57), the reasons a step stops, and the power-on state
(70_reset_and_hazards R260). -/

namespace Sys2Proof.Machine

/-- A memory of bytes: (address, byte) pairs, addresses strictly rising (`Memory.wf`). An unlisted address has NO byte:
the memory does not exist there, past its end or after END (log 5, log 14). -/
abbrev Memory := List Host.Cell

/-- `INIT[i]` (R38). -/
inductive InitState where
  | uninit | ready
  deriving DecidableEq, Repr

/-- `STATE[i]`, the TransmissionState (R39). -/
inductive TxState where
  | idle | encoding | transmitting
  deriving DecidableEq, Repr

/-- `PIN_MODE[i]` (R48). -/
inductive PinMode where
  | unconfigured | low | timer
  deriving DecidableEq, Repr

/-- The phases of SHOW (R36). -/
inductive Phase where
  | waitReset | encode | arm | waitDone
  deriving DecidableEq, Repr

/-- A current command (R36). `phase` is used by SHOW only: it is `none` for a WAIT that holds (R201, log 17). -/
structure Cur where
  inst : InstNo
  opcode : Opcode
  phase : Option Phase
  deriving DecidableEq, Repr

/-- What a command returns (R37, R104). -/
inductive Result where
  | unit
  | bool (b : Bool)
  | color (c : Color)
  | number (n : BitVec 16)
  deriving DecidableEq, Repr

/-- The fault reasons, exactly these three (R233). -/
inductive FaultReason where
  | notInitialized | alreadyInitialized | busy
  deriving DecidableEq, Repr

/-- A fault record (R233). -/
structure FaultRecord where
  inst : InstNo
  opcode : Opcode
  reason : FaultReason
  deriving DecidableEq, Repr

/-- The refusal reasons, exactly these three (R234). -/
inductive RefuseReason where
  | illegalCommand | badInstance | badConfig
  deriving DecidableEq, Repr

/-- One instance: its immutable configuration and its state (R57). -/
structure Inst where
  cfg : InstCfg
  /-- `INIT[i]` (R38) -/
  init : InitState
  /-- `STATE[i]` (R39) -/
  state : TxState
  /-- `BRIGHT[i]` (R40) -/
  bright : Byte
  /-- `T_LAST[i]`, a `TIME_WIDTH`-bit number or none (R41) -/
  tLast : Option Nat
  /-- `PIX[i]` (R42, R70) -/
  pix : Memory
  /-- `STREAM[i]`, entries of `DUTY_WIDTH` bits (R43, R73) -/
  stream : List Nat
  /-- `TG_RUN[i]` (R44) -/
  tgRun : Bool
  /-- `TG_DREQ[i]` (R45) -/
  tgDreq : Bool
  /-- `CCR[i]`, `DUTY_WIDTH` bits (R46) -/
  ccr : Nat
  /-- `ACT[i]`, `DUTY_WIDTH` bits (R47) -/
  act : Nat
  /-- `PIN_MODE[i]` (R48) -/
  pinMode : PinMode
  /-- `XF_EN[i]` (R49) -/
  xfEn : Bool
  /-- `XF_IDX[i]` (R50) -/
  xfIdx : Nat
  /-- `XF_CNT[i]` (R51) -/
  xfCnt : Nat
  /-- `XF_TC[i]` (R52) -/
  xfTc : Bool
  /-- `WIRE[i]`, oldest period first (R54) -/
  wire : List Nat
  deriving DecidableEq, Repr

/-- The machine. `params` and each instance's `cfg` are the immutable configuration (log 1); `program`, `sched`,
`turns`, `allocs` and `draws` are the model's own: what the host will issue and what the environment chooses. -/
structure State where
  params : Params
  /-- the instances `0 .. INSTANCES - 1` (R249) -/
  insts : List Inst
  /-- `CUR` (R36) -/
  cur : Option Cur
  /-- `RESULT` (R37) -/
  result : Result
  /-- `CLOCK` (R53) -/
  clock : Nat
  /-- `FAULT`, a set: no record twice (R55, R233) -/
  faults : List FaultRecord
  /-- `REFUSED` (R55, R234), with the reason: `REFUSED` is true when a reason is held (log 12) -/
  refusedBy : Option RefuseReason
  /-- the model's own: the command words the host has still to issue (log 6) -/
  program : List Word
  /-- the model's own: whose turns come next (log 7) -/
  sched : List Agent
  /-- the model's own: counts the turns the free value `Config.freeAgent` has given (log 7) -/
  turns : Nat
  /-- the model's own: the outcomes of the coming allocations (log 8) -/
  allocs : List Bool
  /-- the model's own: counts the draws of BEGIN (logs 8 to 10) -/
  draws : Nat
  deriving DecidableEq, Repr

/-- Why a step stops the machine with a fault. The spec's own faults are no such stop: they add a record to `FAULT`
and the time source goes on (R233, log 11). Each of these is raised only in states no run reaches. -/
inductive Fault where
  /-- SAFE. GET_PIXEL_COLOR or the ENCODE step reads a byte the pixel memory does not list (log 14). -/
  | noPixelByte (inst : InstNo)
  /-- SAFE. A transfer reads a stream entry at an index that has none (log 15). -/
  | noStreamEntry (inst : InstNo)
  /-- SAFE. A transfer of an armed engine whose `XF_CNT` is already 0 (log 15). -/
  | transferCountZero (inst : InstNo)
  deriving DecidableEq, Repr

/-- Why a step is refused. -/
inductive Refusal where
  /-- SAFE. An arm of `exec` that has no meaning yet; none is left. -/
  | notModelled (mnemonic : String)
  /-- SAFE. The run has ended with a refusal: "no agent has a further step" (R234, log 12). Raised by `step`. -/
  | runEnded (reason : RefuseReason)
  deriving DecidableEq, Repr

/-- What a step or a command answers. -/
abbrev Out := Host.Outcome State Fault Refusal

/-- `PIX[i]` at power-on: `N * CH` bytes (R56). The spec leaves each open; it is 0: DESIGN CHOICE, unsafe (log 3). -/
def powerOnPixels (cfg : InstCfg) : Memory := (List.range (pixBytes cfg)).map fun k => (k, 0)

/-- `STREAM[i]` at power-on: `L` entries (R56). The spec leaves each open; it is 0: DESIGN CHOICE, unsafe (log 3). -/
def powerOnStream (p : Params) (cfg : InstCfg) : List Nat := List.replicate (streamLen p cfg) 0

/-- An instance at power-on (R56, R260). -/
def Inst.powerOn (p : Params) (cfg : InstCfg) : Inst where
  cfg := cfg
  init := .uninit
  state := .idle
  bright := 0
  tLast := none
  pix := powerOnPixels cfg
  stream := powerOnStream p cfg
  tgRun := false
  tgDreq := false
  ccr := 0
  act := 0
  pinMode := .unconfigured
  xfEn := false
  xfIdx := 0
  xfCnt := 0
  xfTc := false
  wire := []

/-- The power-on state of a configuration (R56, R260). BRIGHT, CCR, ACT, the bytes of PIX, the entries of STREAM
(log 3) and CLOCK (log 4), which the spec leaves open, are 0: DESIGN CHOICE, unsafe. -/
def State.powerOn (params : Params) (cfgs : List InstCfg) : State where
  params := params
  insts := cfgs.map (Inst.powerOn params)
  cur := none
  result := .unit
  clock := 0
  faults := []
  refusedBy := none
  program := []
  sched := []
  turns := 0
  allocs := []
  draws := 0

/-- The parameters of the reset state: those of program P1 of 95_test_vectors; the period and duty values, which the
spec leaves open, are those its 93 part 4 K7 names. DESIGN CHOICE, unsafe (log 2). -/
def Params.atReset : Params where
  periodTicks := 90
  dutyZero := 29
  dutyOne := 58
  dutyWidth := .w16
  ccrLag := .lag0
  resetCycles := 2
  resetThresholdUs := 300
  timeWidth := 32
  brightnessInit := 255

/-- The one instance of the reset state: that of program P1. DESIGN CHOICE, unsafe (log 2). -/
def InstCfg.atReset : InstCfg where
  ledCount := 2
  colorOrder := .grb
  binding := { pin := 0, timingGenerator := 0, timingChannel := 0, transferChannel := 0 }
  pixBase := 0
  streamBase := 0x1000
  ccrAddr := 0x2000

/-- The machine right after power-on, in the configuration of log 2. -/
def State.reset : State := State.powerOn Params.atReset [InstCfg.atReset]

end Sys2Proof.Machine
end

