-- ==== Sys2Proof/Machine/Configuration.lean ====
section
/-! DEFINITION. Which configurations are admitted (00_scope R7, R8; 20_memory R80, R82); any other is refused as
`BadConfig` before any command runs (60_exceptions R236). -/

namespace Sys2Proof.Machine

/-- `INDEX_WIDTH` (R7). -/
def indexWidth : Nat := 16

/-- The constraints of R8 on the shared parameters, and the range of `TIME_WIDTH` (93 part 3: positive). -/
def paramsOk (p : Params) : Bool :=
  decide (0 < p.dutyZero) && decide (p.dutyZero < p.dutyOne) && decide (p.dutyOne < p.periodTicks)
    && decide (p.dutyOne < 2 ^ dutyBits p.dutyWidth)
    && decide (1 + lagPeriods p.ccrLag ≤ p.resetCycles)
    && decide (1 ≤ p.resetThresholdUs) && decide (p.resetThresholdUs < 2 ^ p.timeWidth)
    && decide (0 < p.timeWidth)
    && decide (p.brightnessInit ≤ 255)

/-- `1 <= N <= 2^INDEX_WIDTH - 1` (R8), and an aligned `STREAM_BASE` (R80). -/
def instCfgOk (p : Params) (c : InstCfg) : Bool :=
  decide (1 ≤ c.ledCount) && decide (c.ledCount ≤ 2 ^ indexWidth - 1)
    && decide (c.streamBase % (dutyBits p.dutyWidth / 8) = 0)

/-- No two instances share a timing generator, a transfer channel or a pin (R8, R203). -/
def bindingsOk (cfgs : List InstCfg) : Bool :=
  decide ((cfgs.map fun c => c.binding.timingGenerator).Nodup)
    && decide ((cfgs.map fun c => c.binding.transferChannel).Nodup)
    && decide ((cfgs.map fun c => c.binding.pin).Nodup)

/-- The host address lies in `PIX[i]` (R70, R82). -/
abbrev InPix (c : InstCfg) (addr : Nat) : Prop := c.pixBase ≤ addr ∧ addr < c.pixBase + pixBytes c

/-- How many bytes of the host's address space `STREAM[i]` takes (R73, R78). -/
def streamBytes (p : Params) (c : InstCfg) : Nat := streamLen p c * (dutyBits p.dutyWidth / 8)

/-- The host address lies in `STREAM[i]` (R78, R82). -/
abbrev InStream (p : Params) (c : InstCfg) (addr : Nat) : Prop :=
  c.streamBase ≤ addr ∧ addr < c.streamBase + streamBytes p c

/-- Where the two memories of an instance lie in the host's address space: base and size (R82). -/
def regions (p : Params) (c : InstCfg) : List (Nat × Nat) :=
  [(c.pixBase, pixBytes c), (c.streamBase, streamBytes p c)]

/-- One region ends before the other begins. -/
abbrev Apart (a b : Nat × Nat) : Prop := a.1 + a.2 ≤ b.1 ∨ b.1 + b.2 ≤ a.1

/-- "The two memories of one instance and of different instances do not overlap" (R82, log 20). -/
def memoriesOk (p : Params) (cfgs : List InstCfg) : Bool :=
  decide ((cfgs.flatMap (regions p)).Pairwise Apart)

/-- The configuration is admitted (R236); `INSTANCES` is 1 to 256 (R7). -/
def configOk (p : Params) (cfgs : List InstCfg) : Bool :=
  decide (1 ≤ cfgs.length) && decide (cfgs.length ≤ 256) && paramsOk p && cfgs.all (instCfgOk p) && bindingsOk cfgs
    && memoriesOk p cfgs

/-- The configurations of the instances (R33). -/
def State.cfgs (s : State) : List InstCfg := s.insts.map fun c => c.cfg

/-- The state's configuration is admitted. -/
def State.configOk (s : State) : Bool := Machine.configOk s.params s.cfgs

end Sys2Proof.Machine
end

