-- ==== Sys2Proof/Machine/Ops.lean ====
section
/-! DEFINITION. The named operations over memory and state: reading and writing a byte, reaching an instance,
returning a result, raising a fault, refusing (10_state; 60_exceptions R233, R234), the environment's choices. -/

namespace Sys2Proof.Machine

/-- The byte at an address, if the memory lists it (R79, R84). -/
def Memory.read : Memory → Nat → Option Byte
  | [], _ => none
  | (k, v) :: rest, a => if k = a then some v else Memory.read rest a

/-- One byte written, keeping the addresses strictly rising (R79, R84). -/
def Memory.write : Memory → Nat → Byte → Memory
  | [], a, v => [(a, v)]
  | (k, u) :: rest, a, v =>
    if a < k then (a, v) :: (k, u) :: rest
    else if a = k then (a, v) :: rest
    else (k, u) :: Memory.write rest a v

/-- The canonical form: addresses strictly rising. No entry can equal what an unlisted address reads as, which is no
byte at all. -/
def Memory.wf : Memory → Bool
  | [] => true
  | [_] => true
  | (a, _) :: (b, w) :: rest => decide (a < b) && Memory.wf ((b, w) :: rest)

/-- The bytes at a list of addresses, if all are listed. -/
def Memory.readAll (m : Memory) : List Nat → Option (List Byte)
  | [] => some []
  | a :: rest =>
    match Memory.read m a, Memory.readAll m rest with
    | some v, some vs => some (v :: vs)
    | _, _ => none

/-- Instance `i`, if there is one: `i < INSTANCES` (R101, R249). -/
def State.inst? (s : State) (i : InstNo) : Option Inst := s.insts[i.toNat]?

/-- Instance `i` replaced, nothing else changed (R57). -/
def State.setInst (s : State) (i : InstNo) (c : Inst) : State := { s with insts := s.insts.set i.toNat c }

/-- `return v`: the command ends, `CUR` is none, `RESULT` is `v` (R12, R36, R37). -/
def State.ret (s : State) (v : Result) : State := { s with cur := none, result := v }

/-- TAKING A FAULT, the one exceptional outcome the spec gives a command: the record is added to the set `FAULT`, and
nothing else changes (R233). -/
def State.raise (s : State) (f : FaultRecord) : State :=
  { s with faults := if f ∈ s.faults then s.faults else s.faults ++ [f] }

/-- A refusal: `REFUSED` is set, and the run ends with the next step (R234). -/
def State.refuse (s : State) (r : RefuseReason) : State := { s with refusedBy := some r }

/-- `REFUSED` (R55). -/
def State.isRefused (s : State) : Bool := s.refusedBy.isSome

/-- The outcome of the next allocation (R181): the environment's choice in the state, else a free value (log 8). -/
def State.allocOutcome (s : State) : Bool :=
  match s.allocs with
  | ok :: _ => ok
  | [] => Config.allocOk s.draws

/-- The state after a draw. -/
def State.afterDraw (s : State) : State := { s with allocs := s.allocs.tail, draws := s.draws + 1 }

/-- Whose turn it is (R243): the environment's choice in the state, else a free value (log 7). -/
def State.nextAgent (s : State) : Agent :=
  match s.sched with
  | a :: _ => a
  | [] => Config.freeAgent s.turns

/-- The state in which the chosen agent acts: the choice is used up. -/
def State.takeTurn (s : State) : State :=
  match s.sched with
  | _ :: rest => { s with sched := rest }
  | [] => { s with turns := s.turns + 1 }

end Sys2Proof.Machine
end

