-- ==== Sys2Proof/Machine/Flags.lean ====
section
/-! DEFINITION. The block has no arithmetic flags (10_state R32); its status bits and what is computed from them: the
checks an issued command undergoes (60_exceptions R242), the time (R245), `canShowFn` (42_sequencer R186), `isBusy`. -/

namespace Sys2Proof.Machine

/-- `NOW = CLOCK mod 2^TIME_WIDTH` (R53). -/
def State.now (s : State) : Nat := s.clock % 2 ^ s.params.timeWidth

/-- `(NOW - t) mod 2^TIME_WIDTH`, in unsigned `TIME_WIDTH`-bit arithmetic (R186). -/
def State.elapsedSince (s : State) (t : Nat) : Nat :=
  (((s.now : Int) - (t : Int)) % ((2 ^ s.params.timeWidth : Nat) : Int)).toNat

/-- `canShowFn(i)` (R186). -/
def State.canShowFn (s : State) (c : Inst) : Bool :=
  match c.tLast with
  | none => true
  | some t => decide (s.params.resetThresholdUs ≤ s.elapsedSince t)

/-- The transfer is in flight (R200). -/
def Inst.isBusy (c : Inst) : Bool := decide (c.state = .transmitting)

/-- Check 3 of R242: the `INIT[i]` a command needs. -/
def requiredInit : Opcode → InitState
  | .beginCtl => .uninit
  | .endCtl => .ready
  | .setPixelRgb => .ready
  | .setPixelRgbw => .ready
  | .setPixelColor => .ready
  | .getPixelColor => .ready
  | .fill => .ready
  | .fillRange => .ready
  | .clear => .ready
  | .setBrightness => .ready
  | .getCount => .ready
  | .showFrame => .ready
  | .canShow => .ready
  | .isBusy => .ready
  | .wait => .ready

/-- The fault of a failing check 3 (R240, R242). -/
def initFault : Opcode → FaultReason
  | .beginCtl => .alreadyInitialized
  | .endCtl => .notInitialized
  | .setPixelRgb => .notInitialized
  | .setPixelRgbw => .notInitialized
  | .setPixelColor => .notInitialized
  | .getPixelColor => .notInitialized
  | .fill => .notInitialized
  | .fillRange => .notInitialized
  | .clear => .notInitialized
  | .setBrightness => .notInitialized
  | .getCount => .notInitialized
  | .showFrame => .notInitialized
  | .canShow => .notInitialized
  | .isBusy => .notInitialized
  | .wait => .notInitialized

/-- Check 4 of R242 applies: the command needs `STATE[i] = Idle` (R238). -/
def needsIdle : Opcode → Bool
  | .beginCtl => false
  | .endCtl => true
  | .setPixelRgb => true
  | .setPixelRgbw => true
  | .setPixelColor => true
  | .getPixelColor => false
  | .fill => true
  | .fillRange => true
  | .clear => true
  | .setBrightness => true
  | .getCount => false
  | .showFrame => true
  | .canShow => false
  | .isBusy => false
  | .wait => false

/-- The outcome of the checks of an issued command. -/
inductive Verdict where
  | pass (c : Inst)
  | fault (reason : FaultReason)
  | refuse (reason : RefuseReason)
  deriving DecidableEq, Repr

/-- Checks 2 to 4 of R242, in order; the first that fails names the outcome. Check 1 is the decoder. -/
def State.check (s : State) (op : Opcode) (i : InstNo) : Verdict :=
  match s.inst? i with
  | none => .refuse .badInstance
  | some c =>
    if c.init ≠ requiredInit op then .fault (initFault op)
    else if needsIdle op = true ∧ c.state ≠ .idle then .fault .busy
    else .pass c

/-- `guard_ready(i)` and its kin (R130, R242): the effect `k` on instance `i` runs only when the checks pass; a failing
check ends the step with the fault or refusal it names. -/
def State.guarded (s : State) (op : Opcode) (i : InstNo) (k : Inst → Out) : Out :=
  match s.check op i with
  | .pass c => k c
  | .fault r => .next (s.raise { inst := i, opcode := op, reason := r })
  | .refuse r => .next (s.refuse r)

end Sys2Proof.Machine
end

