-- ==== Sys2Proof/Machine/PixelPort.lean ====
section
/-! DEFINITION. The pixel-port commands (40_pixelstore R130 to R144). -/

namespace Sys2Proof.Machine

/-- One channel of a pixel whose first byte is at `base` written; a channel the order does not have is discarded
(R131). -/
def writeChannel (o : ColorOrder) (base : Nat) (ch : Channel) (v : Byte) (m : Memory) : Memory :=
  match off o ch with
  | some k => m.write (base + k) v
  | none => m

/-- `writePixel(p, r, g, b, w)` (R131). -/
def writePixel (o : ColorOrder) (p : Nat) (r g b w : Byte) (m : Memory) : Memory :=
  let base := p * channels o
  writeChannel o base .w w (writeChannel o base .b b (writeChannel o base .g g (writeChannel o base .r r m)))

/-- One channel of a pixel read; a channel the order does not have reads 0 (R135). -/
def readChannel (o : ColorOrder) (base : Nat) (ch : Channel) (m : Memory) : Option Byte :=
  match off o ch with
  | some k => m.read (base + k)
  | none => some 0

/-- The Color of pixel `p` (R135), if all its bytes are listed. -/
def readPixel (o : ColorOrder) (p : Nat) (m : Memory) : Option Color :=
  let base := p * channels o
  (readChannel o base .r m).bind fun r =>
  (readChannel o base .g m).bind fun g =>
  (readChannel o base .b m).bind fun b =>
  (readChannel o base .w m).bind fun w =>
  some (Color.pack r g b w)

/-- `if index < N then writePixel(...)`: an index out of range is a silent no-op (R132 to R134, R142). -/
def Inst.setPixel (c : Inst) (index : Index) (r g b w : Byte) : Memory :=
  if index.toNat < c.cfg.ledCount then writePixel c.cfg.colorOrder index.toNat r g b w c.pix else c.pix

/-- `for p in start .. stop - 1: writePixel(p, ...)` (R136, R137). -/
def fillPixels (o : ColorOrder) (start stop : Nat) (color : Color) (m : Memory) : Memory :=
  (List.range' start (stop - start)).foldl
    (fun m p => writePixel o p (Color.red color) (Color.green color) (Color.blue color) (Color.white color) m) m

/-- `for k in 0 .. n - 1: PIX[k] <- 0` (R138). -/
def zeroBytes (n : Nat) (m : Memory) : Memory :=
  (List.range n).foldl (fun m k => m.write k 0) m

/-- A command that writes `PIX[i]` and returns unit. -/
def pixelWrite (op : Opcode) (i : InstNo) (f : Inst → Memory) (s : State) : Out :=
  s.guarded op i fun c => .next ((s.setInst i { c with pix := f c }).ret .unit)

/-- A command that only returns a value (R135, R139, R189, R200). -/
def query (op : Opcode) (i : InstNo) (f : Inst → Result) (s : State) : Out :=
  s.guarded op i fun c => .next (s.ret (f c))

/-- SET_PIXEL_RGB (R132): white is written 0. -/
def execSetPixelRgb (i : InstNo) (index : Index) (r g b : Byte) (s : State) : Out :=
  pixelWrite .setPixelRgb i (fun c => c.setPixel index r g b 0) s

/-- SET_PIXEL_RGBW (R133). -/
def execSetPixelRgbw (i : InstNo) (index : Index) (r g b w : Byte) (s : State) : Out :=
  pixelWrite .setPixelRgbw i (fun c => c.setPixel index r g b w) s

/-- SET_PIXEL_COLOR (R134). -/
def execSetPixelColor (i : InstNo) (index : Index) (color : Color) (s : State) : Out :=
  pixelWrite .setPixelColor i
    (fun c => c.setPixel index (Color.red color) (Color.green color) (Color.blue color) (Color.white color)) s

/-- GET_PIXEL_COLOR (R135): the stored, unscaled Color; the zero Color out of range. -/
def execGetPixelColor (i : InstNo) (index : Index) (s : State) : Out :=
  s.guarded .getPixelColor i fun c =>
    if index.toNat < c.cfg.ledCount then
      match readPixel c.cfg.colorOrder index.toNat c.pix with
      | some color => .next (s.ret (.color color))
      | none => .fault (.noPixelByte i)
    else .next (s.ret (.color 0))

/-- FILL (R136). -/
def execFill (i : InstNo) (color : Color) (s : State) : Out :=
  pixelWrite .fill i (fun c => fillPixels c.cfg.colorOrder 0 c.cfg.ledCount color c.pix) s

/-- `e = min(start + count, N)`, the sum unbounded (R137). -/
def rangeEnd (start count : Index) (n : Nat) : Nat := min (start.toNat + count.toNat) n

/-- FILL_RANGE (R137). -/
def execFillRange (i : InstNo) (start count : Index) (color : Color) (s : State) : Out :=
  pixelWrite .fillRange i
    (fun c => fillPixels c.cfg.colorOrder start.toNat (rangeEnd start count c.cfg.ledCount) color c.pix) s

/-- CLEAR (R138). -/
def execClear (i : InstNo) (s : State) : Out :=
  pixelWrite .clear i (fun c => zeroBytes (pixBytes c.cfg) c.pix) s

/-- SET_BRIGHTNESS (R143). -/
def execSetBrightness (i : InstNo) (b : Byte) (s : State) : Out :=
  s.guarded .setBrightness i fun c => .next ((s.setInst i { c with bright := b }).ret .unit)

/-- GET_COUNT (R139): `N` as a 16-bit number. -/
def execGetCount (i : InstNo) (s : State) : Out :=
  query .getCount i (fun c => .number (BitVec.ofNat 16 c.cfg.ledCount)) s

end Sys2Proof.Machine
end

