-- ==== Sys2Proof/Machine/Controller.lean ====
section
/-! DEFINITION. The controller's commands (42_sequencer R181 to R201): BEGIN, END, CAN_SHOW, SHOW's issuing step,
IS_BUSY, WAIT. -/

namespace Sys2Proof.Machine

/-- The pixel memory a BEGIN allocates: every byte drawn (R181, log 9). -/
def drawnPixels (draw : Nat) (cfg : InstCfg) : Memory :=
  (List.range (pixBytes cfg)).map fun k => (k, Config.pixByte draw k)

/-- The stream memory a BEGIN allocates: any `L` entries (R181, log 10). -/
def drawnStream (draw : Nat) (p : Params) (cfg : InstCfg) : List Nat :=
  (List.range (streamLen p cfg)).map fun j => cutToDutyWidth p (Config.streamEntry draw j)

/-- The instance after a successful BEGIN (R181; the "after begin" column of R56). -/
def Inst.begun (draw : Nat) (p : Params) (c : Inst) : Inst :=
  { c with
    pix := drawnPixels draw c.cfg
    stream := drawnStream draw p c.cfg
    bright := BitVec.ofNat 8 p.brightnessInit
    state := .idle
    tLast := none
    tgRun := false
    tgDreq := false
    ccr := 0
    act := 0
    xfEn := false
    xfIdx := 0
    xfCnt := 0
    xfTc := false
    pinMode := .low
    init := .ready }

/-- BEGIN (R181, R182): a failed allocation returns false and changes nothing of the instance. -/
def execBegin (i : InstNo) (s : State) : Out :=
  s.guarded .beginCtl i fun c =>
    .next (if s.allocOutcome then (s.afterDraw.setInst i (c.begun s.draws s.params)).ret (.bool true)
      else s.afterDraw.ret (.bool false))

/-- The instance after END (R184): both memories released, `PIN_MODE` stays. -/
def Inst.ended (c : Inst) : Inst := { c with init := .uninit, pix := [], stream := [] }

/-- END (R184). -/
def execEnd (i : InstNo) (s : State) : Out :=
  s.guarded .endCtl i fun c => .next ((s.setInst i c.ended).ret .unit)

/-- CAN_SHOW (R189). -/
def execCanShow (i : InstNo) (s : State) : Out :=
  query .canShow i (fun c => .bool (s.canShowFn c)) s

/-- `CUR` holding a SHOW of instance `i` at a phase (R36, R193). -/
def showAt (i : InstNo) (ph : Phase) : Option Cur := some { inst := i, opcode := .showFrame, phase := some ph }

/-- SHOW, the issuing step (R193): the phases follow in the host's later turns (Machine/Sequencer.lean). -/
def execShow (i : InstNo) (s : State) : Out :=
  s.guarded .showFrame i fun _ => .next { s with cur := showAt i .waitReset }

/-- IS_BUSY (R200). -/
def execIsBusy (i : InstNo) (s : State) : Out :=
  query .isBusy i (fun c => .bool c.isBusy) s

/-- `hold until STATE[i] != Transmitting; return unit` (R201): while the hold lasts `CUR` keeps the WAIT (log 17). -/
def waitOn (i : InstNo) (c : Inst) (s : State) : State :=
  if c.isBusy then { s with cur := some { inst := i, opcode := .wait, phase := none } } else s.ret .unit

/-- WAIT (R201). -/
def execWait (i : InstNo) (s : State) : Out :=
  s.guarded .wait i fun c => .next (waitOn i c s)

end Sys2Proof.Machine
end

