-- ==== Sys2Proof/Machine/Dispatch.lean ====
section
/-! DEFINITION. One arm for each command. -/

namespace Sys2Proof.Machine

def exec (i : Instr) (s : State) : Host.Outcome State Fault Refusal :=
  match i with
  | .beginCtl inst => Sys2Proof.Machine.execBegin inst s
  | .endCtl inst => Sys2Proof.Machine.execEnd inst s
  | .setPixelRgb inst index r g b => Sys2Proof.Machine.execSetPixelRgb inst index r g b s
  | .setPixelRgbw inst index r g b w => Sys2Proof.Machine.execSetPixelRgbw inst index r g b w s
  | .setPixelColor inst index color => Sys2Proof.Machine.execSetPixelColor inst index color s
  | .getPixelColor inst index => Sys2Proof.Machine.execGetPixelColor inst index s
  | .fill inst color => Sys2Proof.Machine.execFill inst color s
  | .fillRange inst start count color => Sys2Proof.Machine.execFillRange inst start count color s
  | .clear inst => Sys2Proof.Machine.execClear inst s
  | .setBrightness inst brightness => Sys2Proof.Machine.execSetBrightness inst brightness s
  | .getCount inst => Sys2Proof.Machine.execGetCount inst s
  | .showFrame inst => Sys2Proof.Machine.execShow inst s
  | .canShow inst => Sys2Proof.Machine.execCanShow inst s
  | .isBusy inst => Sys2Proof.Machine.execIsBusy inst s
  | .wait inst => Sys2Proof.Machine.execWait inst s

end Sys2Proof.Machine
end

