-- ==== Sys2Proof/Machine/Generator.lean ====
section
/-! DEFINITION. The timing generator with the transfer engine (42_sequencer R204 to R206), and the time source
(60_exceptions R245). -/

namespace Sys2Proof.Machine

/-- The instance after the transfer of entry `d`, with `left` entries still to transfer (R205). -/
def Inst.transferred (d left : Nat) (c : Inst) : Inst :=
  { c with
    ccr := d
    xfIdx := c.xfIdx + 1
    xfCnt := left
    xfTc := if left = 0 then true else c.xfTc
    xfEn := if left = 0 then false else c.xfEn }

/-- The transfer of a period boundary, if one is requested and the engine is armed (R205). -/
def Inst.transfer (i : InstNo) (c : Inst) : Except Fault Inst :=
  if c.tgDreq && c.xfEn then
    match c.stream[c.xfIdx]?, c.xfCnt with
    | some d, left + 1 => .ok (c.transferred d left)
    | some _, 0 => .error (.transferCountZero i)
    | none, _ => .error (.noStreamEntry i)
  else .ok c

/-- `if PIN_MODE[i] = TIMER: emit(ACT[i])` (R205, R54). -/
def Inst.emit (c : Inst) : Inst :=
  if c.pinMode = .timer then { c with wire := c.wire ++ [c.act] } else c

/-- The period after the transfer: `ACT` is loaded before the period is emitted when `CCR_LAG = 0`, after it when
`CCR_LAG = 1` (R47, R205). -/
def Inst.produce (lag : CcrLag) (c : Inst) : Inst :=
  match lag with
  | .lag0 => Inst.emit { c with act := c.ccr }
  | .lag1 => { c.emit with act := c.ccr }

/-- `TG_PERIOD(i)` (R205), enabled when `TG_RUN[i] = 1`; a turn of a generator that is not running passes (R204). -/
def tgPeriod (i : InstNo) (s : State) : Out :=
  match s.inst? i with
  | none => .next s
  | some c =>
    if c.tgRun then
      match c.transfer i with
      | .ok c' => .next (s.setInst i (c'.produce s.params.ccrLag))
      | .error f => .fault f
    else .next s

/-- `TICK` (R245). -/
def tick (s : State) : Out := .next { s with clock := s.clock + 1 }

end Sys2Proof.Machine
end

