-- ==== Sys2Proof/Machine/Encoder.lean ====
section
/-! DEFINITION. The encoder (41_encoder R160 to R173): the pure function the ENCODE step of SHOW computes. -/

namespace Sys2Proof.Machine

/-- The addresses the encoder reads, in wire order: pixels in index order, within a pixel `p * CH + woff(ORDER, c)`
(R165). -/
def wireAddresses (cfg : InstCfg) : List Nat :=
  (List.range cfg.ledCount).flatMap fun p => (woff cfg.colorOrder).map fun k => p * channels cfg.colorOrder + k

/-- The stream entry of one bit (R117). -/
def bitEntry (p : Params) (b : Bool) : Nat := if b then p.dutyOne else p.dutyZero

/-- The eight entries of a scaled byte, most significant bit first (R164). -/
def byteEntries (p : Params) (v : Byte) : List Nat :=
  (List.range 8).map fun k => bitEntry p (v.getLsbD (7 - k))

/-- The entries of a sequence of wire bytes at a brightness, and the reset tail (R165, R166). -/
def streamOf (p : Params) (br : Byte) (bytes : List Byte) : List Nat :=
  bytes.flatMap (fun v => byteEntries p (scale v br)) ++ List.replicate p.resetCycles 0

/-- `encode(PIX, BRIGHT, ORDER)` (R160, R165), if the memory lists every byte it reads. -/
def encodeStream (p : Params) (cfg : InstCfg) (pix : Memory) (br : Byte) : Option (List Nat) :=
  (pix.readAll (wireAddresses cfg)).map (streamOf p br)

end Sys2Proof.Machine
end

