-- ==== Sys2Proof/Machine/Sequencer.lean ====
section
/-! DEFINITION. The four host steps of SHOW (42_sequencer R194 to R197), and a WAIT that holds (R201). A turn whose
hold is not lifted passes: the state is unchanged (60_exceptions R231 b). -/

namespace Sys2Proof.Machine

/-- WAIT_RESET (R194): `hold until canShowFn(i); STATE[i] <- Encoding`. -/
def stepWaitReset (i : InstNo) (c : Inst) (s : State) : Out :=
  if s.canShowFn c then .next { (s.setInst i { c with state := .encoding }) with cur := showAt i .encode }
  else .next s

/-- ENCODE (R195): `STREAM[i] <- encode(i)` in one atomic step. -/
def stepEncode (i : InstNo) (c : Inst) (s : State) : Out :=
  match encodeStream s.params c.cfg c.pix c.bright with
  | some entries => .next { (s.setInst i { c with stream := entries }) with cur := showAt i .arm }
  | none => .fault (.noPixelByte i)

/-- The instance after ARM (R196). -/
def Inst.armed (p : Params) (c : Inst) : Inst :=
  { c with
    ccr := 0
    act := 0
    xfIdx := 0
    xfCnt := streamLen p c.cfg
    xfTc := false
    xfEn := true
    tgDreq := true
    pinMode := .timer
    tgRun := true
    state := .transmitting }

/-- ARM (R196). -/
def stepArm (i : InstNo) (c : Inst) (s : State) : Out :=
  .next { (s.setInst i (c.armed s.params)) with cur := showAt i .waitDone }

/-- The instance after the disarm of WAIT_DONE at time `now` (R197). -/
def Inst.disarmed (now : Nat) (c : Inst) : Inst :=
  { c with
    xfEn := false
    tgDreq := false
    tgRun := false
    pinMode := .low
    tLast := some now
    state := .idle }

/-- WAIT_DONE (R197): `hold until XF_TC[i] = 1`, then disarm, pin low, timestamp, Idle, return unit. -/
def stepWaitDone (i : InstNo) (c : Inst) (s : State) : Out :=
  if c.xfTc then .next ((s.setInst i (c.disarmed s.now)).ret .unit) else .next s

/-- The host's turn while `CUR` holds a command: the step of SHOW's phase, or the WAIT that holds. No other `CUR` has an
enabled step (R36, R191). -/
def continueCurrent (cur : Cur) (s : State) : Out :=
  match s.inst? cur.inst with
  | none => .next s
  | some c =>
    match cur.opcode, cur.phase with
    | .showFrame, some .waitReset => stepWaitReset cur.inst c s
    | .showFrame, some .encode => stepEncode cur.inst c s
    | .showFrame, some .arm => stepArm cur.inst c s
    | .showFrame, some .waitDone => stepWaitDone cur.inst c s
    | .wait, _ => .next (waitOn cur.inst c s)
    | _, _ => .next s

end Sys2Proof.Machine
end

