-- ==== Sys2Proof/Machine/Turn.lean ====
section
/-! DEFINITION. One turn of an agent (00_scope R13, R14): the host issues a command or goes on with the current one,
a timing generator makes a period, the time source ticks. -/

namespace Sys2Proof.Machine

/-- The host issues the word `w`: check 1 of R242 is the decoder (R239); the rest is the command's. -/
def issueWord (w : Word) (s : State) : Out :=
  match decode w with
  | .ok i => exec i s
  | .error _ => .next (s.refuse .illegalCommand)

/-- The host's turn. After a fault it takes no further step (R233). With `CUR = none` it issues the next word of its
program (R36, log 6); with no word left its program has ended (R277). -/
def hostTurn (s : State) : Out :=
  match s.faults with
  | _ :: _ => .next s
  | [] =>
    match s.cur with
    | some cur => continueCurrent cur s
    | none =>
      match s.program with
      | [] => .next s
      | w :: rest => issueWord w { s with program := rest }

/-- The turn of an agent. -/
def agentTurn (a : Agent) (s : State) : Out :=
  match a with
  | .host => hostTurn s
  | .timingGenerator i => tgPeriod i s
  | .timeSource => tick s

/-- One step of a machine whose run has not been refused: a configuration that is not admitted is refused before the
first step of any agent (R236); otherwise the agent whose turn it is acts (R243). -/
def runTurn (s : State) : Out :=
  if s.configOk then agentTurn s.nextAgent s.takeTurn else .next (s.refuse .badConfig)

/-- The state in which the host's turn comes next and `w` is the next word of its program. -/
def placeWord (w : Word) (s : State) : State :=
  { s with program := w :: s.program, sched := .host :: s.sched }

end Sys2Proof.Machine
end

