-- ==== Sys2Proof/Machine/Step.lean ====
section
/-! DEFINITION. One step of the machine, and placing a command for the next step. -/

namespace Sys2Proof.Machine

/-- One step. A refused run has no further step of any agent (60_exceptions R234). -/
def step (s : State) : Host.Outcome State Fault Refusal :=
  match s.refusedBy with
  | some r => .refused (.runEnded r)
  | none => runTurn s

/-- `s` with the command word placed where the next step issues it: it becomes the next word of the host's program and
the host's turn comes next (log 6). -/
def State.withFetchWord (s : State) (nbits w : Nat) : State :=
  placeWord (BitVec.ofNat 96 (w % 2 ^ nbits)) s

end Sys2Proof.Machine
end

