-- ==== Sys2Proof/Machine/AddressMap.lean ====
section
/-! DEFINITION. The two memories of an instance as bytes of the host's address space (20_memory R78, R82). A view: no
step reads it (log 21). -/

namespace Sys2Proof.Machine

/-- The byte of `PIX[i]` at a host address: byte `k` lies at `PIX_BASE + k` (R70, R82). -/
def pixImageByte (c : Inst) (addr : Nat) : Option Byte :=
  if addr < c.cfg.pixBase then none else c.pix.read (addr - c.cfg.pixBase)

/-- The byte of `STREAM[i]` at a host address: entry `j` occupies bytes `STREAM_BASE + j * (DUTY_WIDTH / 8)` upward,
least significant byte first (R78). -/
def streamImageByte (p : Params) (c : Inst) (addr : Nat) : Option Byte :=
  if addr < c.cfg.streamBase then none
  else
    let bytes := dutyBits p.dutyWidth / 8
    let k := addr - c.cfg.streamBase
    match c.stream[k / bytes]? with
    | some e => some (BitVec.ofNat 8 (e / 2 ^ (8 * (k % bytes))))
    | none => none

end Sys2Proof.Machine
end

