-- ==== Sys2Proof/Machine/Assembler.lean ====
section
/-! DEFINITION. The textual syntax of a command (30_encoding R108): `s<i>.name(arg, ...)`, numbers decimal or `0x`
hexadecimal, the forms of `setPixelColor` told apart by arity (log 22). -/

namespace Sys2Proof.Machine

/-- A digit of base 10 or 16; a hexadecimal digit of either case: DESIGN CHOICE (log 22). -/
def digitValue (base : Nat) (ch : Char) : Option Nat :=
  let n := ch.toNat
  let d := if 48 ≤ n ∧ n ≤ 57 then some (n - 48)
    else if 97 ≤ n ∧ n ≤ 102 then some (n - 87)
    else if 65 ≤ n ∧ n ≤ 70 then some (n - 55)
    else none
  match d with
  | some v => if v < base then some v else none
  | none => none

/-- Digits after those already read. -/
def digits (base : Nat) : List Char → Nat → Option Nat
  | [], acc => some acc
  | ch :: rest, acc =>
    match digitValue base ch with
    | some d => digits base rest (acc * base + d)
    | none => none

/-- A number, decimal or `0x` hexadecimal (R108). That `0x` needs a digit and that leading zeros are taken: DESIGN
CHOICE (log 22). -/
def number : List Char → Option Nat
  | [] => none
  | '0' :: 'x' :: ch :: rest => digits 16 (ch :: rest) 0
  | ch :: rest => digits 10 (ch :: rest) 0

/-- The text before the first `stop`, and the text after it. -/
def splitAt? (stop : Char) : List Char → Option (List Char × List Char)
  | [] => none
  | ch :: rest =>
    if ch = stop then some ([], rest)
    else
      match splitAt? stop rest with
      | some (before, after) => some (ch :: before, after)
      | none => none

/-- The arguments between the brackets, separated by commas. `word` is the argument being read. Blanks are skipped, in
a number too: DESIGN CHOICE (log 22). -/
def arguments : List Char → List Char → Option (List Nat)
  | [], word => (number word).map fun n => [n]
  | ch :: rest, word =>
    if ch = ' ' then arguments rest word
    else if ch = ',' then
      match number word, arguments rest [] with
      | some n, some ns => some (n :: ns)
      | _, _ => none
    else arguments rest (word ++ [ch])

/-- The arguments of a call; brackets with nothing but blanks between them hold none. DESIGN CHOICE (log 22): R108 does
not say whether a blank may stand there. -/
def argumentList (text : List Char) : Option (List Nat) :=
  if text.all (fun ch => ch == ' ') then some [] else arguments text []

/-- A number as a field of `n` bits, if it fits; one that does not makes no command: DESIGN CHOICE (log 22). -/
def field? (n v : Nat) : Option (BitVec n) := if v < 2 ^ n then some (BitVec.ofNat n v) else none

/-- The command of a call by name and arity (R108). -/
def callOf (i : InstNo) (name : List Char) (args : List Nat) : Option Instr :=
  match args with
  | [] =>
    if name = ['b', 'e', 'g', 'i', 'n'] then some (.beginCtl i)
    else if name = ['e', 'n', 'd'] then some (.endCtl i)
    else if name = ['c', 'l', 'e', 'a', 'r'] then some (.clear i)
    else if name = ['g', 'e', 't', 'C', 'o', 'u', 'n', 't'] then some (.getCount i)
    else if name = ['s', 'h', 'o', 'w'] then some (.showFrame i)
    else if name = ['c', 'a', 'n', 'S', 'h', 'o', 'w'] then some (.canShow i)
    else if name = ['i', 's', 'B', 'u', 's', 'y'] then some (.isBusy i)
    else if name = ['w', 'a', 'i', 't'] then some (.wait i)
    else none
  | [x] =>
    if name = ['g', 'e', 't', 'P', 'i', 'x', 'e', 'l', 'C', 'o', 'l', 'o', 'r'] then
      (field? 16 x).map fun index => .getPixelColor i index
    else if name = ['f', 'i', 'l', 'l'] then (field? 32 x).map fun color => .fill i color
    else if name = ['s', 'e', 't', 'B', 'r', 'i', 'g', 'h', 't', 'n', 'e', 's', 's'] then
      (field? 8 x).map fun b => .setBrightness i b
    else none
  | [x, y] =>
    if name = ['s', 'e', 't', 'P', 'i', 'x', 'e', 'l', 'C', 'o', 'l', 'o', 'r'] then
      (field? 16 x).bind fun index => (field? 32 y).map fun color => .setPixelColor i index color
    else none
  | [x, y, z] =>
    if name = ['f', 'i', 'l', 'l', 'R', 'a', 'n', 'g', 'e'] then
      (field? 16 x).bind fun start => (field? 16 y).bind fun count =>
        (field? 32 z).map fun color => .fillRange i start count color
    else none
  | [x, y, z, u] =>
    if name = ['s', 'e', 't', 'P', 'i', 'x', 'e', 'l', 'C', 'o', 'l', 'o', 'r'] then
      (field? 16 x).bind fun index => (field? 8 y).bind fun r => (field? 8 z).bind fun g =>
        (field? 8 u).map fun b => .setPixelRgb i index r g b
    else none
  | [x, y, z, u, v] =>
    if name = ['s', 'e', 't', 'P', 'i', 'x', 'e', 'l', 'C', 'o', 'l', 'o', 'r'] then
      (field? 16 x).bind fun index => (field? 8 y).bind fun r => (field? 8 z).bind fun g =>
        (field? 8 u).bind fun b => (field? 8 v).map fun w => .setPixelRgbw i index r g b w
    else none
  | _ => none

/-- The command a line of text stands for (R108), none where it is no command. The instance number is read like any
other number, and no blank may stand outside the brackets: DESIGN CHOICE (log 22). -/
def parseCommand (text : List Char) : Option Instr :=
  match text with
  | 's' :: rest =>
    (splitAt? '.' rest).bind fun (inst, rest) =>
    (splitAt? '(' rest).bind fun (name, rest) =>
    (splitAt? ')' rest).bind fun (args, rest) =>
    if rest = [] then
      (number inst).bind fun n => (field? 8 n).bind fun i =>
        (argumentList args).bind fun ns => callOf i name ns
    else none
  | _ => none

end Sys2Proof.Machine
end

