-- ==== Sys2Proof/Machine/Interleaving.lean ====
section
/-! DEFINITION. Runs on a schedule of the environment (60_exceptions R243), the fairness assumption (42_sequencer R210)
and a hang (R211, 60_exceptions R231 e, R241). No step rests on these: a statement that needs them takes them as
hypotheses. -/

namespace Sys2Proof.Machine

/-- The environment gives the next turn to `a`. -/
def giveTurn (a : Agent) (s : State) : State := { s with sched := [a] }

/-- The infinite run `r` in which turn `n` is that of agent `sched n`: any interleaving of the agents' steps (R243). -/
def RunOn (sched : Nat → Agent) (r : Nat → State) : Prop :=
  ∀ n, step (giveTurn (sched n) (r n)) = .next (r (n + 1))

/-- `TG_PERIOD(i)` is enabled (R204). -/
def generatorEnabled (i : InstNo) (s : State) : Bool :=
  match s.inst? i with
  | some c => c.tgRun
  | none => false

/-- The step of the current command is enabled: its hold, if it has one, is lifted (R194 to R197, R201). -/
def currentEnabled (cur : Cur) (c : Inst) (s : State) : Bool :=
  match cur.opcode, cur.phase with
  | .showFrame, some .waitReset => s.canShowFn c
  | .showFrame, some .encode => true
  | .showFrame, some .arm => true
  | .showFrame, some .waitDone => c.xfTc
  | .wait, _ => !c.isBusy
  | _, _ => false

/-- The host has an enabled step: it has not stopped with a fault, and the current command's step is enabled or a word
is left to issue (R36, R233, R277). -/
def hostEnabled (s : State) : Bool :=
  s.faults.isEmpty &&
    match s.cur with
    | none => !s.program.isEmpty
    | some cur =>
      match s.inst? cur.inst with
      | some c => currentEnabled cur c s
      | none => false

/-- The fairness R210 assumes. A `TG_PERIOD` step that stays enabled is eventually taken; the time source's step, which
is always enabled (R245), is taken again and again. -/
def WeaklyFair (sched : Nat → Agent) (r : Nat → State) : Prop :=
  (∀ (i : InstNo) (n : Nat), (∀ m, n ≤ m → generatorEnabled i (r m) = true) →
    ∃ m, n ≤ m ∧ sched m = .timingGenerator i) ∧
  ∀ n, ∃ m, n ≤ m ∧ sched m = .timeSource

/-- The host is scheduled: a host whose step is enabled again and again takes one while it is enabled, again and again.
DESIGN CHOICE (log 16): R210 speaks of the other agents only, and weak fairness would not do, since `NOW` wraps and a
WAIT_RESET hold that is lifted can come back before the host looks. -/
def HostFair (sched : Nat → Agent) (r : Nat → State) : Prop :=
  (∀ n, ∃ m, n ≤ m ∧ hostEnabled (r m) = true) →
    ∀ n, ∃ m, n ≤ m ∧ sched m = .host ∧ hostEnabled (r m) = true

/-- A hang: "an infinite run in which a hold is never lifted" (R231 e). -/
def Hangs (r : Nat → State) : Prop :=
  ∃ n, ∀ m, n ≤ m → (r m).cur ≠ none ∧ hostEnabled (r m) = false

end Sys2Proof.Machine
end

