-- ==== Sys2Proof/Machine/Wire.lean ====
section
/-! DEFINITION. What the records of `WIRE` mean on the pin (30_encoding R120, 10_state R48, R54). -/

namespace Sys2Proof.Machine

/-- One period of `PERIOD_TICKS` ticks with duty `d`: the first `d` ticks high, the rest low (R120). -/
def periodLevels (p : Params) (d : Nat) : List Bool :=
  List.replicate d true ++ List.replicate (p.periodTicks - d) false

/-- The tick-by-tick level of the pin over all periods recorded so far (R54, R120). -/
def wireLevels (p : Params) (c : Inst) : List Bool := c.wire.flatMap (periodLevels p)

/-- The level the controller itself drives: low while `PIN_MODE = LOW`, none otherwise (R48). -/
def drivenLevel (c : Inst) : Option Bool :=
  match c.pinMode with
  | .low => some false
  | .timer => none
  | .unconfigured => none

end Sys2Proof.Machine
end

