-- ==== Sys2Proof/Safety.lean ====
section
/-! DEFINITION. The terms claims use: the invariant of the machine (42_sequencer R202 with what makes it inductive),
when it is the host's turn, the records one SHOW puts on the wire (R208). -/

namespace Sys2Proof.Safety

open Sys2Proof.Machine

/-- No refusal, an admitted configuration: an agent's step can happen (R234, R236). -/
def Running (s : State) : Prop := s.refusedBy = none ∧ s.configOk = true

/-- It is the host's turn, and the host has not stopped with a fault (R233). -/
def HostTurn (s : State) : Prop := Running s ∧ s.faults = [] ∧ s.nextAgent = .host

/-- The phase of SHOW that `CUR` holds for instance `i`. -/
def showPhase (cur : Option Cur) (i : InstNo) : Option Phase :=
  match cur with
  | none => none
  | some c => if c.inst = i ∧ c.opcode = .showFrame then c.phase else none

/-- Timer stopped, no DMA request, transfer engine disarmed. -/
def Quiet (c : Inst) : Prop := c.tgRun = false ∧ c.tgDreq = false ∧ c.xfEn = false

/-- The duty values the encoder uses (R117). -/
def LegalDuty (p : Params) (d : Nat) : Prop := d = 0 ∨ d = p.dutyZero ∨ d = p.dutyOne

/-- No SHOW of the instance is under way beyond WAIT_RESET. -/
def IdleOk (c : Inst) : Prop := c.state = .idle ∧ Quiet c ∧ (c.init = .ready → c.pinMode = .low)

/-- Between WAIT_RESET and ARM. -/
def EncodingOk (c : Inst) : Prop := c.init = .ready ∧ c.state = .encoding ∧ Quiet c ∧ c.pinMode = .low

/-- `STREAM[i]` is the encode of `PIX[i]` and `BRIGHT[i]` (R85, R86). -/
def Encoded (p : Params) (c : Inst) : Prop := encodeStream p c.cfg c.pix c.bright = some c.stream

/-- Between ARM and WAIT_DONE (R202 c, d). The compare register holds the entry transferred last, 0 before the first,
and so does `ACT` at the end of every period. -/
def TransmittingOk (p : Params) (c : Inst) : Prop :=
  c.init = .ready ∧ c.state = .transmitting ∧ c.tgRun = true ∧ c.tgDreq = true ∧ c.pinMode = .timer
    ∧ c.xfIdx + c.xfCnt = streamLen p c.cfg
    ∧ (c.xfEn = true ↔ 0 < c.xfCnt) ∧ (c.xfTc = true ↔ c.xfCnt = 0)
    ∧ Encoded p c ∧ (0 :: c.stream)[c.xfIdx]? = some c.ccr ∧ c.act = c.ccr

/-- What an instance is like at each phase of its SHOW. -/
def PhaseOk (p : Params) (ph : Option Phase) (c : Inst) : Prop :=
  match ph with
  | none => IdleOk c
  | some .waitReset => c.init = .ready ∧ IdleOk c
  | some .encode => EncodingOk c
  | some .arm => EncodingOk c ∧ Encoded p c
  | some .waitDone => TransmittingOk p c

/-- Both memories have the sizes R35 gives them (R56, R70, R73, R183). -/
def Allocated (p : Params) (c : Inst) : Prop :=
  c.pix.map Prod.fst = List.range (pixBytes c.cfg) ∧ c.stream.length = streamLen p c.cfg
    ∧ ∀ d ∈ c.stream, d < 2 ^ dutyBits p.dutyWidth

/-- Neither memory exists (R183, R184). -/
def Released (c : Inst) : Prop := c.pix = [] ∧ c.stream = []

/-- The invariant of one instance. -/
structure InstInv (p : Params) (ph : Option Phase) (c : Inst) : Prop where
  phase : PhaseOk p ph c
  allocated : c.init = .ready → Allocated p c
  released : c.init = .uninit → Released c ∨ Allocated p c
  index : c.xfIdx ≤ streamLen p c.cfg
  count : c.xfCnt ≤ streamLen p c.cfg
  ccr : c.ccr < 2 ^ dutyBits p.dutyWidth
  act : c.act < 2 ^ dutyBits p.dutyWidth
  tLast : ∀ t, c.tLast = some t → t < 2 ^ p.timeWidth
  wire : ∀ d ∈ c.wire, LegalDuty p d

/-- The invariant of the machine. -/
structure Inv (s : State) : Prop where
  config : s.configOk = true
  insts : ∀ i c, s.inst? i = some c → InstInv s.params (showPhase s.cur i) c
  cur : ∀ k, s.cur = some k → k.opcode = .showFrame ∧ k.phase ≠ none ∧ ∃ c, s.inst? k.inst = some c
  faults : s.faults.Nodup
  stopped : s.faults ≠ [] → s.cur = none

/-- A run of a host program has ended (R277): no command is left or under way, no fault, no refusal. -/
def RunEnded (s : State) : Prop := s.program = [] ∧ s.cur = none ∧ s.faults = [] ∧ s.refusedBy = none

/-- Every pixel memory is in canonical form. -/
def MemoriesWf (s : State) : Prop := ∀ c ∈ s.insts, c.pix.wf = true

/-- The first `n` records of a SHOW of `stream`, `n` periods after its ARM (R208). -/
def wireRecords (lag : CcrLag) (stream : List Nat) (n : Nat) : List Nat :=
  (List.replicate (lagPeriods lag) 0 ++ stream ++ List.replicate n 0).take n

/-- A SHOW of instance `i` is between ARM and WAIT_DONE, `n` periods after its ARM, which found `WIRE[i] = before`. -/
def Sending (s : State) (i : InstNo) (before : List Nat) (n : Nat) : Prop :=
  s.cur = showAt i .waitDone ∧
    ∃ c, s.inst? i = some c ∧ c.xfIdx = min n (streamLen s.params c.cfg)
      ∧ c.wire = before ++ wireRecords s.params.ccrLag c.stream n

end Sys2Proof.Safety
end

