-- ==== Sys2Proof/Certificates/Slice0/Obligations.lean ====
section
/-! DEFINITION. The statements about the machine, each from the numbered rules of spec/ its docstring names. -/

section

open Sys2Proof Sys2Proof.Machine Sys2Proof.Safety

/-! ## Encoding -/

/-- R101, R102, R103: the word of every command decodes to that command, with every operand at every value. -/
def Obligations.DecodeOfEncodeIsTheCommand : Prop :=
  ∀ i : Instr, decode (encode i) = .ok i

/-- R103, R106: a word that decodes is the word of the command it decodes to, so no two words stand for one command and
no must-be-zero bit is overlooked. -/
def Obligations.EncodeOfDecodeIsTheWord : Prop :=
  ∀ (w : Word) (i : Instr), decode w = .ok i → encode i = w

/-- R107: the decoder answers a command exactly where `(word AND mask) = match` for the command's row; no word matches
two rows; `match` and `mask` are those of the tables of R105 and R107. -/
def Obligations.DecoderFollowsMaskAndMatch : Prop :=
  (∀ (w : Word) (op : Opcode),
      (∃ i, decode w = .ok i ∧ i.opcode = op) ↔ w &&& op.format.mask = op.code ++ 0#88) ∧
  (∀ (w : Word) (op op' : Opcode),
      w &&& op.format.mask = op.code ++ 0#88 → w &&& op'.format.mask = op'.code ++ 0#88 → op = op') ∧
  (∀ w : Word, (∀ op : Opcode, w &&& op.format.mask ≠ op.code ++ 0#88) → ∃ e, decode w = .error e) ∧
  Opcode.all.map (fun op => (op.code.toNat, op.format)) =
    [(0x01, .n), (0x02, .n), (0x10, .irgb), (0x11, .ic), (0x12, .ic), (0x13, .i), (0x14, .c), (0x15, .rc), (0x16, .n),
     (0x17, .br), (0x19, .n), (0x20, .n), (0x21, .n), (0x22, .n), (0x23, .n)] ∧
  [Format.n, .i, .irgb, .ic, .c, .rc, .br].map (fun f => f.mask.toNat) =
    [0xFF00FFFFFFFFFFFFFFFFFFFF, 0xFF000000FFFFFFFFFFFFFFFF, 0xFF000000FFFFFFFFFF000000, 0xFF000000FFFFFFFF00000000,
     0xFF00FFFFFFFFFFFF00000000, 0xFF0000000000FFFF00000000, 0xFF00FFFFFFFFFFFFFFFFFF00]

/-- R106, R239: a word whose opcode is not one of the 15, or with a non-zero must-be-zero field of its opcode's format
(R103, written out field by field), is refused as IllegalCommand when the host issues it. -/
def Obligations.IllegalWordsAreRefused : Prop :=
  ∀ (s : State) (w : Word) (rest : List Word), HostTurn s → s.cur = none → s.program = w :: rest →
    (((Word.opc w).toNat ∉ [0x01, 0x02, 0x10, 0x11, 0x12, 0x13, 0x14, 0x15, 0x16, 0x17, 0x19, 0x20, 0x21, 0x22, 0x23]) ∨
     (Word.rsv w ≠ 0) ∨
     ((Word.opc w).toNat ≠ 0x15 ∧ Word.fieldB w ≠ 0) ∨
     ((Word.opc w).toNat ∈ [0x01, 0x02, 0x14, 0x16, 0x17, 0x19, 0x20, 0x21, 0x22, 0x23] ∧ Word.fieldA w ≠ 0) ∨
     ((Word.opc w).toNat ∈ [0x01, 0x02, 0x13, 0x16, 0x19, 0x20, 0x21, 0x22, 0x23] ∧ Word.fieldD w ≠ 0) ∨
     ((Word.opc w).toNat = 0x10 ∧ w.extractLsb' 24 8 ≠ 0#8) ∨
     ((Word.opc w).toNat = 0x17 ∧ w.extractLsb' 8 24 ≠ 0#24)) →
    step s = .next { s.takeTurn with program := rest, refusedBy := some .illegalCommand }

/-- Words of 95_test_vectors and the commands they stand for, one for each format at least (R101 to R105). -/
def Obligations.SampleWordsDecode : Prop :=
  decode 0x010000000000000000000000#96 = .ok (.beginCtl 0) ∧
  decode 0x100000000000000000FF0080#96 = .ok (.setPixelRgb 0 0 0xFF 0x00 0x80) ∧
  decode 0x130000050000000000000000#96 = .ok (.getPixelColor 0 5) ∧
  decode 0x1400000000000000000000FF#96 = .ok (.fill 0 0xFF) ∧
  decode 0x15000001000500008040FF01#96 = .ok (.fillRange 0 1 5 0x8040FF01) ∧
  decode 0x170000000000000000000080#96 = .ok (.setBrightness 0 128) ∧
  decode 0x200100000000000000000000#96 = .ok (.showFrame 1) ∧
  decode 0x180000000000000000000000#96 = .error .unlistedOpcode ∧
  decode 0x130000000001000000000000#96 = .error .reservedNotZero

/-- A step runs the decoded command: when the host's turn comes, no command is under way and the next word decodes to
`i`, the step is `exec i` on the state from which the turn and the word have been taken; with that word placed by
`withFetchWord` it is the very next step. -/
def Obligations.StepRunsTheDecodedCommand : Prop :=
  (∀ (s : State) (w : Word) (rest : List Word) (i : Instr), HostTurn s → s.cur = none → s.program = w :: rest →
    decode w = .ok i → step s = exec i { s.takeTurn with program := rest }) ∧
  (∀ (s : State) (w : Nat) (i : Instr), Running s → s.faults = [] → s.cur = none → w < 2 ^ 96 →
    decode (BitVec.ofNat 96 w) = .ok i → step (s.withFetchWord 96 w) = exec i s)

/-- R108: `setPixelColor` with two, four and five arguments are SET_PIXEL_COLOR, SET_PIXEL_RGB and SET_PIXEL_RGBW;
arguments that fit their fields are taken as they are. -/
def Obligations.ArityResolvesSetPixelColor : Prop :=
  ∀ (i : InstNo) (index : Index) (color : Color) (r g b w : Byte),
    callOf i ['s', 'e', 't', 'P', 'i', 'x', 'e', 'l', 'C', 'o', 'l', 'o', 'r'] [index.toNat, color.toNat]
      = some (.setPixelColor i index color) ∧
    callOf i ['s', 'e', 't', 'P', 'i', 'x', 'e', 'l', 'C', 'o', 'l', 'o', 'r'] [index.toNat, r.toNat, g.toNat, b.toNat]
      = some (.setPixelRgb i index r g b) ∧
    callOf i ['s', 'e', 't', 'P', 'i', 'x', 'e', 'l', 'C', 'o', 'l', 'o', 'r']
        [index.toNat, r.toNat, g.toNat, b.toNat, w.toNat]
      = some (.setPixelRgbw i index r g b w)

/-! ## Colours, layout, configuration -/

/-- R115, R116: pack and unpack, for every value, and the worked example. -/
def Obligations.ColorPackAndUnpack : Prop :=
  (∀ r g b w : Byte,
    (Color.pack r g b w).toNat = w.toNat * 2 ^ 24 + r.toNat * 2 ^ 16 + g.toNat * 2 ^ 8 + b.toNat ∧
    Color.red (Color.pack r g b w) = r ∧ Color.green (Color.pack r g b w) = g ∧
    Color.blue (Color.pack r g b w) = b ∧ Color.white (Color.pack r g b w) = w) ∧
  (∀ c : Color, Color.pack (Color.red c) (Color.green c) (Color.blue c) (Color.white c) = c) ∧
  Color.pack 0x12 0x34 0x56 0x78 = 0x78123456

/-- R118: the wire order is G, R, B[, W] for every colour order, at the offsets of the table. -/
def Obligations.WireOrderIsFixed : Prop :=
  (∀ o : ColorOrder, wireChannels o = if channels o = 4 then [.g, .r, .b, .w] else [.g, .r, .b]) ∧
  (∀ (o : ColorOrder) (c : Nat), c < channels o →
    ∃ ch, (wireChannels o)[c]? = some ch ∧ ∃ k, off o ch = some k ∧ (woff o)[c]? = some k) ∧
  woff .grb = [0, 1, 2] ∧ woff .rgb = [1, 0, 2] ∧ woff .brg = [2, 1, 0] ∧ woff .bgr = [1, 2, 0] ∧
  woff .grbw = [0, 1, 2, 3] ∧ woff .rgbw = [1, 0, 2, 3]

/-- R236 with the constraints of R8 (and the ranges of R7, the alignment of R80 and R82's memories that do not overlap
beside them: the model's choice, log 20): a configuration that breaks one is refused as BadConfig at the first step, whatever the state, and nothing else changes; one that breaks none is not. -/
def Obligations.BadConfigurationsAreRefused : Prop :=
  ∀ s : State, s.refusedBy = none →
    ((¬ (0 < s.params.dutyZero ∧ s.params.dutyZero < s.params.dutyOne ∧ s.params.dutyOne < s.params.periodTicks) ∨
      ¬ s.params.dutyOne < 2 ^ dutyBits s.params.dutyWidth ∨
      ¬ 1 + lagPeriods s.params.ccrLag ≤ s.params.resetCycles ∨
      ¬ (1 ≤ s.params.resetThresholdUs ∧ s.params.resetThresholdUs < 2 ^ s.params.timeWidth) ∨
      ¬ s.params.brightnessInit ≤ 255 ∨
      ¬ 0 < s.params.timeWidth ∨ ¬ (1 ≤ s.insts.length ∧ s.insts.length ≤ 256) ∨
      (∃ c ∈ s.insts, ¬ (1 ≤ c.cfg.ledCount ∧ c.cfg.ledCount ≤ 65535) ∨
        c.cfg.streamBase % (dutyBits s.params.dutyWidth / 8) ≠ 0) ∨
      (∃ j k : Nat, ∃ c d : Inst, j < k ∧ s.insts[j]? = some c ∧ s.insts[k]? = some d ∧
        (c.cfg.binding.timingGenerator = d.cfg.binding.timingGenerator ∨
         c.cfg.binding.transferChannel = d.cfg.binding.transferChannel ∨
         c.cfg.binding.pin = d.cfg.binding.pin)) ∨
      (∃ j k : Nat, ∃ c d : Inst, ∃ addr : Nat, s.insts[j]? = some c ∧ s.insts[k]? = some d ∧
        (InPix c.cfg addr ∧ InStream s.params d.cfg addr ∨
         j < k ∧ (InPix c.cfg addr ∧ InPix d.cfg addr ∨
           InStream s.params c.cfg addr ∧ InStream s.params d.cfg addr))))
      ↔ s.configOk = false) ∧
    (s.configOk = false → step s = .next { s with refusedBy := some .badConfig }) ∧
    (s.configOk = true → step s = agentTurn s.nextAgent s.takeTurn)

/-! ## Checks, faults and refusals -/

/-- R242, R239, R240, R238: the four checks, in their order, for every word and every command: the first that fails
names the outcome, and with all passed (and, for GET_PIXEL_COLOR, a complete pixel memory) the command answers a next
state without a new fault record or refusal mark. -/
def Obligations.ChecksNameTheOutcome : Prop :=
  (∀ (w : Word) (s : State), (∀ i, decode w ≠ .ok i) →
    issueWord w s = .next { s with refusedBy := some .illegalCommand }) ∧
  ∀ (i : Instr) (s : State),
    (s.insts.length ≤ i.inst.toNat → exec i s = .next { s with refusedBy := some .badInstance }) ∧
    (∀ c, s.inst? i.inst = some c →
      (i.opcode = .beginCtl → c.init = .ready →
        exec i s = .next (s.raise { inst := i.inst, opcode := i.opcode, reason := .alreadyInitialized })) ∧
      (i.opcode ≠ .beginCtl → c.init = .uninit →
        exec i s = .next (s.raise { inst := i.inst, opcode := i.opcode, reason := .notInitialized })) ∧
      (i.opcode ∈ [.setPixelRgb, .setPixelRgbw, .setPixelColor, .fill, .fillRange, .clear, .setBrightness, .showFrame,
          .endCtl] → c.init = .ready → c.state ≠ .idle →
        exec i s = .next (s.raise { inst := i.inst, opcode := i.opcode, reason := .busy })) ∧
      ((i.opcode = .beginCtl ∧ c.init = .uninit ∨
        i.opcode ≠ .beginCtl ∧ c.init = .ready ∧
          (i.opcode ∈ [.getPixelColor, .getCount, .canShow, .isBusy, .wait] ∨ c.state = .idle)) →
        (i.opcode = .getPixelColor → c.pix.map Prod.fst = List.range (pixBytes c.cfg)) →
        ∃ t, exec i s = .next t ∧ t.faults = s.faults ∧ t.refusedBy = s.refusedBy))

/-- R233: raising a fault adds its record to the set and changes nothing else; afterwards the host takes no further
step; no step of any agent removes a record. -/
def Obligations.FaultsStopTheHostForGood : Prop :=
  (∀ (s : State) (f g : FaultRecord), g ∈ (s.raise f).faults ↔ g = f ∨ g ∈ s.faults) ∧
  (∀ (s : State) (f : FaultRecord), s.raise f = { s with faults := (s.raise f).faults }) ∧
  (∀ s : State, Running s → s.faults ≠ [] → s.nextAgent = .host → step s = .next s.takeTurn) ∧
  (∀ (s t : State) (f : FaultRecord), step s = .next t → f ∈ s.faults → f ∈ t.faults)

/-- R234: once REFUSED is set, no agent has a further step. -/
def Obligations.RefusedRunHasNoStep : Prop :=
  ∀ (s : State) (r : RefuseReason), s.refusedBy = some r → step s = .refused (.runEnded r)

/-- R33: no step of any agent changes any part of the configuration. -/
def Obligations.ConfigurationIsImmutable : Prop :=
  ∀ s t : State, step s = .next t → t.params = s.params ∧ t.cfgs = s.cfgs

/-! ## Pixel port -/

/-- R132 (with R71, R131, R142): SET_PIXEL_RGB of a ready, idle instance writes exactly the bytes of pixel `index`, each
channel at its offset, white 0; an index out of range writes nothing; everything else is unchanged. -/
def Obligations.SetPixelRgbWritesOnePixel : Prop :=
  ∀ (s : State) (i : InstNo) (c : Inst) (index : Index) (r g b : Byte),
    s.inst? i = some c → c.init = .ready → c.state = .idle →
    ∃ m, exec (.setPixelRgb i index r g b) s =
        .next { s with insts := s.insts.set i.toNat { c with pix := m }, cur := none, result := .unit } ∧
      (index.toNat < c.cfg.ledCount →
        (∀ ch k, off c.cfg.colorOrder ch = some k →
          m.read (index.toNat * channels c.cfg.colorOrder + k) = some (channelValue r g b 0 ch)) ∧
        (∀ a, ¬ (index.toNat * channels c.cfg.colorOrder ≤ a ∧
            a < index.toNat * channels c.cfg.colorOrder + channels c.cfg.colorOrder) → m.read a = c.pix.read a)) ∧
      (c.cfg.ledCount ≤ index.toNat → m = c.pix)

/-- R133 (with R71, R131, R142): SET_PIXEL_RGBW, white written on a four-channel order and discarded on a three-channel
one (where `off` of white is none). -/
def Obligations.SetPixelRgbwWritesOnePixel : Prop :=
  ∀ (s : State) (i : InstNo) (c : Inst) (index : Index) (r g b w : Byte),
    s.inst? i = some c → c.init = .ready → c.state = .idle →
    ∃ m, exec (.setPixelRgbw i index r g b w) s =
        .next { s with insts := s.insts.set i.toNat { c with pix := m }, cur := none, result := .unit } ∧
      (index.toNat < c.cfg.ledCount →
        (∀ ch k, off c.cfg.colorOrder ch = some k →
          m.read (index.toNat * channels c.cfg.colorOrder + k) = some (channelValue r g b w ch)) ∧
        (∀ a, ¬ (index.toNat * channels c.cfg.colorOrder ≤ a ∧
            a < index.toNat * channels c.cfg.colorOrder + channels c.cfg.colorOrder) → m.read a = c.pix.read a)) ∧
      (c.cfg.ledCount ≤ index.toNat → m = c.pix)

/-- R134 (with R71, R116, R131, R142): SET_PIXEL_COLOR, its channels the fields of the Color. -/
def Obligations.SetPixelColorWritesOnePixel : Prop :=
  ∀ (s : State) (i : InstNo) (c : Inst) (index : Index) (color : Color),
    s.inst? i = some c → c.init = .ready → c.state = .idle →
    ∃ m, exec (.setPixelColor i index color) s =
        .next { s with insts := s.insts.set i.toNat { c with pix := m }, cur := none, result := .unit } ∧
      (index.toNat < c.cfg.ledCount →
        (∀ ch k, off c.cfg.colorOrder ch = some k →
          m.read (index.toNat * channels c.cfg.colorOrder + k) =
            some (channelValue (color.extractLsb' 16 8) (color.extractLsb' 8 8) (color.extractLsb' 0 8)
              (color.extractLsb' 24 8) ch)) ∧
        (∀ a, ¬ (index.toNat * channels c.cfg.colorOrder ≤ a ∧
            a < index.toNat * channels c.cfg.colorOrder + channels c.cfg.colorOrder) → m.read a = c.pix.read a)) ∧
      (c.cfg.ledCount ≤ index.toNat → m = c.pix)

/-- R135 (with R71, R104, R142): GET_PIXEL_COLOR of a ready instance returns the Color of the bytes at the pixel's
offsets, white 0 on a three-channel order, whatever the brightness; the zero Color out of range; only RESULT changes. -/
def Obligations.GetPixelColorReadsThePixel : Prop :=
  ∀ (s : State) (i : InstNo) (c : Inst) (index : Index), s.inst? i = some c → c.init = .ready →
    (c.cfg.ledCount ≤ index.toNat →
      exec (.getPixelColor i index) s = .next { s with cur := none, result := .color 0 }) ∧
    (∀ r g b w : Byte, index.toNat < c.cfg.ledCount →
      (∀ ch k, off c.cfg.colorOrder ch = some k →
        c.pix.read (index.toNat * channels c.cfg.colorOrder + k) = some (channelValue r g b w ch)) →
      (channels c.cfg.colorOrder = 3 → w = 0) →
      exec (.getPixelColor i index) s = .next { s with cur := none, result := .color (w ++ r ++ g ++ b) })

/-- R136 (with R71): FILL writes the colour into every pixel and nothing else. -/
def Obligations.FillWritesEveryPixel : Prop :=
  ∀ (s : State) (i : InstNo) (c : Inst) (color : Color), s.inst? i = some c → c.init = .ready → c.state = .idle →
    ∃ m, exec (.fill i color) s =
        .next { s with insts := s.insts.set i.toNat { c with pix := m }, cur := none, result := .unit } ∧
      (∀ p ch k, p < c.cfg.ledCount → off c.cfg.colorOrder ch = some k →
        m.read (p * channels c.cfg.colorOrder + k) =
          some (channelValue (Color.red color) (Color.green color) (Color.blue color) (Color.white color) ch)) ∧
      (∀ a, pixBytes c.cfg ≤ a → m.read a = c.pix.read a)

/-- R137 (with R71): FILL_RANGE writes pixels `start .. min(start + count, N) - 1`, the sum unbounded, and leaves every
byte of every other pixel as it was. -/
def Obligations.FillRangeWritesTheClippedRange : Prop :=
  ∀ (s : State) (i : InstNo) (c : Inst) (start count : Index) (color : Color),
    s.inst? i = some c → c.init = .ready → c.state = .idle →
    ∃ m, exec (.fillRange i start count color) s =
        .next { s with insts := s.insts.set i.toNat { c with pix := m }, cur := none, result := .unit } ∧
      (∀ p ch k, start.toNat ≤ p → p < min (start.toNat + count.toNat) c.cfg.ledCount →
        off c.cfg.colorOrder ch = some k →
        m.read (p * channels c.cfg.colorOrder + k) =
          some (channelValue (Color.red color) (Color.green color) (Color.blue color) (Color.white color) ch)) ∧
      (∀ a, ¬ (start.toNat ≤ a / channels c.cfg.colorOrder ∧
          a / channels c.cfg.colorOrder < min (start.toNat + count.toNat) c.cfg.ledCount) → m.read a = c.pix.read a)

/-- R138: CLEAR makes every byte 0 and leaves the brightness and everything else. -/
def Obligations.ClearZeroesEveryByte : Prop :=
  ∀ (s : State) (i : InstNo) (c : Inst), s.inst? i = some c → c.init = .ready → c.state = .idle →
    ∃ m, exec (.clear i) s =
        .next { s with insts := s.insts.set i.toNat { c with pix := m }, cur := none, result := .unit } ∧
      (∀ a, a < pixBytes c.cfg → m.read a = some 0) ∧ (∀ a, pixBytes c.cfg ≤ a → m.read a = c.pix.read a)

/-- R143: SET_BRIGHTNESS writes BRIGHT and nothing else. -/
def Obligations.SetBrightnessWritesBrightOnly : Prop :=
  ∀ (s : State) (i : InstNo) (c : Inst) (b : Byte), s.inst? i = some c → c.init = .ready → c.state = .idle →
    exec (.setBrightness i b) s =
      .next { s with insts := s.insts.set i.toNat { c with bright := b }, cur := none, result := .unit }

/-- R139: GET_COUNT returns N, which 16 bits hold in an admitted configuration, and only RESULT changes; it faults with
NotInitialized when the instance is not READY; and no step of any agent changes N. -/
def Obligations.GetCountReturnsN : Prop :=
  ∀ (s : State) (i : InstNo) (c : Inst), s.inst? i = some c →
    (c.init = .ready → s.configOk = true →
      ∃ n : BitVec 16, n.toNat = c.cfg.ledCount ∧
        exec (.getCount i) s = .next { s with cur := none, result := .number n }) ∧
    (c.init = .uninit →
      exec (.getCount i) s = .next (s.raise { inst := i, opcode := .getCount, reason := .notInitialized })) ∧
    (∀ t, step s = .next t → ∃ d, t.inst? i = some d ∧ d.cfg.ledCount = c.cfg.ledCount)

/-- R140: what was written is read back exactly, for every colour order: the RGB form with white 0; the Color form
whole on four channels and without white on three. -/
def Obligations.PixelRoundTrip : Prop :=
  ∀ (s : State) (i : InstNo) (c : Inst) (index : Index), s.inst? i = some c → c.init = .ready → c.state = .idle →
    index.toNat < c.cfg.ledCount →
    (∀ r g b : Byte, ∃ t, exec (.setPixelRgb i index r g b) s = .next t ∧
      exec (.getPixelColor i index) t = .next { t with cur := none, result := .color (Color.pack r g b 0) }) ∧
    (∀ color : Color, ∃ t, exec (.setPixelColor i index color) s = .next t ∧
      exec (.getPixelColor i index) t = .next { t with
        cur := none
        result := .color (if channels c.cfg.colorOrder = 4 then color else color &&& 0x00FFFFFF) })

/-- R109, but for its WAIT (see WaitHoldsWhileTransmitting): `fill(c)` is `fillRange(0, N, c)`, `clear()` is `fill(0)`,
the RGB forms are the Color form of the packed colour, in every state in which the commands' checks pass. -/
def Obligations.PseudoCommandsAreEquivalent : Prop :=
  ∀ (s : State) (i : InstNo) (c : Inst), s.inst? i = some c → c.init = .ready → c.state = .idle →
    (∀ color : Color, c.cfg.ledCount ≤ 65535 →
      exec (.fill i color) s = exec (.fillRange i 0 (BitVec.ofNat 16 c.cfg.ledCount) color) s) ∧
    (c.pix.wf = true → exec (.clear i) s = exec (.fill i 0) s) ∧
    (∀ (index : Index) (r g b w : Byte),
      exec (.setPixelRgbw i index r g b w) s = exec (.setPixelColor i index (Color.pack r g b w)) s ∧
      exec (.setPixelRgb i index r g b) s = exec (.setPixelColor i index (Color.pack r g b 0)) s)

/-- R72, R144, R171: only a command that writes pixels, BEGIN and END change PIX, only SET_BRIGHTNESS and BEGIN change
BRIGHT; no period, no tick and no phase of SHOW, the encoder among them, changes either. -/
def Obligations.OnlyCommandsWritePixelsAndBrightness : Prop :=
  (∀ (s t : State) (j : InstNo) (c d : Inst), step s = .next t → s.inst? j = some c → t.inst? j = some d →
    (s.nextAgent ≠ .host ∨ s.cur ≠ none) → d.pix = c.pix ∧ d.bright = c.bright) ∧
  (∀ (i : Instr) (s t : State) (j : InstNo) (c d : Inst), exec i s = .next t → s.inst? j = some c →
    t.inst? j = some d →
    (i.opcode ∉ [.beginCtl, .endCtl, .setPixelRgb, .setPixelRgbw, .setPixelColor, .fill, .fillRange, .clear] →
      d.pix = c.pix) ∧
    (i.opcode ∉ [.beginCtl, .setBrightness] → d.bright = c.bright))

/-! ## Encoder -/

/-- R161: the scale is the floor of the product over 255 for every brightness, 255 included; it never exceeds the
channel value. -/
def Obligations.ScaleIsTheFloorOfTheProduct : Prop :=
  ∀ v br : Byte, (scale v br).toNat = v.toNat * br.toNat / 255 ∧ (scale v br).toNat ≤ v.toNat ∧
    (br = 255 → scale v br = v)

/-- R170: the closed form of a stream: the data entry of pixel `p`, wire channel `c`, bit `7 - k`, and the tail. -/
def Obligations.StreamClosedForm : Prop :=
  ∀ (p : Params) (cfg : InstCfg) (pix : Memory) (br : Byte) (entries : List Nat),
    encodeStream p cfg pix br = some entries →
    entries.length = streamLen p cfg ∧
    (∀ q c k off, q < cfg.ledCount → k < 8 → (woff cfg.colorOrder)[c]? = some off →
      ∃ v, pix.read (q * channels cfg.colorOrder + off) = some v ∧
        entries[q * bitsPerPixel cfg.colorOrder + c * 8 + k]? =
          some (if (scale v br).getLsbD (7 - k) then p.dutyOne else p.dutyZero)) ∧
    (∀ j, dataEntries cfg ≤ j → j < streamLen p cfg → entries[j]? = some 0)

/-- R119: every data index is the entry of exactly one pixel, wire channel and bit, with `b` counted from the most
significant; the tail is the rest. -/
def Obligations.StreamLayoutCoversEachIndexOnce : Prop :=
  ∀ cfg : InstCfg,
    (∀ q c b, q < cfg.ledCount → c < channels cfg.colorOrder → b < 8 →
      q * bitsPerPixel cfg.colorOrder + c * 8 + (7 - b) < dataEntries cfg) ∧
    (∀ j, j < dataEntries cfg →
      ∃ q c b, (q < cfg.ledCount ∧ c < channels cfg.colorOrder ∧ b < 8 ∧
          j = q * bitsPerPixel cfg.colorOrder + c * 8 + (7 - b)) ∧
        ∀ q' c' b', q' < cfg.ledCount → c' < channels cfg.colorOrder → b' < 8 →
          j = q' * bitsPerPixel cfg.colorOrder + c' * 8 + (7 - b') → q' = q ∧ c' = c ∧ b' = b)

/-- R168 and R169: at brightness 255 the stream is that of the stored bytes unscaled; instances whose pixels read as the
same colours give the same stream, whatever their colour orders. -/
def Obligations.StreamIgnoresColourOrder : Prop :=
  (∀ (p : Params) (cfg : InstCfg) (pix : Memory),
    encodeStream p cfg pix 255 = (pix.readAll (wireAddresses cfg)).map fun bytes =>
      bytes.flatMap (byteEntries p) ++ List.replicate p.resetCycles 0) ∧
  (∀ (p : Params) (cfg cfg' : InstCfg) (pix pix' : Memory) (br : Byte), cfg'.ledCount = cfg.ledCount →
    channels cfg'.colorOrder = channels cfg.colorOrder →
    (∀ q, q < cfg.ledCount → readPixel cfg'.colorOrder q pix' = readPixel cfg.colorOrder q pix) →
    encodeStream p cfg' pix' br = encodeStream p cfg pix br)

/-! ## Controller -/

/-- R181, R182: BEGIN on a ready instance faults with AlreadyInitialized; on an uninitialised one, whatever the allocation's outcome `ok` (the environment's choice
where the state holds one), false changes nothing of any instance and returns false; true gives every element the "after
begin" value of R56, with any pixel bytes and any stream entries. -/
def Obligations.BeginAllocatesAndInitialises : Prop :=
  ∀ (s : State) (i : InstNo) (c : Inst), s.inst? i = some c → s.params.brightnessInit ≤ 255 →
    (c.init = .ready →
      exec (.beginCtl i) s = .next (s.raise { inst := i, opcode := .beginCtl, reason := .alreadyInitialized })) ∧
    (c.init = .uninit → ∃ (ok : Bool) (m : Memory) (entries : List Nat) (br : Byte),
      (∀ ok' rest, s.allocs = ok' :: rest → ok = ok') ∧
      m.map Prod.fst = List.range (pixBytes c.cfg) ∧ entries.length = streamLen s.params c.cfg ∧
      (∀ d ∈ entries, d < 2 ^ dutyBits s.params.dutyWidth) ∧ br.toNat = s.params.brightnessInit ∧
      exec (.beginCtl i) s = .next { s with
        insts := if ok then s.insts.set i.toNat
            { cfg := c.cfg, init := .ready, state := .idle, bright := br, tLast := none, pix := m, stream := entries,
              tgRun := false, tgDreq := false, ccr := 0, act := 0, pinMode := .low, xfEn := false, xfIdx := 0,
              xfCnt := 0, xfTc := false, wire := c.wire }
          else s.insts
        cur := none
        result := .bool ok
        allocs := s.allocs.tail
        draws := s.draws + 1 })

/-- R184: END releases both memories and leaves the instance UNINIT, everything else as it was; afterwards every command
but BEGIN faults with NotInitialized. -/
def Obligations.EndReleasesTheMemories : Prop :=
  ∀ (s : State) (i : InstNo) (c : Inst), s.inst? i = some c → c.init = .ready → c.state = .idle →
    exec (.endCtl i) s = .next { s with
      insts := s.insts.set i.toNat { c with init := .uninit, pix := [], stream := [] }, cur := none, result := .unit } ∧
    (∀ (t : State) (j : Instr), exec (.endCtl i) s = .next t → j.inst = i → j.opcode ≠ .beginCtl →
      exec j t = .next (t.raise { inst := i, opcode := j.opcode, reason := .notInitialized }))

/-- R189, R186: CAN_SHOW returns true exactly when no timestamp is held or the elapsed time, in TIME_WIDTH-bit
arithmetic, has reached the threshold; only RESULT changes. -/
def Obligations.CanShowMeasuresTheQuietPeriod : Prop :=
  ∀ (s : State) (i : InstNo) (c : Inst), s.inst? i = some c → c.init = .ready →
    ∃ b : Bool, exec (.canShow i) s = .next { s with cur := none, result := .bool b } ∧
      (c.tLast = none → b = true) ∧
      (∀ t, c.tLast = some t → t < 2 ^ s.params.timeWidth →
        (b = true ↔ s.params.resetThresholdUs ≤
          (s.clock % 2 ^ s.params.timeWidth + (2 ^ s.params.timeWidth - t)) % 2 ^ s.params.timeWidth))

/-- R200: IS_BUSY returns whether STATE is Transmitting; false in every state the invariant allows it to be issued in;
only RESULT changes. -/
def Obligations.IsBusyReportsTransmitting : Prop :=
  ∀ (s : State) (i : InstNo) (c : Inst), s.inst? i = some c → c.init = .ready →
    exec (.isBusy i) s = .next { s with cur := none, result := .bool (decide (c.state = .transmitting)) } ∧
    (Inv s → s.cur = none → exec (.isBusy i) s = .next { s with cur := none, result := .bool false })

/-- R201, and WAIT's part of R109: WAIT returns unit in its issuing step when STATE is not Transmitting; otherwise it
holds, and each later turn of the host looks again, as spinning on IS_BUSY does. Under the invariant it returns at
once. -/
def Obligations.WaitHoldsWhileTransmitting : Prop :=
  ∀ (s : State) (i : InstNo) (c : Inst), s.inst? i = some c →
    (c.init = .ready → c.state ≠ .transmitting →
      exec (.wait i) s = .next { s with cur := none, result := .unit }) ∧
    (c.init = .ready → c.state = .transmitting →
      exec (.wait i) s = .next { s with cur := some { inst := i, opcode := .wait, phase := none } }) ∧
    (HostTurn s → s.cur = some { inst := i, opcode := .wait, phase := none } →
      step s = .next (if c.state = .transmitting then s.takeTurn
        else { s.takeTurn with cur := none, result := .unit })) ∧
    (Inv s → s.cur = none → c.init = .ready → exec (.wait i) s = .next { s with cur := none, result := .unit })

/-! ## SHOW -/

/-- R193: SHOW's issuing step sets CUR to phase WAIT_RESET and nothing else. -/
def Obligations.ShowStartsAtWaitReset : Prop :=
  ∀ (s : State) (i : InstNo) (c : Inst), s.inst? i = some c → c.init = .ready → c.state = .idle →
    exec (.showFrame i) s =
      .next { s with cur := some { inst := i, opcode := .showFrame, phase := some .waitReset } }

/-- R194: WAIT_RESET holds until canShowFn, then STATE is Encoding and the phase ENCODE. -/
def Obligations.WaitResetHoldsUntilCanShow : Prop :=
  ∀ (s : State) (i : InstNo) (c : Inst), HostTurn s → s.inst? i = some c →
    s.cur = some { inst := i, opcode := .showFrame, phase := some .waitReset } →
    (s.canShowFn c = false → step s = .next s.takeTurn) ∧
    (s.canShowFn c = true → step s = .next { s.takeTurn with
      insts := s.insts.set i.toNat { c with state := .encoding }
      cur := some { inst := i, opcode := .showFrame, phase := some .encode } })

/-- R195: ENCODE stores the encode of PIX and BRIGHT in STREAM in one step; the phase is ARM, STATE stays. -/
def Obligations.EncodeStoresTheStream : Prop :=
  ∀ (s : State) (i : InstNo) (c : Inst), HostTurn s → s.inst? i = some c →
    s.cur = some { inst := i, opcode := .showFrame, phase := some .encode } →
    c.pix.map Prod.fst = List.range (pixBytes c.cfg) →
    ∃ entries, encodeStream s.params c.cfg c.pix c.bright = some entries ∧
      step s = .next { s.takeTurn with
        insts := s.insts.set i.toNat { c with stream := entries }
        cur := some { inst := i, opcode := .showFrame, phase := some .arm } }

/-- R196: what ARM writes, and that it writes nothing else. -/
def Obligations.ArmStartsTheTransfer : Prop :=
  ∀ (s : State) (i : InstNo) (c : Inst), HostTurn s → s.inst? i = some c →
    s.cur = some { inst := i, opcode := .showFrame, phase := some .arm } →
    step s = .next { s.takeTurn with
      insts := s.insts.set i.toNat { c with
        ccr := 0, act := 0, xfIdx := 0, xfCnt := streamLen s.params c.cfg, xfTc := false, xfEn := true, tgDreq := true,
        pinMode := .timer, tgRun := true, state := .transmitting }
      cur := some { inst := i, opcode := .showFrame, phase := some .waitDone } }

/-- R197: WAIT_DONE holds until XF_TC, then disarms, forces the pin low, takes the timestamp, enters Idle and returns
unit; from a state of the invariant only the period that transfers entry L - 1 raises XF_TC. -/
def Obligations.WaitDoneDisarmsAndReturns : Prop :=
  (∀ (s : State) (i : InstNo) (c : Inst), HostTurn s → s.inst? i = some c →
    s.cur = some { inst := i, opcode := .showFrame, phase := some .waitDone } →
    (c.xfTc = false → step s = .next s.takeTurn) ∧
    (c.xfTc = true → step s = .next { s.takeTurn with
      insts := s.insts.set i.toNat { c with
        xfEn := false, tgDreq := false, tgRun := false, pinMode := .low,
        tLast := some (s.clock % 2 ^ s.params.timeWidth), state := .idle }
      cur := none
      result := .unit })) ∧
  (∀ (s t : State) (i : InstNo) (c d : Inst), Inv s → step s = .next t → s.inst? i = some c → t.inst? i = some d →
    c.xfTc = false → d.xfTc = true →
    s.nextAgent = .timingGenerator i ∧ c.tgRun = true ∧ c.tgDreq = true ∧ c.xfEn = true ∧
      c.xfIdx = streamLen s.params c.cfg - 1 ∧ c.stream[c.xfIdx]? = some d.ccr ∧
      d.xfIdx = streamLen s.params c.cfg)

/-- R190: after a SHOW canShow is false at once, and whenever it is true later at least RESET_THRESHOLD_US microseconds
of CLOCK have passed since the timestamp was taken. -/
def Obligations.QuietPeriodIsKept : Prop :=
  (∀ (s t : State) (i : InstNo) (c d : Inst), HostTurn s → s.inst? i = some c →
    s.cur = some { inst := i, opcode := .showFrame, phase := some .waitDone } → c.xfTc = true →
    step s = .next t → t.inst? i = some d → t.canShowFn d = false) ∧
  (∀ (s : State) (c : Inst) (taken : Nat), taken ≤ s.clock → c.tLast = some (taken % 2 ^ s.params.timeWidth) →
    s.canShowFn c = true → taken + s.params.resetThresholdUs ≤ s.clock)

/-! ## Timing generator, transfer engine, time source -/

/-- R205 (with R54): one period of a running generator, in a state in which a requested transfer has an entry to move:
the transfer, the completion flag at the last entry, and the record, of the entry just moved when CCR_LAG is 0 and of
the value in effect before when it is 1. -/
def Obligations.PeriodTransfersAndEmits : Prop :=
  ∀ (s : State) (i : InstNo) (c : Inst), Running s → s.nextAgent = .timingGenerator i → s.inst? i = some c →
    (c.tgRun = false → step s = .next s.takeTurn) ∧
    (∀ d, c.tgRun = true → c.tgDreq = true → c.xfEn = true → c.stream[c.xfIdx]? = some d → 0 < c.xfCnt →
      step s = .next { s.takeTurn with insts := s.insts.set i.toNat { c with
        ccr := d, act := d, xfIdx := c.xfIdx + 1, xfCnt := c.xfCnt - 1,
        xfTc := if c.xfCnt = 1 then true else c.xfTc, xfEn := decide (c.xfCnt ≠ 1),
        wire := if c.pinMode = .timer then
            c.wire ++ [if s.params.ccrLag = .lag0 then d else c.act] else c.wire } }) ∧
    (c.tgRun = true → (c.tgDreq = false ∨ c.xfEn = false) →
      step s = .next { s.takeTurn with insts := s.insts.set i.toNat { c with
        act := c.ccr,
        wire := if c.pinMode = .timer then
            c.wire ++ [if s.params.ccrLag = .lag0 then c.ccr else c.act] else c.wire } })

/-- The model's own stops (logs 14 and 15), in states no run reaches: GET_PIXEL_COLOR and ENCODE where the pixel memory
lacks a byte they read, a transfer with no entry at XF_IDX, and one with XF_CNT already 0. -/
def Obligations.ReadsOfWhatIsNotThereStop : Prop :=
  (∀ (s : State) (i : InstNo) (c : Inst) (index : Index) (ch : Channel) (k : Nat), s.inst? i = some c →
    c.init = .ready → index.toNat < c.cfg.ledCount → off c.cfg.colorOrder ch = some k →
    c.pix.read (index.toNat * channels c.cfg.colorOrder + k) = none →
    exec (.getPixelColor i index) s = .fault (.noPixelByte i)) ∧
  (∀ (s : State) (i : InstNo) (c : Inst) (q k : Nat) (ch : Channel), HostTurn s → s.inst? i = some c →
    s.cur = showAt i .encode → q < c.cfg.ledCount → off c.cfg.colorOrder ch = some k →
    c.pix.read (q * channels c.cfg.colorOrder + k) = none → step s = .fault (.noPixelByte i)) ∧
  (∀ (s : State) (i : InstNo) (c : Inst), Running s → s.nextAgent = .timingGenerator i → s.inst? i = some c →
    c.tgRun = true → c.tgDreq = true → c.xfEn = true →
    (c.stream.length ≤ c.xfIdx → step s = .fault (.noStreamEntry i)) ∧
    (c.xfIdx < c.stream.length → c.xfCnt = 0 → step s = .fault (.transferCountZero i)))

/-- R245, R53: TICK is always enabled and adds one microsecond; no other step changes CLOCK. -/
def Obligations.OnlyTickAdvancesTheClock : Prop :=
  (∀ s : State, Running s → s.nextAgent = .timeSource →
    step s = .next { s.takeTurn with clock := s.clock + 1 }) ∧
  (∀ s t : State, step s = .next t → t.clock = s.clock ∨ (s.nextAgent = .timeSource ∧ t.clock = s.clock + 1))

/-- R57, R141: a command, and a phase of SHOW, change the state of no instance but the one they name; a period changes
its own instance only; the time source changes none. -/
def Obligations.OtherInstancesAreUntouched : Prop :=
  (∀ (i : Instr) (s t : State) (j : InstNo), exec i s = .next t → j ≠ i.inst → t.inst? j = s.inst? j) ∧
  (∀ (s t : State) (k : Cur) (j : InstNo), step s = .next t → s.nextAgent = .host → s.cur = some k → j ≠ k.inst →
    t.inst? j = s.inst? j) ∧
  (∀ (s t : State) (i j : InstNo), step s = .next t → s.nextAgent = .timingGenerator i → j ≠ i →
    t.inst? j = s.inst? j) ∧
  (∀ s t : State, step s = .next t → s.nextAgent = .timeSource → t.insts = s.insts)

/-- R120: a period of duty `d` is `PERIOD_TICKS` ticks, the first `d` high and the rest low; a zero entry is low
throughout. -/
def Obligations.PeriodIsHighForItsDuty : Prop :=
  ∀ (p : Params) (d : Nat), d ≤ p.periodTicks →
    (periodLevels p d).length = p.periodTicks ∧
    (∀ k, k < p.periodTicks → (periodLevels p d)[k]? = some (decide (k < d))) ∧
    periodLevels p 0 = List.replicate p.periodTicks false

/-- R78: with an aligned base, byte `b` of entry `j` lies at `STREAM_BASE + j * (DUTY_WIDTH / 8) + b`, least significant
byte first. -/
def Obligations.StreamImageIsLittleEndian : Prop :=
  ∀ (p : Params) (c : Inst) (j b e : Nat), b < dutyBits p.dutyWidth / 8 → c.stream[j]? = some e →
    ∃ v : Byte, v.toNat = e / 2 ^ (8 * b) % 256 ∧
      streamImageByte p c (c.cfg.streamBase + j * (dutyBits p.dutyWidth / 8) + b) = some v

/-! ## Reset and whole-machine statements -/

/-- R260: the power-on values and sizes the spec gives, for every configuration; the values it leaves open (BRIGHT, CCR,
ACT, CLOCK, the bytes of PIX, the entries of STREAM) are not stated. -/
def Obligations.PowerOnState : Prop :=
  ∀ (p : Params) (cfgs : List InstCfg),
    (State.powerOn p cfgs).cur = none ∧ (State.powerOn p cfgs).result = .unit ∧ (State.powerOn p cfgs).faults = [] ∧
    (State.powerOn p cfgs).isRefused = false ∧ (State.powerOn p cfgs).params = p ∧
    (State.powerOn p cfgs).cfgs = cfgs ∧
    ∀ c ∈ (State.powerOn p cfgs).insts,
      c.init = .uninit ∧ c.state = .idle ∧ c.tLast = none ∧ c.tgRun = false ∧ c.tgDreq = false ∧
      c.pinMode = .unconfigured ∧ c.xfEn = false ∧ c.xfIdx = 0 ∧ c.xfCnt = 0 ∧ c.xfTc = false ∧ c.wire = [] ∧
      c.pix.map Prod.fst = List.range (pixBytes c.cfg) ∧ c.stream.length = streamLen p c.cfg

/-- The power-on state of every admitted configuration meets the invariant, and so does the reset state, which is the
power-on state of an admitted configuration the model chose (logs 2 and 3: the values it gives CCR, ACT and STREAM fit
their width). -/
def Obligations.PowerOnMeetsTheInvariant : Prop :=
  (∀ (p : Params) (cfgs : List InstCfg), configOk p cfgs = true → Inv (State.powerOn p cfgs)) ∧
  Inv State.reset ∧ ∃ p cfgs, State.reset = State.powerOn p cfgs ∧ configOk p cfgs = true

/-- Every step of every agent keeps the invariant, from every state that meets it. -/
def Obligations.EveryStepKeepsTheInvariant : Prop :=
  ∀ s t : State, Inv s → step s = .next t → Inv t

/-- Every step keeps every pixel memory in canonical form, from every state. -/
def Obligations.EveryStepKeepsMemoriesCanonical : Prop :=
  ∀ s t : State, MemoriesWf s → step s = .next t → MemoriesWf t

/-- From a state that meets the invariant no step ends in a fault of the model, and none is refused unless the run
already was: every step is a next state. -/
def Obligations.EveryStepHasANextState : Prop :=
  ∀ s : State, Inv s → s.refusedBy = none → ∃ t, step s = .next t

/-- R202: the invariant gives clauses (a) to (e) of the rule. -/
def Obligations.InvariantGivesTheResourceRules : Prop :=
  ∀ (s : State) (i : InstNo) (c : Inst), Inv s → s.inst? i = some c → c.init = .ready →
    (c.state = .idle → c.tgRun = false ∧ c.tgDreq = false ∧ c.xfEn = false ∧ c.pinMode = .low) ∧
    (c.state ≠ .idle → ∃ k, s.cur = some k ∧ k.inst = i ∧ k.opcode = .showFrame) ∧
    (c.xfEn = true → c.state = .transmitting ∧ 0 < c.xfCnt ∧ c.xfIdx + c.xfCnt = streamLen s.params c.cfg) ∧
    (c.xfTc = true → c.state = .transmitting → c.xfEn = false ∧ c.xfIdx = streamLen s.params c.cfg) ∧
    (∀ (j : InstNo) (d : Inst), s.inst? j = some d → c.state ≠ .idle → d.state ≠ .idle → j = i)

/-- R208, first part: ARM begins a SHOW's records with none; from then on, whoever's turn it is, each step adds the next
record of the sequence of R208 or none, until WAIT_DONE ends the SHOW with at least L records. -/
def Obligations.WireCarriesTheStreamInOrder : Prop :=
  (∀ (s t : State) (i : InstNo) (c : Inst), Inv s → HostTurn s → s.inst? i = some c → s.cur = showAt i .arm →
    step s = .next t → Sending t i c.wire 0) ∧
  (∀ (s t : State) (i : InstNo) (before : List Nat) (n : Nat), Inv s → Sending s i before n → step s = .next t →
    Sending t i before n ∨ Sending t i before (n + 1) ∨
    (t.cur = none ∧ ∃ c, t.inst? i = some c ∧ c.state = .idle ∧ c.pinMode = .low ∧
      streamLen s.params c.cfg ≤ n ∧ c.wire = before ++ wireRecords s.params.ccrLag c.stream n))

/-- R208, second part: what the records of a finished SHOW are: CCR_LAG zero periods, every data entry in order and
once, and then at least RESET_CYCLES - CCR_LAG zero periods. -/
def Obligations.FinishedShowRecords : Prop :=
  ∀ (p : Params) (cfg : InstCfg) (pix : Memory) (br : Byte) (entries : List Nat) (n : Nat), paramsOk p = true →
    encodeStream p cfg pix br = some entries → streamLen p cfg ≤ n →
    wireRecords p.ccrLag entries n =
      List.replicate (lagPeriods p.ccrLag) 0 ++ entries.take (dataEntries cfg) ++
        List.replicate (p.resetCycles - lagPeriods p.ccrLag + (n - streamLen p cfg)) 0

/-- R207: the record of the period that raises the completion flag is 0, so cutting it short changes nothing. -/
def Obligations.CutPeriodIsZero : Prop :=
  ∀ (s t : State) (i : InstNo) (c d : Inst), Inv s → Running s → s.inst? i = some c → step s = .next t →
    t.inst? i = some d → c.xfTc = false → d.xfTc = true → d.wire = c.wire ++ [0]

/-- R210, for the schedule that gives the generator its turns: from any state of the invariant in which a SHOW waits for
completion, exactly XF_CNT periods and one turn of the host end it. -/
def Obligations.ShowEndsAfterItsPeriods : Prop :=
  ∀ (s : State) (i : InstNo) (c : Inst) (rest : List Agent), Inv s → s.refusedBy = none → s.faults = [] →
    s.inst? i = some c → s.cur = showAt i .waitDone →
    s.sched = List.replicate c.xfCnt (.timingGenerator i) ++ .host :: rest →
    ∃ t d, Sys2Proof.core.run (c.xfCnt + 1) s = .next t ∧ t.sched = rest ∧ t.cur = none ∧ t.result = .unit ∧
      t.inst? i = some d ∧ d.state = .idle ∧ d.tgRun = false ∧ d.tgDreq = false ∧ d.xfEn = false ∧ d.xfTc = true ∧
      d.xfIdx = streamLen s.params c.cfg ∧ d.xfCnt = 0 ∧ d.pinMode = .low ∧
      d.tLast = some (s.clock % 2 ^ s.params.timeWidth) ∧ d.pix = c.pix ∧ d.bright = c.bright ∧ d.stream = c.stream

/-- R194, and R210 for the time source: from any state of the invariant in which a SHOW waits for the reset time, the
hold stands for exactly as many ticks as the threshold still lacks, at most RESET_THRESHOLD_US, and the host's turn after
them takes SHOW to ENCODE. -/
def Obligations.ResetWaitEndsAfterTheThreshold : Prop :=
  ∀ (s : State) (i : InstNo) (c : Inst) (n : Nat), Inv s → s.refusedBy = none → s.inst? i = some c →
    s.cur = showAt i .waitReset →
    n = (match c.tLast with
      | none => 0
      | some t => s.params.resetThresholdUs - s.elapsedSince t) →
    n ≤ s.params.resetThresholdUs ∧
    (∀ (k : Nat) (rest : List Agent), k < n → ∃ t,
      Sys2Proof.core.run (k + 1) { s with sched := List.replicate k .timeSource ++ .host :: rest } = .next t ∧
        t.cur = showAt i .waitReset ∧ t.sched = rest ∧ t.clock = s.clock + k) ∧
    (∀ rest : List Agent, ∃ t,
      Sys2Proof.core.run (n + 1) { s with sched := List.replicate n .timeSource ++ .host :: rest } = .next t ∧
        t.cur = showAt i .encode ∧ t.sched = rest ∧ t.clock = s.clock + n ∧
        t.inst? i = some { c with state := .encoding })

/-- R210, R211 (R241): on every run whose generators and time source are weakly fair, each of SHOW's two holds is lifted
and nothing hangs; every SHOW ends when the host is fair too (the model's choice, log 16). A transmission whose generator
is never given a turn hangs. -/
def Obligations.FairSchedulesEndEveryShow : Prop :=
  (∀ (sched : Nat → Agent) (r : Nat → State), Inv (r 0) → RunOn sched r → WeaklyFair sched r →
    (∀ n i, (r n).cur = showAt i .waitReset → ∃ m c, n ≤ m ∧ (r m).cur = showAt i .waitReset ∧
      (r m).inst? i = some c ∧ (r m).canShowFn c = true) ∧
    (∀ n i, (r n).cur = showAt i .waitDone → ∃ m c, n ≤ m ∧ (r m).cur = showAt i .waitDone ∧
      (r m).inst? i = some c ∧ c.xfTc = true ∧ c.xfIdx = streamLen (r m).params c.cfg) ∧
    ¬ Hangs r ∧
    (HostFair sched r → ∀ n i ph, (r n).cur = showAt i ph → ∃ m c, n ≤ m ∧ (r m).cur = none ∧
      (r m).inst? i = some c ∧ c.state = .idle)) ∧
  (∀ (sched : Nat → Agent) (r : Nat → State) (i : InstNo) (c : Inst), Inv (r 0) → RunOn sched r →
    (r 0).cur = showAt i .waitDone → (r 0).inst? i = some c → c.xfTc = false →
    (∀ n, sched n ≠ .timingGenerator i) → Hangs r)

/-- R277: at the end of a run every instance is Idle with its generator stopped and a ready one's pin low, and no agent
but the time source has an enabled step: its turn passes. -/
def Obligations.RunEndLeavesEveryInstanceQuiet : Prop :=
  ∀ s : State, Inv s → RunEnded s →
    (∀ (i : InstNo) (c : Inst), s.inst? i = some c →
      c.state = .idle ∧ c.tgRun = false ∧ (c.init = .ready → c.pinMode = .low)) ∧
    (s.nextAgent ≠ .timeSource → step s = .next s.takeTurn)

end
end

