-- ==== Sys2Proof/Laws/State.lean ====
section
/-! SUPPORT. What each named update leaves in each field of State and of Inst, so that no proof unfolds a record
update. -/

namespace Sys2Proof.Machine

@[simp] theorem State.setInst_params (s : State) (i : InstNo) (c : Inst) : (s.setInst i c).params = s.params := rfl
@[simp] theorem State.setInst_insts (s : State) (i : InstNo) (c : Inst) : (s.setInst i c).insts = s.insts.set i.toNat c := rfl
@[simp] theorem State.setInst_cur (s : State) (i : InstNo) (c : Inst) : (s.setInst i c).cur = s.cur := rfl
@[simp] theorem State.setInst_result (s : State) (i : InstNo) (c : Inst) : (s.setInst i c).result = s.result := rfl
@[simp] theorem State.setInst_clock (s : State) (i : InstNo) (c : Inst) : (s.setInst i c).clock = s.clock := rfl
@[simp] theorem State.setInst_faults (s : State) (i : InstNo) (c : Inst) : (s.setInst i c).faults = s.faults := rfl
@[simp] theorem State.setInst_refusedBy (s : State) (i : InstNo) (c : Inst) : (s.setInst i c).refusedBy = s.refusedBy := rfl
@[simp] theorem State.setInst_program (s : State) (i : InstNo) (c : Inst) : (s.setInst i c).program = s.program := rfl
@[simp] theorem State.setInst_sched (s : State) (i : InstNo) (c : Inst) : (s.setInst i c).sched = s.sched := rfl
@[simp] theorem State.setInst_turns (s : State) (i : InstNo) (c : Inst) : (s.setInst i c).turns = s.turns := rfl
@[simp] theorem State.setInst_allocs (s : State) (i : InstNo) (c : Inst) : (s.setInst i c).allocs = s.allocs := rfl
@[simp] theorem State.setInst_draws (s : State) (i : InstNo) (c : Inst) : (s.setInst i c).draws = s.draws := rfl

@[simp] theorem State.ret_params (s : State) (v : Result) : (s.ret v).params = s.params := rfl
@[simp] theorem State.ret_insts (s : State) (v : Result) : (s.ret v).insts = s.insts := rfl
@[simp] theorem State.ret_cur (s : State) (v : Result) : (s.ret v).cur = none := rfl
@[simp] theorem State.ret_result (s : State) (v : Result) : (s.ret v).result = v := rfl
@[simp] theorem State.ret_clock (s : State) (v : Result) : (s.ret v).clock = s.clock := rfl
@[simp] theorem State.ret_faults (s : State) (v : Result) : (s.ret v).faults = s.faults := rfl
@[simp] theorem State.ret_refusedBy (s : State) (v : Result) : (s.ret v).refusedBy = s.refusedBy := rfl
@[simp] theorem State.ret_program (s : State) (v : Result) : (s.ret v).program = s.program := rfl
@[simp] theorem State.ret_sched (s : State) (v : Result) : (s.ret v).sched = s.sched := rfl
@[simp] theorem State.ret_turns (s : State) (v : Result) : (s.ret v).turns = s.turns := rfl
@[simp] theorem State.ret_allocs (s : State) (v : Result) : (s.ret v).allocs = s.allocs := rfl
@[simp] theorem State.ret_draws (s : State) (v : Result) : (s.ret v).draws = s.draws := rfl

@[simp] theorem State.raise_params (s : State) (f : FaultRecord) : (s.raise f).params = s.params := rfl
@[simp] theorem State.raise_insts (s : State) (f : FaultRecord) : (s.raise f).insts = s.insts := rfl
@[simp] theorem State.raise_cur (s : State) (f : FaultRecord) : (s.raise f).cur = s.cur := rfl
@[simp] theorem State.raise_result (s : State) (f : FaultRecord) : (s.raise f).result = s.result := rfl
@[simp] theorem State.raise_clock (s : State) (f : FaultRecord) : (s.raise f).clock = s.clock := rfl
@[simp] theorem State.raise_faults (s : State) (f : FaultRecord) : (s.raise f).faults = if f ∈ s.faults then s.faults else s.faults ++ [f] := rfl
@[simp] theorem State.raise_refusedBy (s : State) (f : FaultRecord) : (s.raise f).refusedBy = s.refusedBy := rfl
@[simp] theorem State.raise_program (s : State) (f : FaultRecord) : (s.raise f).program = s.program := rfl
@[simp] theorem State.raise_sched (s : State) (f : FaultRecord) : (s.raise f).sched = s.sched := rfl
@[simp] theorem State.raise_turns (s : State) (f : FaultRecord) : (s.raise f).turns = s.turns := rfl
@[simp] theorem State.raise_allocs (s : State) (f : FaultRecord) : (s.raise f).allocs = s.allocs := rfl
@[simp] theorem State.raise_draws (s : State) (f : FaultRecord) : (s.raise f).draws = s.draws := rfl

@[simp] theorem State.refuse_params (s : State) (r : RefuseReason) : (s.refuse r).params = s.params := rfl
@[simp] theorem State.refuse_insts (s : State) (r : RefuseReason) : (s.refuse r).insts = s.insts := rfl
@[simp] theorem State.refuse_cur (s : State) (r : RefuseReason) : (s.refuse r).cur = s.cur := rfl
@[simp] theorem State.refuse_result (s : State) (r : RefuseReason) : (s.refuse r).result = s.result := rfl
@[simp] theorem State.refuse_clock (s : State) (r : RefuseReason) : (s.refuse r).clock = s.clock := rfl
@[simp] theorem State.refuse_faults (s : State) (r : RefuseReason) : (s.refuse r).faults = s.faults := rfl
@[simp] theorem State.refuse_refusedBy (s : State) (r : RefuseReason) : (s.refuse r).refusedBy = some r := rfl
@[simp] theorem State.refuse_program (s : State) (r : RefuseReason) : (s.refuse r).program = s.program := rfl
@[simp] theorem State.refuse_sched (s : State) (r : RefuseReason) : (s.refuse r).sched = s.sched := rfl
@[simp] theorem State.refuse_turns (s : State) (r : RefuseReason) : (s.refuse r).turns = s.turns := rfl
@[simp] theorem State.refuse_allocs (s : State) (r : RefuseReason) : (s.refuse r).allocs = s.allocs := rfl
@[simp] theorem State.refuse_draws (s : State) (r : RefuseReason) : (s.refuse r).draws = s.draws := rfl

@[simp] theorem State.afterDraw_params (s : State) : (s.afterDraw).params = s.params := rfl
@[simp] theorem State.afterDraw_insts (s : State) : (s.afterDraw).insts = s.insts := rfl
@[simp] theorem State.afterDraw_cur (s : State) : (s.afterDraw).cur = s.cur := rfl
@[simp] theorem State.afterDraw_result (s : State) : (s.afterDraw).result = s.result := rfl
@[simp] theorem State.afterDraw_clock (s : State) : (s.afterDraw).clock = s.clock := rfl
@[simp] theorem State.afterDraw_faults (s : State) : (s.afterDraw).faults = s.faults := rfl
@[simp] theorem State.afterDraw_refusedBy (s : State) : (s.afterDraw).refusedBy = s.refusedBy := rfl
@[simp] theorem State.afterDraw_program (s : State) : (s.afterDraw).program = s.program := rfl
@[simp] theorem State.afterDraw_sched (s : State) : (s.afterDraw).sched = s.sched := rfl
@[simp] theorem State.afterDraw_turns (s : State) : (s.afterDraw).turns = s.turns := rfl
@[simp] theorem State.afterDraw_allocs (s : State) : (s.afterDraw).allocs = s.allocs.tail := rfl
@[simp] theorem State.afterDraw_draws (s : State) : (s.afterDraw).draws = s.draws + 1 := rfl

@[simp] theorem State.takeTurn_params (s : State) : s.takeTurn.params = s.params := by
  unfold State.takeTurn; split <;> rfl
@[simp] theorem State.takeTurn_insts (s : State) : s.takeTurn.insts = s.insts := by
  unfold State.takeTurn; split <;> rfl
@[simp] theorem State.takeTurn_cur (s : State) : s.takeTurn.cur = s.cur := by
  unfold State.takeTurn; split <;> rfl
@[simp] theorem State.takeTurn_result (s : State) : s.takeTurn.result = s.result := by
  unfold State.takeTurn; split <;> rfl
@[simp] theorem State.takeTurn_clock (s : State) : s.takeTurn.clock = s.clock := by
  unfold State.takeTurn; split <;> rfl
@[simp] theorem State.takeTurn_faults (s : State) : s.takeTurn.faults = s.faults := by
  unfold State.takeTurn; split <;> rfl
@[simp] theorem State.takeTurn_refusedBy (s : State) : s.takeTurn.refusedBy = s.refusedBy := by
  unfold State.takeTurn; split <;> rfl
@[simp] theorem State.takeTurn_program (s : State) : s.takeTurn.program = s.program := by
  unfold State.takeTurn; split <;> rfl
@[simp] theorem State.takeTurn_allocs (s : State) : s.takeTurn.allocs = s.allocs := by
  unfold State.takeTurn; split <;> rfl
@[simp] theorem State.takeTurn_draws (s : State) : s.takeTurn.draws = s.draws := by
  unfold State.takeTurn; split <;> rfl

@[simp] theorem placeWord_params (w : Word) (s : State) : (placeWord w s).params = s.params := rfl
@[simp] theorem placeWord_insts (w : Word) (s : State) : (placeWord w s).insts = s.insts := rfl
@[simp] theorem placeWord_cur (w : Word) (s : State) : (placeWord w s).cur = s.cur := rfl
@[simp] theorem placeWord_result (w : Word) (s : State) : (placeWord w s).result = s.result := rfl
@[simp] theorem placeWord_clock (w : Word) (s : State) : (placeWord w s).clock = s.clock := rfl
@[simp] theorem placeWord_faults (w : Word) (s : State) : (placeWord w s).faults = s.faults := rfl
@[simp] theorem placeWord_refusedBy (w : Word) (s : State) : (placeWord w s).refusedBy = s.refusedBy := rfl
@[simp] theorem placeWord_program (w : Word) (s : State) : (placeWord w s).program = w :: s.program := rfl
@[simp] theorem placeWord_sched (w : Word) (s : State) : (placeWord w s).sched = .host :: s.sched := rfl
@[simp] theorem placeWord_turns (w : Word) (s : State) : (placeWord w s).turns = s.turns := rfl
@[simp] theorem placeWord_allocs (w : Word) (s : State) : (placeWord w s).allocs = s.allocs := rfl
@[simp] theorem placeWord_draws (w : Word) (s : State) : (placeWord w s).draws = s.draws := rfl

@[simp] theorem giveTurn_params (a : Agent) (s : State) : (giveTurn a s).params = s.params := rfl
@[simp] theorem giveTurn_insts (a : Agent) (s : State) : (giveTurn a s).insts = s.insts := rfl
@[simp] theorem giveTurn_cur (a : Agent) (s : State) : (giveTurn a s).cur = s.cur := rfl
@[simp] theorem giveTurn_result (a : Agent) (s : State) : (giveTurn a s).result = s.result := rfl
@[simp] theorem giveTurn_clock (a : Agent) (s : State) : (giveTurn a s).clock = s.clock := rfl
@[simp] theorem giveTurn_faults (a : Agent) (s : State) : (giveTurn a s).faults = s.faults := rfl
@[simp] theorem giveTurn_refusedBy (a : Agent) (s : State) : (giveTurn a s).refusedBy = s.refusedBy := rfl
@[simp] theorem giveTurn_program (a : Agent) (s : State) : (giveTurn a s).program = s.program := rfl
@[simp] theorem giveTurn_turns (a : Agent) (s : State) : (giveTurn a s).turns = s.turns := rfl
@[simp] theorem giveTurn_allocs (a : Agent) (s : State) : (giveTurn a s).allocs = s.allocs := rfl
@[simp] theorem giveTurn_draws (a : Agent) (s : State) : (giveTurn a s).draws = s.draws := rfl
@[simp] theorem giveTurn_sched (a : Agent) (s : State) : (giveTurn a s).sched = [a] := rfl
@[simp] theorem giveTurn_nextAgent (a : Agent) (s : State) : (giveTurn a s).nextAgent = a := rfl
@[simp] theorem giveTurn_inst? (a : Agent) (s : State) (i : InstNo) : (giveTurn a s).inst? i = s.inst? i := rfl
@[simp] theorem giveTurn_takeTurn (a : Agent) (s : State) : (giveTurn a s).takeTurn = { s with sched := [] } := rfl

@[simp] theorem Inst.powerOn_cfg (p : Params) (cfg : InstCfg) : (Inst.powerOn p cfg).cfg = cfg := rfl
@[simp] theorem Inst.powerOn_init (p : Params) (cfg : InstCfg) : (Inst.powerOn p cfg).init = .uninit := rfl
@[simp] theorem Inst.powerOn_state (p : Params) (cfg : InstCfg) : (Inst.powerOn p cfg).state = .idle := rfl
@[simp] theorem Inst.powerOn_bright (p : Params) (cfg : InstCfg) : (Inst.powerOn p cfg).bright = 0 := rfl
@[simp] theorem Inst.powerOn_tLast (p : Params) (cfg : InstCfg) : (Inst.powerOn p cfg).tLast = none := rfl
@[simp] theorem Inst.powerOn_pix (p : Params) (cfg : InstCfg) : (Inst.powerOn p cfg).pix = powerOnPixels cfg := rfl
@[simp] theorem Inst.powerOn_stream (p : Params) (cfg : InstCfg) : (Inst.powerOn p cfg).stream = powerOnStream p cfg := rfl
@[simp] theorem Inst.powerOn_tgRun (p : Params) (cfg : InstCfg) : (Inst.powerOn p cfg).tgRun = false := rfl
@[simp] theorem Inst.powerOn_tgDreq (p : Params) (cfg : InstCfg) : (Inst.powerOn p cfg).tgDreq = false := rfl
@[simp] theorem Inst.powerOn_ccr (p : Params) (cfg : InstCfg) : (Inst.powerOn p cfg).ccr = 0 := rfl
@[simp] theorem Inst.powerOn_act (p : Params) (cfg : InstCfg) : (Inst.powerOn p cfg).act = 0 := rfl
@[simp] theorem Inst.powerOn_pinMode (p : Params) (cfg : InstCfg) : (Inst.powerOn p cfg).pinMode = .unconfigured := rfl
@[simp] theorem Inst.powerOn_xfEn (p : Params) (cfg : InstCfg) : (Inst.powerOn p cfg).xfEn = false := rfl
@[simp] theorem Inst.powerOn_xfIdx (p : Params) (cfg : InstCfg) : (Inst.powerOn p cfg).xfIdx = 0 := rfl
@[simp] theorem Inst.powerOn_xfCnt (p : Params) (cfg : InstCfg) : (Inst.powerOn p cfg).xfCnt = 0 := rfl
@[simp] theorem Inst.powerOn_xfTc (p : Params) (cfg : InstCfg) : (Inst.powerOn p cfg).xfTc = false := rfl
@[simp] theorem Inst.powerOn_wire (p : Params) (cfg : InstCfg) : (Inst.powerOn p cfg).wire = [] := rfl

@[simp] theorem State.powerOn_params (p : Params) (cfgs : List InstCfg) : (State.powerOn p cfgs).params = p := rfl
@[simp] theorem State.powerOn_cur (p : Params) (cfgs : List InstCfg) : (State.powerOn p cfgs).cur = none := rfl
@[simp] theorem State.powerOn_result (p : Params) (cfgs : List InstCfg) : (State.powerOn p cfgs).result = .unit := rfl
@[simp] theorem State.powerOn_clock (p : Params) (cfgs : List InstCfg) : (State.powerOn p cfgs).clock = 0 := rfl
@[simp] theorem State.powerOn_faults (p : Params) (cfgs : List InstCfg) : (State.powerOn p cfgs).faults = [] := rfl
@[simp] theorem State.powerOn_refusedBy (p : Params) (cfgs : List InstCfg) : (State.powerOn p cfgs).refusedBy = none := rfl
@[simp] theorem State.powerOn_program (p : Params) (cfgs : List InstCfg) : (State.powerOn p cfgs).program = [] := rfl
@[simp] theorem State.powerOn_sched (p : Params) (cfgs : List InstCfg) : (State.powerOn p cfgs).sched = [] := rfl
@[simp] theorem State.powerOn_turns (p : Params) (cfgs : List InstCfg) : (State.powerOn p cfgs).turns = 0 := rfl
@[simp] theorem State.powerOn_allocs (p : Params) (cfgs : List InstCfg) : (State.powerOn p cfgs).allocs = [] := rfl
@[simp] theorem State.powerOn_draws (p : Params) (cfgs : List InstCfg) : (State.powerOn p cfgs).draws = 0 := rfl
@[simp] theorem State.powerOn_insts (p : Params) (cfgs : List InstCfg) : (State.powerOn p cfgs).insts = cfgs.map (Inst.powerOn p) := rfl
@[simp] theorem State.powerOn_cfgs (p : Params) (cfgs : List InstCfg) : (State.powerOn p cfgs).cfgs = cfgs := by
  simp [State.cfgs, Function.comp_def]

@[simp] theorem Inst.begun_cfg (draw : Nat) (p : Params) (c : Inst) : (c.begun draw p).cfg = c.cfg := rfl
@[simp] theorem Inst.begun_init (draw : Nat) (p : Params) (c : Inst) : (c.begun draw p).init = .ready := rfl
@[simp] theorem Inst.begun_state (draw : Nat) (p : Params) (c : Inst) : (c.begun draw p).state = .idle := rfl
@[simp] theorem Inst.begun_bright (draw : Nat) (p : Params) (c : Inst) : (c.begun draw p).bright = BitVec.ofNat 8 p.brightnessInit := rfl
@[simp] theorem Inst.begun_tLast (draw : Nat) (p : Params) (c : Inst) : (c.begun draw p).tLast = none := rfl
@[simp] theorem Inst.begun_pix (draw : Nat) (p : Params) (c : Inst) : (c.begun draw p).pix = drawnPixels draw c.cfg := rfl
@[simp] theorem Inst.begun_stream (draw : Nat) (p : Params) (c : Inst) : (c.begun draw p).stream = drawnStream draw p c.cfg := rfl
@[simp] theorem Inst.begun_tgRun (draw : Nat) (p : Params) (c : Inst) : (c.begun draw p).tgRun = false := rfl
@[simp] theorem Inst.begun_tgDreq (draw : Nat) (p : Params) (c : Inst) : (c.begun draw p).tgDreq = false := rfl
@[simp] theorem Inst.begun_ccr (draw : Nat) (p : Params) (c : Inst) : (c.begun draw p).ccr = 0 := rfl
@[simp] theorem Inst.begun_act (draw : Nat) (p : Params) (c : Inst) : (c.begun draw p).act = 0 := rfl
@[simp] theorem Inst.begun_pinMode (draw : Nat) (p : Params) (c : Inst) : (c.begun draw p).pinMode = .low := rfl
@[simp] theorem Inst.begun_xfEn (draw : Nat) (p : Params) (c : Inst) : (c.begun draw p).xfEn = false := rfl
@[simp] theorem Inst.begun_xfIdx (draw : Nat) (p : Params) (c : Inst) : (c.begun draw p).xfIdx = 0 := rfl
@[simp] theorem Inst.begun_xfCnt (draw : Nat) (p : Params) (c : Inst) : (c.begun draw p).xfCnt = 0 := rfl
@[simp] theorem Inst.begun_xfTc (draw : Nat) (p : Params) (c : Inst) : (c.begun draw p).xfTc = false := rfl
@[simp] theorem Inst.begun_wire (draw : Nat) (p : Params) (c : Inst) : (c.begun draw p).wire = c.wire := rfl

@[simp] theorem Inst.ended_cfg (c : Inst) : (c.ended).cfg = c.cfg := rfl
@[simp] theorem Inst.ended_init (c : Inst) : (c.ended).init = .uninit := rfl
@[simp] theorem Inst.ended_state (c : Inst) : (c.ended).state = c.state := rfl
@[simp] theorem Inst.ended_bright (c : Inst) : (c.ended).bright = c.bright := rfl
@[simp] theorem Inst.ended_tLast (c : Inst) : (c.ended).tLast = c.tLast := rfl
@[simp] theorem Inst.ended_pix (c : Inst) : (c.ended).pix = [] := rfl
@[simp] theorem Inst.ended_stream (c : Inst) : (c.ended).stream = [] := rfl
@[simp] theorem Inst.ended_tgRun (c : Inst) : (c.ended).tgRun = c.tgRun := rfl
@[simp] theorem Inst.ended_tgDreq (c : Inst) : (c.ended).tgDreq = c.tgDreq := rfl
@[simp] theorem Inst.ended_ccr (c : Inst) : (c.ended).ccr = c.ccr := rfl
@[simp] theorem Inst.ended_act (c : Inst) : (c.ended).act = c.act := rfl
@[simp] theorem Inst.ended_pinMode (c : Inst) : (c.ended).pinMode = c.pinMode := rfl
@[simp] theorem Inst.ended_xfEn (c : Inst) : (c.ended).xfEn = c.xfEn := rfl
@[simp] theorem Inst.ended_xfIdx (c : Inst) : (c.ended).xfIdx = c.xfIdx := rfl
@[simp] theorem Inst.ended_xfCnt (c : Inst) : (c.ended).xfCnt = c.xfCnt := rfl
@[simp] theorem Inst.ended_xfTc (c : Inst) : (c.ended).xfTc = c.xfTc := rfl
@[simp] theorem Inst.ended_wire (c : Inst) : (c.ended).wire = c.wire := rfl

@[simp] theorem Inst.armed_cfg (p : Params) (c : Inst) : (c.armed p).cfg = c.cfg := rfl
@[simp] theorem Inst.armed_init (p : Params) (c : Inst) : (c.armed p).init = c.init := rfl
@[simp] theorem Inst.armed_state (p : Params) (c : Inst) : (c.armed p).state = .transmitting := rfl
@[simp] theorem Inst.armed_bright (p : Params) (c : Inst) : (c.armed p).bright = c.bright := rfl
@[simp] theorem Inst.armed_tLast (p : Params) (c : Inst) : (c.armed p).tLast = c.tLast := rfl
@[simp] theorem Inst.armed_pix (p : Params) (c : Inst) : (c.armed p).pix = c.pix := rfl
@[simp] theorem Inst.armed_stream (p : Params) (c : Inst) : (c.armed p).stream = c.stream := rfl
@[simp] theorem Inst.armed_tgRun (p : Params) (c : Inst) : (c.armed p).tgRun = true := rfl
@[simp] theorem Inst.armed_tgDreq (p : Params) (c : Inst) : (c.armed p).tgDreq = true := rfl
@[simp] theorem Inst.armed_ccr (p : Params) (c : Inst) : (c.armed p).ccr = 0 := rfl
@[simp] theorem Inst.armed_act (p : Params) (c : Inst) : (c.armed p).act = 0 := rfl
@[simp] theorem Inst.armed_pinMode (p : Params) (c : Inst) : (c.armed p).pinMode = .timer := rfl
@[simp] theorem Inst.armed_xfEn (p : Params) (c : Inst) : (c.armed p).xfEn = true := rfl
@[simp] theorem Inst.armed_xfIdx (p : Params) (c : Inst) : (c.armed p).xfIdx = 0 := rfl
@[simp] theorem Inst.armed_xfCnt (p : Params) (c : Inst) : (c.armed p).xfCnt = streamLen p c.cfg := rfl
@[simp] theorem Inst.armed_xfTc (p : Params) (c : Inst) : (c.armed p).xfTc = false := rfl
@[simp] theorem Inst.armed_wire (p : Params) (c : Inst) : (c.armed p).wire = c.wire := rfl

@[simp] theorem Inst.disarmed_cfg (now : Nat) (c : Inst) : (c.disarmed now).cfg = c.cfg := rfl
@[simp] theorem Inst.disarmed_init (now : Nat) (c : Inst) : (c.disarmed now).init = c.init := rfl
@[simp] theorem Inst.disarmed_state (now : Nat) (c : Inst) : (c.disarmed now).state = .idle := rfl
@[simp] theorem Inst.disarmed_bright (now : Nat) (c : Inst) : (c.disarmed now).bright = c.bright := rfl
@[simp] theorem Inst.disarmed_tLast (now : Nat) (c : Inst) : (c.disarmed now).tLast = some now := rfl
@[simp] theorem Inst.disarmed_pix (now : Nat) (c : Inst) : (c.disarmed now).pix = c.pix := rfl
@[simp] theorem Inst.disarmed_stream (now : Nat) (c : Inst) : (c.disarmed now).stream = c.stream := rfl
@[simp] theorem Inst.disarmed_tgRun (now : Nat) (c : Inst) : (c.disarmed now).tgRun = false := rfl
@[simp] theorem Inst.disarmed_tgDreq (now : Nat) (c : Inst) : (c.disarmed now).tgDreq = false := rfl
@[simp] theorem Inst.disarmed_ccr (now : Nat) (c : Inst) : (c.disarmed now).ccr = c.ccr := rfl
@[simp] theorem Inst.disarmed_act (now : Nat) (c : Inst) : (c.disarmed now).act = c.act := rfl
@[simp] theorem Inst.disarmed_pinMode (now : Nat) (c : Inst) : (c.disarmed now).pinMode = .low := rfl
@[simp] theorem Inst.disarmed_xfEn (now : Nat) (c : Inst) : (c.disarmed now).xfEn = false := rfl
@[simp] theorem Inst.disarmed_xfIdx (now : Nat) (c : Inst) : (c.disarmed now).xfIdx = c.xfIdx := rfl
@[simp] theorem Inst.disarmed_xfCnt (now : Nat) (c : Inst) : (c.disarmed now).xfCnt = c.xfCnt := rfl
@[simp] theorem Inst.disarmed_xfTc (now : Nat) (c : Inst) : (c.disarmed now).xfTc = c.xfTc := rfl
@[simp] theorem Inst.disarmed_wire (now : Nat) (c : Inst) : (c.disarmed now).wire = c.wire := rfl

@[simp] theorem Inst.transferred_cfg (d left : Nat) (c : Inst) : (c.transferred d left).cfg = c.cfg := rfl
@[simp] theorem Inst.transferred_init (d left : Nat) (c : Inst) : (c.transferred d left).init = c.init := rfl
@[simp] theorem Inst.transferred_state (d left : Nat) (c : Inst) : (c.transferred d left).state = c.state := rfl
@[simp] theorem Inst.transferred_bright (d left : Nat) (c : Inst) : (c.transferred d left).bright = c.bright := rfl
@[simp] theorem Inst.transferred_tLast (d left : Nat) (c : Inst) : (c.transferred d left).tLast = c.tLast := rfl
@[simp] theorem Inst.transferred_pix (d left : Nat) (c : Inst) : (c.transferred d left).pix = c.pix := rfl
@[simp] theorem Inst.transferred_stream (d left : Nat) (c : Inst) : (c.transferred d left).stream = c.stream := rfl
@[simp] theorem Inst.transferred_tgRun (d left : Nat) (c : Inst) : (c.transferred d left).tgRun = c.tgRun := rfl
@[simp] theorem Inst.transferred_tgDreq (d left : Nat) (c : Inst) : (c.transferred d left).tgDreq = c.tgDreq := rfl
@[simp] theorem Inst.transferred_ccr (d left : Nat) (c : Inst) : (c.transferred d left).ccr = d := rfl
@[simp] theorem Inst.transferred_act (d left : Nat) (c : Inst) : (c.transferred d left).act = c.act := rfl
@[simp] theorem Inst.transferred_pinMode (d left : Nat) (c : Inst) : (c.transferred d left).pinMode = c.pinMode := rfl
@[simp] theorem Inst.transferred_xfEn (d left : Nat) (c : Inst) : (c.transferred d left).xfEn = if left = 0 then false else c.xfEn := rfl
@[simp] theorem Inst.transferred_xfIdx (d left : Nat) (c : Inst) : (c.transferred d left).xfIdx = c.xfIdx + 1 := rfl
@[simp] theorem Inst.transferred_xfCnt (d left : Nat) (c : Inst) : (c.transferred d left).xfCnt = left := rfl
@[simp] theorem Inst.transferred_xfTc (d left : Nat) (c : Inst) : (c.transferred d left).xfTc = if left = 0 then true else c.xfTc := rfl
@[simp] theorem Inst.transferred_wire (d left : Nat) (c : Inst) : (c.transferred d left).wire = c.wire := rfl

@[simp] theorem Inst.emit_cfg (c : Inst) : c.emit.cfg = c.cfg := by
  unfold Inst.emit; split <;> rfl
@[simp] theorem Inst.emit_init (c : Inst) : c.emit.init = c.init := by
  unfold Inst.emit; split <;> rfl
@[simp] theorem Inst.emit_state (c : Inst) : c.emit.state = c.state := by
  unfold Inst.emit; split <;> rfl
@[simp] theorem Inst.emit_bright (c : Inst) : c.emit.bright = c.bright := by
  unfold Inst.emit; split <;> rfl
@[simp] theorem Inst.emit_tLast (c : Inst) : c.emit.tLast = c.tLast := by
  unfold Inst.emit; split <;> rfl
@[simp] theorem Inst.emit_pix (c : Inst) : c.emit.pix = c.pix := by
  unfold Inst.emit; split <;> rfl
@[simp] theorem Inst.emit_stream (c : Inst) : c.emit.stream = c.stream := by
  unfold Inst.emit; split <;> rfl
@[simp] theorem Inst.emit_tgRun (c : Inst) : c.emit.tgRun = c.tgRun := by
  unfold Inst.emit; split <;> rfl
@[simp] theorem Inst.emit_tgDreq (c : Inst) : c.emit.tgDreq = c.tgDreq := by
  unfold Inst.emit; split <;> rfl
@[simp] theorem Inst.emit_ccr (c : Inst) : c.emit.ccr = c.ccr := by
  unfold Inst.emit; split <;> rfl
@[simp] theorem Inst.emit_act (c : Inst) : c.emit.act = c.act := by
  unfold Inst.emit; split <;> rfl
@[simp] theorem Inst.emit_pinMode (c : Inst) : c.emit.pinMode = c.pinMode := by
  unfold Inst.emit; split <;> rfl
@[simp] theorem Inst.emit_xfEn (c : Inst) : c.emit.xfEn = c.xfEn := by
  unfold Inst.emit; split <;> rfl
@[simp] theorem Inst.emit_xfIdx (c : Inst) : c.emit.xfIdx = c.xfIdx := by
  unfold Inst.emit; split <;> rfl
@[simp] theorem Inst.emit_xfCnt (c : Inst) : c.emit.xfCnt = c.xfCnt := by
  unfold Inst.emit; split <;> rfl
@[simp] theorem Inst.emit_xfTc (c : Inst) : c.emit.xfTc = c.xfTc := by
  unfold Inst.emit; split <;> rfl
@[simp] theorem Inst.emit_wire (c : Inst) : c.emit.wire = if c.pinMode = .timer then c.wire ++ [c.act] else c.wire := by
  unfold Inst.emit; split <;> rfl

@[simp] theorem Inst.produce_cfg (lag : CcrLag) (c : Inst) : (c.produce lag).cfg = c.cfg := by
  cases lag <;> simp [Inst.produce]
@[simp] theorem Inst.produce_init (lag : CcrLag) (c : Inst) : (c.produce lag).init = c.init := by
  cases lag <;> simp [Inst.produce]
@[simp] theorem Inst.produce_state (lag : CcrLag) (c : Inst) : (c.produce lag).state = c.state := by
  cases lag <;> simp [Inst.produce]
@[simp] theorem Inst.produce_bright (lag : CcrLag) (c : Inst) : (c.produce lag).bright = c.bright := by
  cases lag <;> simp [Inst.produce]
@[simp] theorem Inst.produce_tLast (lag : CcrLag) (c : Inst) : (c.produce lag).tLast = c.tLast := by
  cases lag <;> simp [Inst.produce]
@[simp] theorem Inst.produce_pix (lag : CcrLag) (c : Inst) : (c.produce lag).pix = c.pix := by
  cases lag <;> simp [Inst.produce]
@[simp] theorem Inst.produce_stream (lag : CcrLag) (c : Inst) : (c.produce lag).stream = c.stream := by
  cases lag <;> simp [Inst.produce]
@[simp] theorem Inst.produce_tgRun (lag : CcrLag) (c : Inst) : (c.produce lag).tgRun = c.tgRun := by
  cases lag <;> simp [Inst.produce]
@[simp] theorem Inst.produce_tgDreq (lag : CcrLag) (c : Inst) : (c.produce lag).tgDreq = c.tgDreq := by
  cases lag <;> simp [Inst.produce]
@[simp] theorem Inst.produce_ccr (lag : CcrLag) (c : Inst) : (c.produce lag).ccr = c.ccr := by
  cases lag <;> simp [Inst.produce]
@[simp] theorem Inst.produce_pinMode (lag : CcrLag) (c : Inst) : (c.produce lag).pinMode = c.pinMode := by
  cases lag <;> simp [Inst.produce]
@[simp] theorem Inst.produce_xfEn (lag : CcrLag) (c : Inst) : (c.produce lag).xfEn = c.xfEn := by
  cases lag <;> simp [Inst.produce]
@[simp] theorem Inst.produce_xfIdx (lag : CcrLag) (c : Inst) : (c.produce lag).xfIdx = c.xfIdx := by
  cases lag <;> simp [Inst.produce]
@[simp] theorem Inst.produce_xfCnt (lag : CcrLag) (c : Inst) : (c.produce lag).xfCnt = c.xfCnt := by
  cases lag <;> simp [Inst.produce]
@[simp] theorem Inst.produce_xfTc (lag : CcrLag) (c : Inst) : (c.produce lag).xfTc = c.xfTc := by
  cases lag <;> simp [Inst.produce]
@[simp] theorem Inst.produce_act (lag : CcrLag) (c : Inst) : (c.produce lag).act = c.ccr := by
  cases lag <;> simp [Inst.produce]
@[simp] theorem Inst.produce_wire_lag0 (c : Inst) :
    (c.produce .lag0).wire = if c.pinMode = .timer then c.wire ++ [c.ccr] else c.wire := by
  simp [Inst.produce]
@[simp] theorem Inst.produce_wire_lag1 (c : Inst) :
    (c.produce .lag1).wire = if c.pinMode = .timer then c.wire ++ [c.act] else c.wire := by
  simp [Inst.produce]

/-! Reaching an instance after an update. -/

@[simp] theorem State.inst?_setInst_self (s : State) (i : InstNo) (c d : Inst) (h : s.inst? i = some d) :
    (s.setInst i c).inst? i = some c := by
  have hi : i.toNat < s.insts.length := by
    by_contra hn
    simp [State.inst?, List.getElem?_eq_none (Nat.le_of_not_lt hn)] at h
  simp [State.inst?, List.getElem?_set_self hi]

theorem State.inst?_setInst_of_ne (s : State) {i j : InstNo} (c : Inst) (h : j ≠ i) :
    (s.setInst i c).inst? j = s.inst? j := by
  have hne : i.toNat ≠ j.toNat := fun e => h (BitVec.eq_of_toNat_eq e.symm)
  simp [State.inst?, List.getElem?_set_ne hne]

/-- Every instance after `setInst` is the new one, or an old one at another number. -/
theorem State.inst?_setInst_cases {s : State} {i j : InstNo} {c d : Inst} (h : (s.setInst i c).inst? j = some d) :
    (j = i ∧ d = c) ∨ (j ≠ i ∧ s.inst? j = some d) := by
  by_cases e : j = i
  · subst e
    left
    refine ⟨rfl, ?_⟩
    rw [State.inst?, State.setInst_insts, List.getElem?_set] at h
    simp only [if_true] at h
    split at h
    · exact (Option.some.inj h).symm
    · cases h
  · exact .inr ⟨e, by rwa [State.inst?_setInst_of_ne s c e] at h⟩

@[simp] theorem State.inst?_ret (s : State) (v : Result) (i : InstNo) : (s.ret v).inst? i = s.inst? i := rfl
@[simp] theorem State.inst?_raise (s : State) (f : FaultRecord) (i : InstNo) : (s.raise f).inst? i = s.inst? i := rfl
@[simp] theorem State.inst?_refuse (s : State) (r : RefuseReason) (i : InstNo) : (s.refuse r).inst? i = s.inst? i := rfl
@[simp] theorem State.inst?_afterDraw (s : State) (i : InstNo) : s.afterDraw.inst? i = s.inst? i := rfl
@[simp] theorem State.inst?_takeTurn (s : State) (i : InstNo) : s.takeTurn.inst? i = s.inst? i := by
  simp [State.inst?]

/-! The configuration after an update (R33). -/

theorem State.cfgs_setInst {s : State} {i : InstNo} {c d : Inst} (h : s.inst? i = some d) (hc : c.cfg = d.cfg) :
    (s.setInst i c).cfgs = s.cfgs := by
  unfold State.cfgs
  rw [State.setInst_insts, List.map_set, hc]
  apply List.ext_getElem?
  intro k
  rw [List.getElem?_set]
  split
  · next e =>
    subst e
    unfold State.inst? at h
    have hi : i.toNat < s.insts.length := by
      by_contra hn
      simp [List.getElem?_eq_none (Nat.le_of_not_lt hn)] at h
    rw [List.getElem?_eq_getElem hi] at h
    simp [hi, ← Option.some.inj h]
  · rfl

@[simp] theorem State.cfgs_ret (s : State) (v : Result) : (s.ret v).cfgs = s.cfgs := rfl
@[simp] theorem State.cfgs_raise (s : State) (f : FaultRecord) : (s.raise f).cfgs = s.cfgs := rfl
@[simp] theorem State.cfgs_refuse (s : State) (r : RefuseReason) : (s.refuse r).cfgs = s.cfgs := rfl
@[simp] theorem State.cfgs_afterDraw (s : State) : s.afterDraw.cfgs = s.cfgs := rfl
@[simp] theorem State.cfgs_takeTurn (s : State) : s.takeTurn.cfgs = s.cfgs := by simp [State.cfgs]

end Sys2Proof.Machine
end

