-- ==== Sys2Proof/Laws/Commands.lean ====
section
/-! SUPPORT. What a command can do, said once: the guard's cases, and for each constructor the one next state it has
when its checks pass. -/

namespace Sys2Proof.Machine

/-- The effect runs when the checks pass. -/
theorem State.guarded_of_pass {s : State} {op : Opcode} {i : InstNo} {c : Inst} {k : Inst → Out}
    (hc : s.inst? i = some c) (hi : c.init = requiredInit op) (hs : needsIdle op = true → c.state = .idle) :
    s.guarded op i k = k c := by
  have h : s.check op i = .pass c := by
    unfold State.check
    rw [hc]
    simp only [hi, ne_eq, not_true_eq_false, if_false]
    rw [if_neg]
    rintro ⟨h1, h2⟩
    exact h2 (hs h1)
  rw [State.guarded, h]

/-- Everything the guard can answer. -/
theorem State.guarded_next {s t : State} {op : Opcode} {i : InstNo} {k : Inst → Out} (h : s.guarded op i k = .next t) :
    (t = s.refuse .badInstance ∧ s.inst? i = none) ∨
    (∃ r, t = s.raise { inst := i, opcode := op, reason := r }) ∨
    (∃ c, s.inst? i = some c ∧ c.init = requiredInit op ∧ (needsIdle op = true → c.state = .idle) ∧ k c = .next t) := by
  unfold State.guarded at h
  split at h
  · next c hc =>
    right; right
    unfold State.check at hc
    split at hc
    · cases hc
    · next d hd =>
      split_ifs at hc with h1 h2
      cases hc
      refine ⟨c, hd, not_not.1 h1, fun hn => ?_, h⟩
      by_contra hne
      exact h2 ⟨hn, hne⟩
  · next r _ => exact .inr (.inl ⟨r, (Host.Outcome.next.inj h).symm⟩)
  · next r hr =>
    left
    unfold State.check at hr
    split at hr
    · next hn =>
      cases hr
      exact ⟨(Host.Outcome.next.inj h).symm, hn⟩
    · split_ifs at hr

/-- The guard answers a next state or what the effect answers. -/
theorem State.guarded_fault {s : State} {op : Opcode} {i : InstNo} {k : Inst → Out} {f : Fault}
    (h : s.guarded op i k = .fault f) :
    ∃ c, s.inst? i = some c ∧ c.init = requiredInit op ∧ k c = .fault f := by
  unfold State.guarded at h
  split at h
  · next c hc =>
    unfold State.check at hc
    split at hc
    · cases hc
    · next d hd =>
      split_ifs at hc with h1 h2
      cases hc
      exact ⟨c, hd, not_not.1 h1, h⟩
  · cases h
  · cases h

/-- What a command does to the state when its checks pass, on instance `c`. -/
def CommandEffect (i : Instr) (c : Inst) (s t : State) : Prop :=
  match i with
  | .beginCtl j => c.init = .uninit ∧
      t = if s.allocOutcome then (s.afterDraw.setInst j (c.begun s.draws s.params)).ret (.bool true)
        else s.afterDraw.ret (.bool false)
  | .endCtl j => c.init = .ready ∧ c.state = .idle ∧ t = (s.setInst j c.ended).ret .unit
  | .setPixelRgb j index r g b => c.init = .ready ∧ c.state = .idle ∧
      t = (s.setInst j { c with pix := c.setPixel index r g b 0 }).ret .unit
  | .setPixelRgbw j index r g b w => c.init = .ready ∧ c.state = .idle ∧
      t = (s.setInst j { c with pix := c.setPixel index r g b w }).ret .unit
  | .setPixelColor j index color => c.init = .ready ∧ c.state = .idle ∧
      t = (s.setInst j { c with
        pix := c.setPixel index (Color.red color) (Color.green color) (Color.blue color) (Color.white color) }).ret .unit
  | .getPixelColor _ index => c.init = .ready ∧
      ∃ color, t = s.ret (.color color) ∧
        (index.toNat < c.cfg.ledCount → readPixel c.cfg.colorOrder index.toNat c.pix = some color) ∧
        (¬ index.toNat < c.cfg.ledCount → color = 0)
  | .fill j color => c.init = .ready ∧ c.state = .idle ∧
      t = (s.setInst j { c with pix := fillPixels c.cfg.colorOrder 0 c.cfg.ledCount color c.pix }).ret .unit
  | .fillRange j start count color => c.init = .ready ∧ c.state = .idle ∧
      t = (s.setInst j { c with
        pix := fillPixels c.cfg.colorOrder start.toNat (rangeEnd start count c.cfg.ledCount) color c.pix }).ret .unit
  | .clear j => c.init = .ready ∧ c.state = .idle ∧
      t = (s.setInst j { c with pix := zeroBytes (pixBytes c.cfg) c.pix }).ret .unit
  | .setBrightness j b => c.init = .ready ∧ c.state = .idle ∧ t = (s.setInst j { c with bright := b }).ret .unit
  | .getCount _ => c.init = .ready ∧ t = s.ret (.number (BitVec.ofNat 16 c.cfg.ledCount))
  | .showFrame j => c.init = .ready ∧ c.state = .idle ∧ t = { s with cur := showAt j .waitReset }
  | .canShow _ => c.init = .ready ∧ t = s.ret (.bool (s.canShowFn c))
  | .isBusy _ => c.init = .ready ∧ t = s.ret (.bool c.isBusy)
  | .wait j => c.init = .ready ∧ t = waitOn j c s

/-- Everything a command can answer as a next state. -/
theorem exec_next {i : Instr} {s t : State} (h : exec i s = .next t) :
    (t = s.refuse .badInstance ∧ s.inst? i.inst = none) ∨
    (∃ r, t = s.raise { inst := i.inst, opcode := i.opcode, reason := r }) ∨
    (∃ c, s.inst? i.inst = some c ∧ CommandEffect i c s t) := by
  cases i with
  | getPixelColor j index =>
    rcases State.guarded_next h with h | h | ⟨c, hc, hi, -, hk⟩
    · exact .inl h
    · exact .inr (.inl h)
    · refine .inr (.inr ⟨c, hc, hi, ?_⟩)
      split_ifs at hk with hlt
      · split at hk
        · next color hcol => exact ⟨color, (Host.Outcome.next.inj hk).symm, fun _ => hcol, fun hn => absurd hlt hn⟩
        · cases hk
      · exact ⟨0, (Host.Outcome.next.inj hk).symm, fun hn => absurd hn hlt, fun _ => rfl⟩
  | beginCtl j | getCount j | canShow j | isBusy j | wait j =>
    rcases State.guarded_next h with h | h | ⟨c, hc, hi, -, hk⟩
    · exact .inl h
    · exact .inr (.inl h)
    · exact .inr (.inr ⟨c, hc, hi, (Host.Outcome.next.inj hk).symm⟩)
  | endCtl j | setPixelRgb j _ _ _ _ | setPixelRgbw j _ _ _ _ _ | setPixelColor j _ _ | fill j _ | fillRange j _ _ _
  | clear j | setBrightness j _ | showFrame j =>
    rcases State.guarded_next h with h | h | ⟨c, hc, hi, hs, hk⟩
    · exact .inl h
    · exact .inr (.inl h)
    · exact .inr (.inr ⟨c, hc, hi, hs rfl, (Host.Outcome.next.inj hk).symm⟩)

/-- Everything a step can answer as a next state: a refused configuration, or a turn. -/
theorem step_next {s t : State} (h : step s = .next t) :
    s.refusedBy = none ∧
    ((s.configOk = false ∧ t = s.refuse .badConfig) ∨
     (s.configOk = true ∧ agentTurn s.nextAgent s.takeTurn = .next t)) := by
  unfold step at h
  split at h
  · cases h
  · next hr =>
    refine ⟨hr, ?_⟩
    unfold runTurn at h
    split_ifs at h with hc
    · exact .inr ⟨hc, h⟩
    · exact .inl ⟨by simpa using hc, (Host.Outcome.next.inj h).symm⟩

/-- Everything the host's turn can answer as a next state. -/
theorem hostTurn_next {s t : State} (h : hostTurn s = .next t) :
    t = s ∨
    (s.faults = [] ∧ ∃ k, s.cur = some k ∧ continueCurrent k s = .next t) ∨
    (s.faults = [] ∧ s.cur = none ∧ ∃ w rest, s.program = w :: rest ∧
      ((∃ i, decode w = .ok i ∧ exec i { s with program := rest } = .next t) ∨
       (∃ e, decode w = .error e ∧ t = State.refuse { s with program := rest } .illegalCommand))) := by
  unfold hostTurn at h
  split at h
  · exact .inl (Host.Outcome.next.inj h).symm
  · next hf =>
    split at h
    · next k hk => exact .inr (.inl ⟨hf, k, hk, h⟩)
    · next hk =>
      split at h
      · exact .inl (Host.Outcome.next.inj h).symm
      · next w rest hp =>
        refine .inr (.inr ⟨hf, hk, w, rest, hp, ?_⟩)
        unfold issueWord at h
        split at h
        · next i hi => exact .inl ⟨i, hi, h⟩
        · next e he => exact .inr ⟨e, he, (Host.Outcome.next.inj h).symm⟩

/-- Everything the host's turn on a current command can answer as a next state. -/
theorem continueCurrent_next {k : Cur} {s t : State} (h : continueCurrent k s = .next t) :
    t = s ∨ ∃ c, s.inst? k.inst = some c ∧
      ((k.opcode = .showFrame ∧ k.phase = some .waitReset ∧ s.canShowFn c = true ∧
          t = { (s.setInst k.inst { c with state := .encoding }) with cur := showAt k.inst .encode }) ∨
       (k.opcode = .showFrame ∧ k.phase = some .encode ∧ ∃ entries,
          encodeStream s.params c.cfg c.pix c.bright = some entries ∧
          t = { (s.setInst k.inst { c with stream := entries }) with cur := showAt k.inst .arm }) ∨
       (k.opcode = .showFrame ∧ k.phase = some .arm ∧
          t = { (s.setInst k.inst (c.armed s.params)) with cur := showAt k.inst .waitDone }) ∨
       (k.opcode = .showFrame ∧ k.phase = some .waitDone ∧ c.xfTc = true ∧
          t = (s.setInst k.inst (c.disarmed s.now)).ret .unit) ∨
       (k.opcode = .wait ∧ t = waitOn k.inst c s)) := by
  unfold continueCurrent at h
  split at h
  · exact .inl (Host.Outcome.next.inj h).symm
  · next c hc =>
    split at h
    · next h1 h2 =>
      unfold stepWaitReset at h
      split_ifs at h with hs
      · exact .inr ⟨c, hc, .inl ⟨h1, h2, hs, (Host.Outcome.next.inj h).symm⟩⟩
      · exact .inl (Host.Outcome.next.inj h).symm
    · next h1 h2 =>
      unfold stepEncode at h
      split at h
      · next entries he =>
        exact .inr ⟨c, hc, .inr (.inl ⟨h1, h2, entries, he, (Host.Outcome.next.inj h).symm⟩)⟩
      · cases h
    · next h1 h2 => exact .inr ⟨c, hc, .inr (.inr (.inl ⟨h1, h2, (Host.Outcome.next.inj h).symm⟩))⟩
    · next h1 h2 =>
      unfold stepWaitDone at h
      split_ifs at h with hs
      · exact .inr ⟨c, hc, .inr (.inr (.inr (.inl ⟨h1, h2, hs, (Host.Outcome.next.inj h).symm⟩)))⟩
      · exact .inl (Host.Outcome.next.inj h).symm
    · next h1 => exact .inr ⟨c, hc, .inr (.inr (.inr (.inr ⟨h1, (Host.Outcome.next.inj h).symm⟩)))⟩
    · exact .inl (Host.Outcome.next.inj h).symm

/-- A transfer, or none. -/
theorem Inst.transfer_ok {i : InstNo} {c c' : Inst} (h : c.transfer i = .ok c') :
    (c.tgDreq = true ∧ c.xfEn = true ∧ ∃ d left, c.stream[c.xfIdx]? = some d ∧ c.xfCnt = left + 1 ∧
      c' = c.transferred d left) ∨
    ((c.tgDreq = false ∨ c.xfEn = false) ∧ c' = c) := by
  unfold Inst.transfer at h
  split_ifs at h with hc
  · rw [Bool.and_eq_true] at hc
    split at h
    · next d left hd hl =>
      cases h
      exact .inl ⟨hc.1, hc.2, d, left, hd, hl, rfl⟩
    · cases h
    · cases h
  · cases h
    refine .inr ⟨?_, rfl⟩
    cases h1 : c.tgDreq <;> cases h2 : c.xfEn <;> simp_all

/-- Everything a timing generator's turn can answer as a next state. -/
theorem tgPeriod_next {i : InstNo} {s t : State} (h : tgPeriod i s = .next t) :
    t = s ∨ ∃ c c', s.inst? i = some c ∧ c.tgRun = true ∧ c.transfer i = .ok c' ∧
      t = s.setInst i (c'.produce s.params.ccrLag) := by
  unfold tgPeriod at h
  split at h
  · exact .inl (Host.Outcome.next.inj h).symm
  · next c hc =>
    split_ifs at h with hr
    · split at h
      · next c' hc' => exact .inr ⟨c, c', hc, hr, hc', (Host.Outcome.next.inj h).symm⟩
      · cases h
    · exact .inl (Host.Outcome.next.inj h).symm

/-- The first step of a run of the machine behind the host's interface. -/
theorem core_run_next {s t : State} (k : Nat) (h : step s = .next t) :
    Sys2Proof.core.run (k + 1) s = Sys2Proof.core.run k t := by
  have h' : Sys2Proof.core.step s = .next t := h
  simp only [Host.Core.run, h']

end Sys2Proof.Machine
end

