-- ==== Sys2Proof/Laws/Configuration.lean ====
section
/-! SUPPORT. What the check of the memories' places says: no host address lies in two memories (20_memory R82). -/

namespace Sys2Proof.Machine

/-- Two regions that are not empty are apart exactly when no address lies in both. -/
theorem apart_iff {a b : Nat × Nat} (ha : 0 < a.2) (hb : 0 < b.2) :
    Apart a b ↔ ∀ x, ¬ ((a.1 ≤ x ∧ x < a.1 + a.2) ∧ b.1 ≤ x ∧ x < b.1 + b.2) := by
  unfold Apart
  constructor
  · intro h x
    omega
  · intro h
    have := h (max a.1 b.1)
    omega

theorem pixBytes_pos {cfg : InstCfg} (h : 1 ≤ cfg.ledCount) : 0 < pixBytes cfg := by
  have : 0 < channels cfg.colorOrder := by cases cfg.colorOrder <;> decide
  unfold pixBytes
  positivity

theorem streamBytes_pos {p : Params} (cfg : InstCfg) (h : 1 ≤ p.resetCycles) : 0 < streamBytes p cfg := by
  have h1 : 0 < streamLen p cfg := by
    unfold streamLen
    omega
  have h2 : 0 < dutyBits p.dutyWidth / 8 := by cases p.dutyWidth <;> decide
  unfold streamBytes
  positivity

/-- The places of the memories as pairs of instances: an instance's two memories are apart, and so are the memories of
two instances. -/
theorem memoriesOk_iff (p : Params) (cfgs : List InstCfg) :
    memoriesOk p cfgs = true ↔
      (∀ c ∈ cfgs, Apart (c.pixBase, pixBytes c) (c.streamBase, streamBytes p c)) ∧
      cfgs.Pairwise fun c d => ∀ a ∈ regions p c, ∀ b ∈ regions p d, Apart a b := by
  simp [memoriesOk, List.pairwise_flatMap, regions]

end Sys2Proof.Machine
end

