-- ==== Sys2Proof/Laws/Memory.lean ====
section
/-! SUPPORT. The laws of a memory: a read after a write, the canonical form, equality of memories that read alike, and
what writing pixels and reading lists of addresses come to. -/

namespace Sys2Proof.Machine

@[simp] theorem Memory.read_nil (a : Nat) : Memory.read [] a = none := rfl

theorem Memory.read_cons (k : Nat) (v : Byte) (m : Memory) (a : Nat) :
    Memory.read ((k, v) :: m) a = if k = a then some v else Memory.read m a := rfl

/-- A read after a write to the same address gives the byte written. -/
@[simp] theorem Memory.read_write_self (m : Memory) (a : Nat) (v : Byte) : (m.write a v).read a = some v := by
  induction m with
  | nil => simp [Memory.write, Memory.read]
  | cons e m ih =>
    obtain ⟨k, u⟩ := e
    unfold Memory.write
    split_ifs with h1 h2
    · simp [Memory.read]
    · simp [Memory.read]
    · simp [Memory.read, Ne.symm h2, ih]

/-- A write leaves every other address alone. -/
theorem Memory.read_write_of_ne (m : Memory) {a b : Nat} (v : Byte) (h : b ≠ a) : (m.write a v).read b = m.read b := by
  induction m with
  | nil => simp [Memory.write, Memory.read, Ne.symm h]
  | cons e m ih =>
    obtain ⟨k, u⟩ := e
    unfold Memory.write
    split_ifs with h1 h2
    · simp [Memory.read, Ne.symm h]
    · subst h2; simp [Memory.read, Ne.symm h]
    · simp [Memory.read, ih]

theorem Memory.read_write (m : Memory) (a b : Nat) (v : Byte) :
    (m.write a v).read b = if b = a then some v else m.read b := by
  split_ifs with h
  · subst h; simp
  · exact Memory.read_write_of_ne m v h

/-- The head of a canonical memory lies below every other address. -/
theorem Memory.wf_cons_iff (a : Nat) (v : Byte) (m : Memory) :
    Memory.wf ((a, v) :: m) = true ↔ (∀ e ∈ m, a < e.1) ∧ Memory.wf m = true := by
  induction m generalizing a v with
  | nil => simp [Memory.wf]
  | cons e m ih =>
    obtain ⟨b, w⟩ := e
    rw [show Memory.wf ((a, v) :: (b, w) :: m) = (decide (a < b) && Memory.wf ((b, w) :: m)) from rfl]
    simp only [Bool.and_eq_true, decide_eq_true_eq, List.mem_cons, forall_eq_or_imp]
    constructor
    · rintro ⟨hab, hw⟩
      exact ⟨⟨hab, fun e he => lt_trans hab ((ih b w).1 hw |>.1 e he)⟩, hw⟩
    · rintro ⟨⟨hab, -⟩, hw⟩
      exact ⟨hab, hw⟩

theorem Memory.mem_write {m : Memory} {a : Nat} {v : Byte} {e : Host.Cell} (h : e ∈ m.write a v) : e = (a, v) ∨ e ∈ m := by
  induction m with
  | nil => simpa [Memory.write] using h
  | cons f m ih =>
    obtain ⟨k, u⟩ := f
    unfold Memory.write at h
    split_ifs at h with h1 h2
    · simpa using h
    · rcases List.mem_cons.1 h with h | h
      · exact .inl h
      · exact .inr (List.mem_cons_of_mem _ h)
    · rcases List.mem_cons.1 h with h | h
      · exact .inr (h ▸ List.mem_cons_self)
      · rcases ih h with h | h
        · exact .inl h
        · exact .inr (List.mem_cons_of_mem _ h)

/-- A write keeps the canonical form. -/
theorem Memory.wf_write (m : Memory) (a : Nat) (v : Byte) (h : m.wf = true) : (m.write a v).wf = true := by
  induction m with
  | nil => rfl
  | cons e m ih =>
    obtain ⟨k, u⟩ := e
    have hk := (Memory.wf_cons_iff k u m).1 h
    unfold Memory.write
    split_ifs with h1 h2
    · rw [Memory.wf_cons_iff]
      refine ⟨?_, h⟩
      intro e he
      rcases List.mem_cons.1 he with rfl | he
      · exact h1
      · exact lt_trans h1 (hk.1 e he)
    · subst h2
      rw [Memory.wf_cons_iff]
      exact hk
    · rw [Memory.wf_cons_iff]
      refine ⟨?_, ih hk.2⟩
      intro e he
      rcases Memory.mem_write he with rfl | he
      · exact lt_of_le_of_ne (Nat.le_of_not_lt h1) (Ne.symm h2)
      · exact hk.1 e he

/-- An address below every listed one reads as no byte. -/
theorem Memory.read_eq_none_of_lt (m : Memory) (a : Nat) (h : ∀ e ∈ m, a < e.1) : m.read a = none := by
  induction m with
  | nil => rfl
  | cons e m ih =>
    obtain ⟨k, u⟩ := e
    have h1 : a < k := h (k, u) List.mem_cons_self
    simp [Memory.read, Nat.ne_of_gt h1, ih fun e he => h e (List.mem_cons_of_mem _ he)]

/-- Memories in canonical form that read alike are equal. -/
theorem Memory.ext_of_wf : ∀ (m n : Memory), m.wf = true → n.wf = true → (∀ a, m.read a = n.read a) → m = n
  | [], [], _, _, _ => rfl
  | [], (k, u) :: n, _, _, h => by simpa [Memory.read] using h k
  | (k, u) :: m, [], _, _, h => by simpa [Memory.read] using h k
  | (k, u) :: m, (l, v) :: n, hm, hn, h => by
    have hk := (Memory.wf_cons_iff k u m).1 hm
    have hl := (Memory.wf_cons_iff l v n).1 hn
    have hkl : k = l := by
      rcases Nat.lt_trichotomy k l with hlt | he | hlt
      · have := h k
        rw [Memory.read_eq_none_of_lt ((l, v) :: n) k (by
          intro e he
          rcases List.mem_cons.1 he with rfl | he
          · exact hlt
          · exact lt_trans hlt (hl.1 e he))] at this
        simp [Memory.read] at this
      · exact he
      · have := h l
        rw [Memory.read_eq_none_of_lt ((k, u) :: m) l (by
          intro e he
          rcases List.mem_cons.1 he with rfl | he
          · exact hlt
          · exact lt_trans hlt (hk.1 e he))] at this
        simp [Memory.read] at this
    subst hkl
    have huv : u = v := by simpa [Memory.read] using h k
    subst huv
    congr 1
    refine Memory.ext_of_wf m n hk.2 hl.2 fun a => ?_
    by_cases e : k = a
    · subst e
      rw [Memory.read_eq_none_of_lt m k hk.1, Memory.read_eq_none_of_lt n k hl.1]
    · simpa [Memory.read, e] using h a

/-- A write to a listed address of a canonical memory keeps the list of addresses. -/
theorem Memory.keys_write (m : Memory) (a : Nat) (v : Byte) (hm : m.wf = true) (h : a ∈ m.map Prod.fst) :
    (m.write a v).map Prod.fst = m.map Prod.fst := by
  induction m with
  | nil => simp at h
  | cons e m ih =>
    obtain ⟨k, u⟩ := e
    have hk := (Memory.wf_cons_iff k u m).1 hm
    unfold Memory.write
    split_ifs with h1 h2
    · exfalso
      rcases List.mem_cons.1 h with h | h
      · exact absurd h (Nat.ne_of_lt h1)
      · obtain ⟨e, he, rfl⟩ := List.mem_map.1 h
        exact absurd (hk.1 e he) (Nat.not_lt.2 (Nat.le_of_lt h1))
    · subst h2; rfl
    · have h' : a ∈ m.map Prod.fst := by
        rcases List.mem_cons.1 h with h | h
        · exact absurd h h2
        · exact h
      simp [ih hk.2 h']

/-- A memory whose addresses are `0 .. n - 1` is in canonical form. -/
theorem Memory.wf_of_keys_pairwise (m : Memory) (h : (m.map Prod.fst).Pairwise (· < ·)) : m.wf = true := by
  induction m with
  | nil => rfl
  | cons e m ih =>
    obtain ⟨k, u⟩ := e
    rw [List.map_cons, List.pairwise_cons] at h
    rw [Memory.wf_cons_iff]
    exact ⟨fun e he => h.1 e.1 (List.mem_map_of_mem (f := Prod.fst) he), ih h.2⟩

theorem Memory.wf_of_keys_range (m : Memory) (n : Nat) (h : m.map Prod.fst = List.range n) : m.wf = true :=
  Memory.wf_of_keys_pairwise m (h ▸ List.pairwise_lt_range)

/-- The pixel memory at power-on lists every byte (R56). -/
@[simp] theorem powerOnPixels_keys (cfg : InstCfg) : (powerOnPixels cfg).map Prod.fst = List.range (pixBytes cfg) := by
  simp [powerOnPixels, Function.comp_def]

/-- Every memory of a power-on state, the reset state among them, is in canonical form. -/
theorem powerOn_memories_wf (p : Params) (cfgs : List InstCfg) : ∀ c ∈ (State.powerOn p cfgs).insts, c.pix.wf = true := by
  intro c hc
  obtain ⟨cfg, -, rfl⟩ := List.mem_map.1 hc
  exact Memory.wf_of_keys_range _ _ (powerOnPixels_keys cfg)

theorem reset_memories_wf : ∀ c ∈ State.reset.insts, c.pix.wf = true := powerOn_memories_wf _ _

/-- Every listed address has a byte. -/
theorem Memory.read_isSome_of_mem_keys (m : Memory) (a : Nat) (h : a ∈ m.map Prod.fst) : ∃ v, m.read a = some v := by
  induction m with
  | nil => simp at h
  | cons e m ih =>
    obtain ⟨k, u⟩ := e
    by_cases hk : k = a
    · exact ⟨u, by simp [Memory.read, hk]⟩
    · have : a ∈ m.map Prod.fst := by
        rcases List.mem_cons.1 h with h | h
        · exact absurd h.symm hk
        · exact h
      simpa [Memory.read, hk] using ih this

/-- What `writeChannel` leaves at an address. -/
theorem read_writeChannel (o : ColorOrder) (base : Nat) (ch : Channel) (v : Byte) (m : Memory) (a : Nat) :
    (writeChannel o base ch v m).read a = if off o ch = some (a - base) ∧ base ≤ a then some v else m.read a := by
  unfold writeChannel
  cases h : off o ch with
  | none => simp
  | some k =>
    rw [Memory.read_write]
    by_cases e : a = base + k
    · subst e; simp
    · rw [if_neg e, if_neg]
      rintro ⟨h1, h2⟩
      injection h1 with h1
      omega

/-- The canonical form is kept by the pixel writers. -/
theorem wf_writeChannel (o : ColorOrder) (base : Nat) (ch : Channel) (v : Byte) (m : Memory) (h : m.wf = true) :
    (writeChannel o base ch v m).wf = true := by
  unfold writeChannel
  split
  · exact Memory.wf_write m _ v h
  · exact h

theorem wf_writePixel (o : ColorOrder) (p : Nat) (r g b w : Byte) (m : Memory) (h : m.wf = true) :
    (writePixel o p r g b w m).wf = true :=
  wf_writeChannel _ _ _ _ _ (wf_writeChannel _ _ _ _ _ (wf_writeChannel _ _ _ _ _ (wf_writeChannel _ _ _ _ _ h)))

theorem wf_setPixel (c : Inst) (index : Index) (r g b w : Byte) (h : c.pix.wf = true) :
    (c.setPixel index r g b w).wf = true := by
  unfold Inst.setPixel
  split
  · exact wf_writePixel _ _ _ _ _ _ _ h
  · exact h

/-- A property every write of a fold keeps holds after the fold. -/
theorem foldl_keeps {α β : Type} (P : β → Prop) (f : β → α → β) (l : List α) (b : β) (hb : P b)
    (hf : ∀ b a, a ∈ l → P b → P (f b a)) : P (l.foldl f b) := by
  induction l generalizing b with
  | nil => exact hb
  | cons a l ih =>
    exact ih (f b a) (hf b a List.mem_cons_self hb) fun b x hx => hf b x (List.mem_cons_of_mem _ hx)

theorem wf_fillPixels (o : ColorOrder) (start stop : Nat) (color : Color) (m : Memory) (h : m.wf = true) :
    (fillPixels o start stop color m).wf = true :=
  foldl_keeps (fun m => Memory.wf m = true) _ _ m h fun _ _ _ hb => wf_writePixel _ _ _ _ _ _ _ hb

theorem wf_zeroBytes (n : Nat) (m : Memory) (h : m.wf = true) : (zeroBytes n m).wf = true :=
  foldl_keeps (fun m => Memory.wf m = true) _ _ m h fun _ _ _ hb => Memory.wf_write _ _ _ hb

/-- The bytes of a list of addresses, one for each. -/
theorem Memory.readAll_length (m : Memory) (l : List Nat) (bs : List Byte) (h : m.readAll l = some bs) :
    bs.length = l.length := by
  induction l generalizing bs with
  | nil => simp [Memory.readAll] at h; simp [h.symm]
  | cons a l ih =>
    unfold Memory.readAll at h
    split at h
    · next v vs _ h2 =>
      cases h
      simp [ih vs h2]
    · cases h

theorem Memory.readAll_getElem? (m : Memory) (l : List Nat) (bs : List Byte) (h : m.readAll l = some bs) (k : Nat)
    (a : Nat) (hk : l[k]? = some a) : bs[k]? = m.read a := by
  induction l generalizing bs k with
  | nil => simp at hk
  | cons x l ih =>
    unfold Memory.readAll at h
    split at h
    · next v vs h1 h2 =>
      cases h
      cases k with
      | zero => simp at hk; subst hk; simp [h1]
      | succ k => simp at hk; simpa using ih vs h2 k hk
    · cases h

/-- All bytes are there when each is. -/
theorem Memory.readAll_isSome (m : Memory) (l : List Nat) (h : ∀ a ∈ l, ∃ v, m.read a = some v) :
    ∃ bs, m.readAll l = some bs := by
  induction l with
  | nil => exact ⟨[], rfl⟩
  | cons a l ih =>
    obtain ⟨v, hv⟩ := h a List.mem_cons_self
    obtain ⟨vs, hvs⟩ := ih fun b hb => h b (List.mem_cons_of_mem _ hb)
    exact ⟨v :: vs, by simp [Memory.readAll, hv, hvs]⟩

end Sys2Proof.Machine
end

