-- ==== Sys2Proof/Laws/Encoder.lean ====
section
/-! SUPPORT. The laws of the encoder: how long a stream is, which values it holds, which bytes it reads. -/

namespace Sys2Proof.Machine

theorem woff_length (o : ColorOrder) : (woff o).length = channels o := by cases o <;> rfl

theorem woff_lt (o : ColorOrder) : ∀ k ∈ woff o, k < channels o := by cases o <;> decide

theorem channels_pos (o : ColorOrder) : 0 < channels o := by cases o <;> decide

theorem off_lt (o : ColorOrder) (ch : Channel) (k : Nat) (h : off o ch = some k) : k < channels o := by
  cases o <;> cases ch <;> simp [off] at h <;> subst h <;> decide

theorem wireAddresses_length (cfg : InstCfg) : (wireAddresses cfg).length = pixBytes cfg := by
  simp [wireAddresses, pixBytes, List.length_flatMap, woff_length]

theorem mem_wireAddresses_lt (cfg : InstCfg) (a : Nat) (h : a ∈ wireAddresses cfg) : a < pixBytes cfg := by
  simp only [wireAddresses, List.mem_flatMap, List.mem_range, List.mem_map] at h
  obtain ⟨p, hp, k, hk, rfl⟩ := h
  have h1 := woff_lt cfg.colorOrder k hk
  have h2 : (p + 1) * channels cfg.colorOrder ≤ cfg.ledCount * channels cfg.colorOrder := Nat.mul_le_mul_right _ hp
  unfold pixBytes
  rw [Nat.add_mul] at h2
  omega

@[simp] theorem byteEntries_length (p : Params) (v : Byte) : (byteEntries p v).length = 8 := by simp [byteEntries]

theorem streamOf_length (p : Params) (br : Byte) (bytes : List Byte) :
    (streamOf p br bytes).length = 8 * bytes.length + p.resetCycles := by
  simp [streamOf, List.length_flatMap, Nat.mul_comm]

/-- A stream has `L` entries (R7, R167). -/
theorem encodeStream_length {p : Params} {cfg : InstCfg} {pix : Memory} {br : Byte} {entries : List Nat}
    (h : encodeStream p cfg pix br = some entries) : entries.length = streamLen p cfg := by
  obtain ⟨bytes, hb, rfl⟩ := Option.map_eq_some_iff.1 h
  rw [streamOf_length, Memory.readAll_length _ _ _ hb, wireAddresses_length]
  simp [streamLen, dataEntries, bitsPerPixel, pixBytes]
  ring

/-- Every entry is a duty value of the encoder (R117). -/
theorem mem_encodeStream {p : Params} {cfg : InstCfg} {pix : Memory} {br : Byte} {entries : List Nat}
    (h : encodeStream p cfg pix br = some entries) (d : Nat) (hd : d ∈ entries) :
    d = 0 ∨ d = p.dutyZero ∨ d = p.dutyOne := by
  obtain ⟨bytes, -, rfl⟩ := Option.map_eq_some_iff.1 h
  simp only [streamOf, List.mem_append, List.mem_flatMap, List.mem_replicate, byteEntries, List.mem_map] at hd
  rcases hd with ⟨v, -, k, -, rfl⟩ | ⟨-, rfl⟩
  · unfold bitEntry
    split
    · exact .inr (.inr rfl)
    · exact .inr (.inl rfl)
  · exact .inl rfl

/-- With every byte listed, the encoder answers. -/
theorem encodeStream_isSome {p : Params} {cfg : InstCfg} {pix : Memory} (br : Byte)
    (h : pix.map Prod.fst = List.range (pixBytes cfg)) : ∃ entries, encodeStream p cfg pix br = some entries := by
  obtain ⟨bytes, hb⟩ := Memory.readAll_isSome pix (wireAddresses cfg) fun a ha =>
    Memory.read_isSome_of_mem_keys pix a (by rw [h]; exact List.mem_range.2 (mem_wireAddresses_lt cfg a ha))
  exact ⟨streamOf p br bytes, by simp [encodeStream, hb]⟩

end Sys2Proof.Machine
end

