-- ==== Sys2Proof/Laws/Pixels.lean ====
section
/-! SUPPORT. What the pixel writers leave at each address, that they keep the list of addresses of an allocated memory,
and what reading a pixel gives. -/

namespace Sys2Proof.Machine

theorem off_injective (o : ColorOrder) (ch ch' : Channel) (k : Nat) (h : off o ch = some k) (h' : off o ch' = some k) :
    ch = ch' := by
  cases o <;> cases ch <;> cases ch' <;> simp [off] at h h' <;> first | rfl | omega

/-- Every byte of a pixel is the byte of some channel. -/
theorem off_surjective (o : ColorOrder) (k : Nat) (h : k < channels o) : ∃ ch, off o ch = some k := by
  cases o <;> (have : k = 0 ∨ k = 1 ∨ k = 2 ∨ k = 3 := by simp [channels] at h; omega) <;>
    rcases this with rfl | rfl | rfl | rfl <;>
    first
      | exact ⟨.r, rfl⟩
      | exact ⟨.g, rfl⟩
      | exact ⟨.b, rfl⟩
      | exact ⟨.w, rfl⟩
      | (simp [channels] at h)

/-- `writePixel` puts each channel at its offset (R131). -/
theorem read_writePixel_channel (o : ColorOrder) (p : Nat) (r g b w : Byte) (m : Memory) (ch : Channel) (k : Nat)
    (h : off o ch = some k) :
    (writePixel o p r g b w m).read (p * channels o + k) =
      some (channelValue r g b w ch) := by
  have hsub : p * channels o + k - p * channels o = k := by omega
  have hle : p * channels o ≤ p * channels o + k := by omega
  simp only [writePixel, read_writeChannel, hsub, hle, and_true]
  have hne : ∀ ch', ch' ≠ ch → off o ch' ≠ some k := fun ch' hne he => hne (off_injective o ch' ch k he h)
  cases ch
  · simp [hne .w (by decide), hne .b (by decide), hne .g (by decide), h, channelValue]
  · simp [hne .w (by decide), hne .b (by decide), h, channelValue]
  · simp [hne .w (by decide), h, channelValue]
  · simp [h, channelValue]

/-- `writePixel` writes no byte of another pixel (R131). -/
theorem read_writePixel_outside (o : ColorOrder) (p : Nat) (r g b w : Byte) (m : Memory) (a : Nat)
    (h : ¬ (p * channels o ≤ a ∧ a < p * channels o + channels o)) : (writePixel o p r g b w m).read a = m.read a := by
  have hne : ∀ ch, ¬ (off o ch = some (a - p * channels o) ∧ p * channels o ≤ a) := by
    rintro ch ⟨h1, h2⟩
    have := off_lt o ch _ h1
    omega
  simp only [writePixel, read_writeChannel, hne, if_false]

/-- Reading back a pixel just written, white 0 where the order has none (R140). -/
theorem readPixel_writePixel (o : ColorOrder) (p : Nat) (r g b w : Byte) (m : Memory) :
    readPixel o p (writePixel o p r g b w m) = some (Color.pack r g b (if channels o = 4 then w else 0)) := by
  have key : ∀ ch k, off o ch = some k →
      readChannel o (p * channels o) ch (writePixel o p r g b w m) =
        some (channelValue r g b w ch) := by
    intro ch k h
    simp only [readChannel, h]
    exact read_writePixel_channel o p r g b w m ch k h
  have hw : readChannel o (p * channels o) .w (writePixel o p r g b w m) = some (if channels o = 4 then w else 0) := by
    cases h : off o .w with
    | some k =>
      rw [key .w k h]
      cases o <;> simp [off] at h <;> rfl
    | none =>
      simp only [readChannel, h]
      cases o <;> simp [off] at h <;> rfl
  obtain ⟨kr, hr⟩ : ∃ k, off o .r = some k := by cases o <;> exact ⟨_, rfl⟩
  obtain ⟨kg, hg⟩ : ∃ k, off o .g = some k := by cases o <;> exact ⟨_, rfl⟩
  obtain ⟨kb, hb⟩ : ∃ k, off o .b = some k := by cases o <;> exact ⟨_, rfl⟩
  simp [readPixel, key .r kr hr, key .g kg hg, key .b kb hb, hw, channelValue]

/-- A write inside an allocated memory keeps its addresses. -/
theorem keys_write_range (m : Memory) (n a : Nat) (v : Byte) (h : m.map Prod.fst = List.range n) (ha : a < n) :
    (m.write a v).map Prod.fst = List.range n := by
  rw [Memory.keys_write m a v (Memory.wf_of_keys_range m n h) (by rw [h]; exact List.mem_range.2 ha), h]

theorem keys_writeChannel (o : ColorOrder) (base n : Nat) (ch : Channel) (v : Byte) (m : Memory)
    (h : m.map Prod.fst = List.range n) (hb : base + channels o ≤ n) :
    (writeChannel o base ch v m).map Prod.fst = List.range n := by
  unfold writeChannel
  split
  · next k hk =>
    have := off_lt o ch k hk
    exact keys_write_range m n _ v h (by omega)
  · exact h

theorem pixel_end_le (o : ColorOrder) (p n : Nat) (h : p < n) : p * channels o + channels o ≤ n * channels o := by
  have := Nat.mul_le_mul_right (channels o) (Nat.succ_le_of_lt h)
  rwa [Nat.succ_mul] at this

theorem keys_writePixel (o : ColorOrder) (p n : Nat) (r g b w : Byte) (m : Memory)
    (h : m.map Prod.fst = List.range (n * channels o)) (hp : p < n) :
    (writePixel o p r g b w m).map Prod.fst = List.range (n * channels o) := by
  have hb := pixel_end_le o p n hp
  exact keys_writeChannel _ _ _ _ _ _ (keys_writeChannel _ _ _ _ _ _ (keys_writeChannel _ _ _ _ _ _
    (keys_writeChannel _ _ _ _ _ _ h hb) hb) hb) hb

theorem keys_setPixel (c : Inst) (index : Index) (r g b w : Byte) (h : c.pix.map Prod.fst = List.range (pixBytes c.cfg)) :
    (c.setPixel index r g b w).map Prod.fst = List.range (pixBytes c.cfg) := by
  unfold Inst.setPixel
  split
  · next hlt => exact keys_writePixel _ _ _ _ _ _ _ _ h hlt
  · exact h

theorem keys_fillPixels (o : ColorOrder) (start stop n : Nat) (color : Color) (m : Memory)
    (h : m.map Prod.fst = List.range (n * channels o)) (hs : stop ≤ n) :
    (fillPixels o start stop color m).map Prod.fst = List.range (n * channels o) := by
  refine foldl_keeps (fun m : Memory => m.map Prod.fst = List.range (n * channels o)) _ _ m h fun m p hp hm => ?_
  rw [List.mem_range'_1] at hp
  exact keys_writePixel o p n _ _ _ _ m hm (by omega)

theorem keys_zeroBytes (n : Nat) (m : Memory) (h : m.map Prod.fst = List.range n) :
    (zeroBytes n m).map Prod.fst = List.range n :=
  foldl_keeps (fun m : Memory => m.map Prod.fst = List.range n) _ _ m h fun m a ha hm =>
    keys_write_range m n a 0 hm (List.mem_range.1 ha)

/-- What zeroing the first `n` bytes leaves (R138). -/
theorem read_zeroBytes (n : Nat) (m : Memory) (a : Nat) : (zeroBytes n m).read a = if a < n then some 0 else m.read a := by
  induction n with
  | zero => simp [zeroBytes]
  | succ n ih =>
    have : zeroBytes (n + 1) m = (zeroBytes n m).write n 0 := by simp [zeroBytes, List.range_succ]
    rw [this, Memory.read_write, ih]
    split_ifs <;> first | rfl | omega

/-- One more pixel filled. -/
theorem fillPixels_succ (o : ColorOrder) (start n : Nat) (color : Color) (m : Memory) :
    fillPixels o start (start + (n + 1)) color m =
      writePixel o (start + n) (Color.red color) (Color.green color) (Color.blue color) (Color.white color)
        (fillPixels o start (start + n) color m) := by
  have h1 : start + (n + 1) - start = n + 1 := by omega
  have h2 : start + n - start = n := by omega
  simp [fillPixels, h1, h2, List.range'_concat]

/-- What filling pixels `start .. start + n - 1` leaves at a channel of one of them. -/
theorem read_fillPixels_channel (o : ColorOrder) (start n : Nat) (color : Color) (m : Memory) (p : Nat) (ch : Channel)
    (k : Nat) (h1 : start ≤ p) (h2 : p < start + n) (hk : off o ch = some k) :
    (fillPixels o start (start + n) color m).read (p * channels o + k) =
      some (channelValue (Color.red color) (Color.green color) (Color.blue color) (Color.white color) ch) := by
  induction n with
  | zero => omega
  | succ n ih =>
    rw [fillPixels_succ]
    by_cases hp : p = start + n
    · subst hp
      exact read_writePixel_channel o _ _ _ _ _ _ ch k hk
    · rw [read_writePixel_outside]
      · exact ih (by omega)
      · have hlt := off_lt o ch k hk
        have := pixel_end_le o p (start + n) (by omega)
        omega

/-- What filling pixels `start .. start + n - 1` leaves elsewhere. -/
theorem read_fillPixels_outside (o : ColorOrder) (start n : Nat) (color : Color) (m : Memory) (a : Nat)
    (h : ¬ (start ≤ a / channels o ∧ a / channels o < start + n)) :
    (fillPixels o start (start + n) color m).read a = m.read a := by
  induction n with
  | zero => simp [fillPixels]
  | succ n ih =>
    rw [fillPixels_succ, read_writePixel_outside]
    · exact ih (by omega)
    · rintro ⟨h1, h2⟩
      have hpos := channels_pos o
      have h3 : start + n ≤ a / channels o := (Nat.le_div_iff_mul_le hpos).2 h1
      have h4 : a / channels o < start + n + 1 := by
        rw [Nat.div_lt_iff_lt_mul hpos, Nat.add_mul, Nat.one_mul]
        exact h2
      omega

/-- An empty range writes nothing (R137). -/
theorem fillPixels_of_le (o : ColorOrder) (start stop : Nat) (color : Color) (m : Memory) (h : stop ≤ start) :
    fillPixels o start stop color m = m := by
  simp [fillPixels, Nat.sub_eq_zero_of_le h]

/-- An allocated pixel has a Color. -/
theorem readPixel_isSome (cfg : InstCfg) (m : Memory) (p : Nat) (h : m.map Prod.fst = List.range (pixBytes cfg))
    (hp : p < cfg.ledCount) : ∃ color, readPixel cfg.colorOrder p m = some color := by
  have key : ∀ ch, ∃ v, readChannel cfg.colorOrder (p * channels cfg.colorOrder) ch m = some v := by
    intro ch
    cases hk : off cfg.colorOrder ch with
    | none => exact ⟨0, by simp [readChannel, hk]⟩
    | some k =>
      obtain ⟨v, hv⟩ := Memory.read_isSome_of_mem_keys m (p * channels cfg.colorOrder + k) (by
        rw [h]
        have h1 := off_lt _ _ _ hk
        have h2 := pixel_end_le cfg.colorOrder p cfg.ledCount hp
        exact List.mem_range.2 (by unfold pixBytes; omega))
      exact ⟨v, by simp [readChannel, hk, hv]⟩
  obtain ⟨r, hr⟩ := key .r
  obtain ⟨g, hg⟩ := key .g
  obtain ⟨b, hb⟩ := key .b
  obtain ⟨w, hw⟩ := key .w
  exact ⟨Color.pack r g b w, by simp only [readPixel, hr, hg, hb, hw, Option.bind_some]⟩

end Sys2Proof.Machine
end

