-- ==== Sys2Proof/Laws/Invariant.lean ====
section
/-! SUPPORT. The bricks of the invariant: what the configuration check gives, how one update of one instance keeps the
invariant, and that each update of an instance keeps that instance's part of it. -/

namespace Sys2Proof.Safety

open Sys2Proof.Machine

/-! What an admitted configuration gives (R8). -/

/-- The constraints of `paramsOk`, by name. -/
structure ParamsFacts (p : Params) : Prop where
  zeroPos : 0 < p.dutyZero
  zeroLtOne : p.dutyZero < p.dutyOne
  oneLtPeriod : p.dutyOne < p.periodTicks
  oneFits : p.dutyOne < 2 ^ dutyBits p.dutyWidth
  cycles : 1 + lagPeriods p.ccrLag ≤ p.resetCycles
  thresholdPos : 1 ≤ p.resetThresholdUs
  thresholdFits : p.resetThresholdUs < 2 ^ p.timeWidth
  bright : p.brightnessInit ≤ 255

theorem paramsFacts {p : Params} (h : paramsOk p = true) : ParamsFacts p := by
  simp only [paramsOk, Bool.and_eq_true, decide_eq_true_eq] at h
  obtain ⟨⟨⟨⟨⟨⟨⟨⟨h1, h2⟩, h3⟩, h4⟩, h5⟩, h6⟩, h7⟩, -⟩, h9⟩ := h
  exact ⟨h1, h2, h3, h4, h5, h6, h7, h9⟩

theorem paramsFacts_of_configOk {s : State} (h : s.configOk = true) : ParamsFacts s.params := by
  simp only [State.configOk, Machine.configOk, Bool.and_eq_true] at h
  exact paramsFacts h.1.1.1.2

/-- An encoder's duty value fits `DUTY_WIDTH` bits. -/
theorem LegalDuty.lt {p : Params} {d : Nat} (hp : ParamsFacts p) (h : LegalDuty p d) : d < 2 ^ dutyBits p.dutyWidth := by
  have := hp.oneFits
  have := hp.zeroLtOne
  rcases h with rfl | rfl | rfl <;> omega

/-- A stream is not empty. -/
theorem streamLen_pos {p : Params} (hp : ParamsFacts p) (cfg : InstCfg) : 0 < streamLen p cfg := by
  have := hp.cycles
  unfold streamLen
  omega

/-- A machine that runs takes the turn of the next agent. -/
theorem step_of_running {s : State} (h : Running s) : step s = agentTurn s.nextAgent s.takeTurn := by
  simp [step, h.1, runTurn, h.2]

/-! The phase `CUR` holds. -/

@[simp] theorem showPhase_none (i : InstNo) : showPhase none i = none := rfl

@[simp] theorem showPhase_showAt_self (i : InstNo) (ph : Phase) : showPhase (showAt i ph) i = some ph := by
  simp [showPhase, showAt]

theorem showPhase_showAt_of_ne {i j : InstNo} (ph : Phase) (h : j ≠ i) : showPhase (showAt i ph) j = none := by
  simp [showPhase, showAt, Ne.symm h]

theorem cur_eq_showAt {k : Cur} {ph : Phase} (h1 : k.opcode = .showFrame) (h2 : k.phase = some ph) :
    some k = showAt k.inst ph := by
  cases k
  simp_all [showAt]

/-- Two values of `CUR` that hold no SHOW, or a SHOW of `i`, hold the same phase of any other instance. -/
theorem showPhase_showAt_other {i j : InstNo} (ph ph' : Phase) (h : j ≠ i) :
    showPhase (showAt i ph) j = showPhase (showAt i ph') j := by
  rw [showPhase_showAt_of_ne ph h, showPhase_showAt_of_ne ph' h]

/-! Updates of the state. -/

/-- Changing one instance and `CUR`. -/
theorem Inv.update {s t : State} {i : InstNo} {c c' : Inst} (h : Inv s) (hc : s.inst? i = some c)
    (hcfg : c'.cfg = c.cfg) (hinsts : t.insts = s.insts.set i.toNat c') (hp : t.params = s.params)
    (hi : InstInv s.params (showPhase t.cur i) c')
    (hother : ∀ j, j ≠ i → showPhase t.cur j = showPhase s.cur j)
    (hcur : ∀ k, t.cur = some k → k.opcode = .showFrame ∧ k.phase ≠ none ∧ k.inst = i)
    (hf : t.faults = s.faults) (hs : t.faults ≠ [] → t.cur = none) : Inv t := by
  have hinst : ∀ j, t.inst? j = (s.setInst i c').inst? j := fun j => by simp [State.inst?, hinsts]
  refine ⟨?_, ?_, ?_, hf ▸ h.faults, hs⟩
  · have hcfgs : t.cfgs = s.cfgs := by
      rw [show t.cfgs = (s.setInst i c').cfgs by simp [State.cfgs, hinsts]]
      exact State.cfgs_setInst hc hcfg
    rw [State.configOk, hcfgs, hp]
    exact h.config
  · intro j d hd
    rw [hinst] at hd
    rw [hp]
    rcases State.inst?_setInst_cases hd with ⟨rfl, rfl⟩ | ⟨hne, hd⟩
    · exact hi
    · rw [hother j hne]
      exact h.insts j d hd
  · intro k hk
    obtain ⟨h1, h2, h3⟩ := hcur k hk
    refine ⟨h1, h2, c', ?_⟩
    rw [hinst, h3]
    exact State.inst?_setInst_self s i c' c hc

/-- Changing neither an instance nor `CUR`. -/
theorem Inv.same_insts {s t : State} (h : Inv s) (hi : t.insts = s.insts) (hp : t.params = s.params) (hc : t.cur = s.cur)
    (hf : t.faults.Nodup) (hs : t.faults ≠ [] → t.cur = none) : Inv t := by
  refine ⟨?_, ?_, ?_, hf, hs⟩
  · rw [State.configOk, State.cfgs, hi, hp]
    exact h.config
  · intro i c hic
    rw [hp, hc]
    exact h.insts i c (by simpa [State.inst?, hi] using hic)
  · intro k hk
    rw [hc] at hk
    simpa [State.inst?, hi] using h.cur k hk

theorem Inv.takeTurn {s : State} (h : Inv s) : Inv s.takeTurn :=
  h.same_insts (by simp) (by simp) (by simp) (by simpa using h.faults) (by simpa using h.stopped)

theorem Inv.refuse {s : State} (h : Inv s) (r : RefuseReason) : Inv (s.refuse r) :=
  h.same_insts rfl rfl rfl h.faults h.stopped

theorem Inv.raise {s : State} (h : Inv s) (f : FaultRecord) (hc : s.cur = none) : Inv (s.raise f) := by
  refine h.same_insts rfl rfl rfl ?_ fun _ => hc
  rw [State.raise_faults]
  split_ifs with hm
  · exact h.faults
  · rw [List.nodup_append]
    refine ⟨h.faults, List.nodup_singleton _, ?_⟩
    intro a ha b hb
    rw [List.mem_singleton] at hb
    subst hb
    rintro rfl
    exact hm ha

/-- Returning a value from a command while no command is under way. -/
theorem Inv.ret {s : State} (h : Inv s) (v : Result) (hc : s.cur = none) : Inv (s.ret v) :=
  h.same_insts rfl rfl (by simp [hc]) h.faults fun _ => rfl

/-- Changing `CUR` only, to a SHOW of `i`. -/
theorem Inv.setCur {s t : State} {i : InstNo} {c : Inst} {ph : Phase} (h : Inv s) (hc : s.inst? i = some c)
    (hcur : s.cur = none) (hinsts : t.insts = s.insts) (hp : t.params = s.params) (ht : t.cur = showAt i ph)
    (hi : InstInv s.params (some ph) c) (hf : t.faults = []) (hsf : s.faults = []) : Inv t := by
  have hset : s.insts.set i.toNat c = s.insts := by
    apply List.ext_getElem?
    intro k
    rw [List.getElem?_set]
    split
    · next e =>
      subst e
      unfold State.inst? at hc
      have hlt : i.toNat < s.insts.length := by
        by_contra hn
        simp [List.getElem?_eq_none (Nat.le_of_not_lt hn)] at hc
      rw [if_pos hlt, hc]
    · rfl
  refine h.update hc (c' := c) rfl (by rw [hset, hinsts]) hp ?_ ?_ ?_ (by rw [hf, hsf]) (by simp [hf])
  · rw [ht, showPhase_showAt_self]
    exact hi
  · intro j hj
    rw [ht, showPhase_showAt_of_ne ph hj, hcur, showPhase_none]
  · intro k hk
    rw [ht, showAt, Option.some.injEq] at hk
    subst hk
    simp

/-- A command that changes one instance and returns. -/
theorem Inv.setInst_ret {s : State} {i : InstNo} {c c' : Inst} (h : Inv s) (hc : s.inst? i = some c)
    (hcur : s.cur = none) (hi : InstInv s.params none c') (hcfg : c'.cfg = c.cfg) (v : Result) :
    Inv ((s.setInst i c').ret v) :=
  h.update hc hcfg rfl rfl hi (fun j _ => by simp [hcur]) (fun k hk => by cases hk) rfl fun _ => rfl

/-! Updates of an instance. -/

/-- The instance's part of the invariant while no command is under way. -/
theorem Inv.inst_of_cur_none {s : State} {i : InstNo} {c : Inst} (h : Inv s) (hc : s.inst? i = some c)
    (hcur : s.cur = none) : InstInv s.params none c := by
  have := h.insts i c hc
  rwa [hcur] at this

theorem InstInv.writePix {p : Params} {c : Inst} (h : InstInv p none c) (hr : c.init = .ready) (m : Memory)
    (hm : m.map Prod.fst = List.range (pixBytes c.cfg)) : InstInv p none { c with pix := m } where
  phase := h.phase
  allocated := fun hr => ⟨hm, (h.allocated hr).2⟩
  released := fun hu => by simp [hr] at hu
  index := h.index
  count := h.count
  ccr := h.ccr
  act := h.act
  tLast := h.tLast
  wire := h.wire

theorem InstInv.writeBright {p : Params} {c : Inst} (h : InstInv p none c) (b : Byte) :
    InstInv p none { c with bright := b } where
  phase := h.phase
  allocated := h.allocated
  released := h.released
  index := h.index
  count := h.count
  ccr := h.ccr
  act := h.act
  tLast := h.tLast
  wire := h.wire

theorem InstInv.begun {p : Params} {c : Inst} (draw : Nat) (h : InstInv p none c) : InstInv p none (c.begun draw p) where
  phase := ⟨rfl, ⟨rfl, rfl, rfl⟩, fun _ => rfl⟩
  allocated := fun _ => by
    refine ⟨by simp [drawnPixels, Function.comp_def], by simp [drawnStream], fun d hd => ?_⟩
    simp only [Inst.begun_stream, drawnStream, List.mem_map] at hd
    obtain ⟨j, -, rfl⟩ := hd
    exact Nat.mod_lt _ (by positivity)
  released := fun hu => by cases hu
  index := Nat.zero_le _
  count := Nat.zero_le _
  ccr := by simp
  act := by simp
  tLast := fun t ht => by cases ht
  wire := h.wire

theorem InstInv.ended {p : Params} {c : Inst} (h : InstInv p none c) : InstInv p none c.ended where
  phase := ⟨h.phase.1, h.phase.2.1, fun hr => by cases hr⟩
  allocated := fun hr => by cases hr
  released := fun _ => .inl ⟨rfl, rfl⟩
  index := h.index
  count := h.count
  ccr := h.ccr
  act := h.act
  tLast := h.tLast
  wire := h.wire

/-- Power-on (R56, R260). -/
theorem InstInv.powerOn (p : Params) (cfg : InstCfg) : InstInv p none (Inst.powerOn p cfg) where
  phase := ⟨rfl, ⟨rfl, rfl, rfl⟩, fun hr => by cases hr⟩
  allocated := fun hr => by cases hr
  released := fun _ => by
    refine .inr ⟨powerOnPixels_keys cfg, by simp [powerOnStream], fun d hd => ?_⟩
    rw [Inst.powerOn_stream, powerOnStream] at hd
    rw [List.eq_of_mem_replicate hd]
    positivity
  index := Nat.zero_le _
  count := Nat.zero_le _
  ccr := by simp
  act := by simp
  tLast := fun t ht => by cases ht
  wire := fun d hd => by cases hd

/-- SHOW's issuing step (R193). -/
theorem InstInv.showIssued {p : Params} {c : Inst} (h : InstInv p none c) (hr : c.init = .ready) :
    InstInv p (some .waitReset) c where
  phase := ⟨hr, h.phase⟩
  allocated := h.allocated
  released := h.released
  index := h.index
  count := h.count
  ccr := h.ccr
  act := h.act
  tLast := h.tLast
  wire := h.wire

/-- WAIT_RESET (R194). -/
theorem InstInv.waitReset {p : Params} {c : Inst} (h : InstInv p (some .waitReset) c) :
    InstInv p (some .encode) { c with state := .encoding } where
  phase := ⟨h.phase.1, rfl, h.phase.2.2.1, h.phase.2.2.2 h.phase.1⟩
  allocated := h.allocated
  released := h.released
  index := h.index
  count := h.count
  ccr := h.ccr
  act := h.act
  tLast := h.tLast
  wire := h.wire

/-- ENCODE (R195). -/
theorem InstInv.encode {p : Params} {c : Inst} (hp : ParamsFacts p) (h : InstInv p (some .encode) c)
    {entries : List Nat} (he : encodeStream p c.cfg c.pix c.bright = some entries) :
    InstInv p (some .arm) { c with stream := entries } where
  phase := ⟨h.phase, he⟩
  allocated := fun hr => ⟨(h.allocated hr).1, encodeStream_length he, fun d hd => LegalDuty.lt hp (mem_encodeStream he d hd)⟩
  released := fun hu => by
    have := h.phase.1
    simp_all
  index := h.index
  count := h.count
  ccr := h.ccr
  act := h.act
  tLast := h.tLast
  wire := h.wire

/-- ARM (R196). -/
theorem InstInv.arm {p : Params} {c : Inst} (hp : ParamsFacts p) (h : InstInv p (some .arm) c) :
    InstInv p (some .waitDone) (c.armed p) where
  phase := by
    have hpos := streamLen_pos hp c.cfg
    refine ⟨h.phase.1.1, rfl, rfl, rfl, rfl, by simp, by simp [hpos], by simp; omega, h.phase.2, rfl, rfl⟩
  allocated := h.allocated
  released := fun hu => by
    have := h.phase.1.1
    simp_all
  index := Nat.zero_le _
  count := le_refl _
  ccr := by simp
  act := by simp
  tLast := h.tLast
  wire := h.wire

/-- WAIT_DONE (R197). -/
theorem InstInv.waitDone {p : Params} {c : Inst} (h : InstInv p (some .waitDone) c) (now : Nat)
    (hn : now < 2 ^ p.timeWidth) : InstInv p none (c.disarmed now) where
  phase := ⟨rfl, ⟨rfl, rfl, rfl⟩, fun _ => rfl⟩
  allocated := h.allocated
  released := h.released
  index := h.index
  count := h.count
  ccr := h.ccr
  act := h.act
  tLast := fun t ht => by
    simp only [Inst.disarmed_tLast, Option.some.injEq] at ht
    exact ht ▸ hn
  wire := h.wire

/-- An entry of an encoded stream is a duty value of the encoder, and so is the compare register of a transmission. -/
theorem TransmittingOk.legal_ccr {p : Params} {c : Inst} (h : TransmittingOk p c) : LegalDuty p c.ccr := by
  obtain ⟨-, -, -, -, -, -, -, -, he, hccr, -⟩ := h
  have hm : c.ccr ∈ (0 :: c.stream) := List.mem_of_getElem? hccr
  rcases List.mem_cons.1 hm with h0 | hm
  · exact .inl h0
  · exact mem_encodeStream he _ hm

/-- A generator that runs is one between ARM and WAIT_DONE. -/
theorem InstInv.phase_of_running {p : Params} {ph : Option Phase} {c : Inst} (h : InstInv p ph c) (hr : c.tgRun = true) :
    ph = some .waitDone := by
  have hph := h.phase
  match ph with
  | none => simp [hph.2.1.1] at hr
  | some .waitReset => simp [hph.2.2.1.1] at hr
  | some .encode => simp [hph.2.2.1.1] at hr
  | some .arm => simp [hph.1.2.2.1.1] at hr
  | some .waitDone => rfl

/-- The transfer of a period keeps what a transmission is like, but for `ACT`. -/
theorem TransmittingOk.transferred {p : Params} {c : Inst} {d left : Nat} (h : TransmittingOk p c)
    (hd : c.stream[c.xfIdx]? = some d) (hl : c.xfCnt = left + 1) :
    (c.transferred d left).xfIdx + (c.transferred d left).xfCnt = streamLen p c.cfg ∧
    ((c.transferred d left).xfEn = true ↔ 0 < (c.transferred d left).xfCnt) ∧
    ((c.transferred d left).xfTc = true ↔ (c.transferred d left).xfCnt = 0) ∧
    (0 :: (c.transferred d left).stream)[(c.transferred d left).xfIdx]? = some (c.transferred d left).ccr := by
  obtain ⟨-, -, -, -, -, hsum, hen, htc, -, -, -⟩ := h
  simp only [Inst.transferred_xfIdx, Inst.transferred_xfCnt, Inst.transferred_xfEn, Inst.transferred_xfTc,
    Inst.transferred_stream, Inst.transferred_ccr]
  refine ⟨by omega, ?_, ?_, by simpa using hd⟩
  · by_cases h0 : left = 0
    · simp [h0]
    · simp [h0, hen, hl]
      omega
  · by_cases h0 : left = 0
    · simp [h0]
    · simp [h0, htc, hl]

/-- The step of a timing generator (R205). -/
theorem InstInv.period {p : Params} {c c' : Inst} {i : InstNo} (hp : ParamsFacts p)
    (h : InstInv p (some .waitDone) c) (ht : c.transfer i = .ok c') :
    InstInv p (some .waitDone) (c'.produce p.ccrLag) := by
  have hph : TransmittingOk p c := h.phase
  obtain ⟨hr, hst, hrun, hdreq, hpin, hsum, hen, htc, he, hccr, hact⟩ := id hph
  have hc' : c'.cfg = c.cfg ∧ c'.init = c.init ∧ c'.state = c.state ∧ c'.tgRun = c.tgRun ∧ c'.tgDreq = c.tgDreq
      ∧ c'.pinMode = c.pinMode ∧ c'.stream = c.stream ∧ c'.pix = c.pix ∧ c'.bright = c.bright ∧ c'.act = c.act
      ∧ c'.wire = c.wire ∧ c'.tLast = c.tLast
      ∧ c'.xfIdx + c'.xfCnt = streamLen p c.cfg ∧ (c'.xfEn = true ↔ 0 < c'.xfCnt) ∧ (c'.xfTc = true ↔ c'.xfCnt = 0)
      ∧ (0 :: c'.stream)[c'.xfIdx]? = some c'.ccr := by
    rcases Inst.transfer_ok ht with ⟨-, -, d, left, hd, hl, rfl⟩ | ⟨-, rfl⟩
    · exact ⟨rfl, rfl, rfl, rfl, rfl, rfl, rfl, rfl, rfl, rfl, rfl, rfl, hph.transferred hd hl⟩
    · exact ⟨rfl, rfl, rfl, rfl, rfl, rfl, rfl, rfl, rfl, rfl, rfl, rfl, hsum, hen, htc, hccr⟩
  obtain ⟨e1, e2, e3, e4, e5, e6, e7, e8, e9, e10, e11, e12, f1, f2, f3, f4⟩ := hc'
  have hph' : TransmittingOk p (c'.produce p.ccrLag) := by
    refine ⟨?_, ?_, ?_, ?_, ?_, ?_, ?_, ?_, ?_, ?_, ?_⟩ <;> simp_all [Encoded]
  have hlegal := hph'.legal_ccr
  refine ⟨hph', ?_, ?_, ?_, ?_, ?_, ?_, ?_, ?_⟩
  · intro _
    have := h.allocated hr
    simpa [Allocated, e1, e7, e8] using this
  · intro hu
    simp [e2, hr] at hu
  · simp [e1]
    omega
  · simp [e1]
    omega
  · exact hlegal.lt hp
  · simpa using hlegal.lt hp
  · simpa [e12] using h.tLast
  · intro d hd
    have hold := hph.legal_ccr
    cases hlag : p.ccrLag
    · rw [hlag] at hd hlegal
      simp only [Inst.produce_wire_lag0, e6, hpin, if_true, e11, List.mem_append, List.mem_singleton] at hd
      rcases hd with hd | rfl
      · exact h.wire d hd
      · simpa using hlegal
    · rw [hlag] at hd
      simp only [Inst.produce_wire_lag1, e6, hpin, if_true, e11, List.mem_append, List.mem_singleton] at hd
      rcases hd with hd | rfl
      · exact h.wire d hd
      · rw [e10, hact]
        exact hold

end Sys2Proof.Safety
end

