-- ==== Sys2Proof/Laws/PerInstr.lean ====
section
/-! SUPPORT. The family EncodingFields: the word of a command carries its opcode and its instance, and a zero reserved
field (30_encoding R101, R103). -/

namespace Sys2Proof.Laws.EncodingFields

theorem opc_ofFields (opc : BitVec 8) (inst : InstNo) (a b : Index) (d : Color) :
    Word.opc (Word.ofFields opc inst a b d) = opc := by
  change BitVec.extractLsb' (n := 8 + 8 + 16 + 16 + 16 + 32) 88 8 (opc ++ inst ++ a ++ b ++ 0#16 ++ d) = opc
  apply BitVec.eq_of_getLsbD_eq
  intro k hk
  simp only [BitVec.getLsbD_extractLsb', BitVec.getLsbD_append, hk, decide_true, Bool.true_and]
  rw [if_neg (by omega : ¬ (88 + k < 32)),
    if_neg (by omega : ¬ (88 + k - 32 < 16)),
    if_neg (by omega : ¬ (88 + k - 32 - 16 < 16)),
    if_neg (by omega : ¬ (88 + k - 32 - 16 - 16 < 16)),
    if_neg (by omega : ¬ (88 + k - 32 - 16 - 16 - 16 < 8))]
  congr 1
  omega

theorem inst_ofFields (opc : BitVec 8) (inst : InstNo) (a b : Index) (d : Color) :
    Word.inst (Word.ofFields opc inst a b d) = inst := by
  change BitVec.extractLsb' (n := 8 + 8 + 16 + 16 + 16 + 32) 80 8 (opc ++ inst ++ a ++ b ++ 0#16 ++ d) = inst
  apply BitVec.eq_of_getLsbD_eq
  intro k hk
  simp only [BitVec.getLsbD_extractLsb', BitVec.getLsbD_append, hk, decide_true, Bool.true_and]
  rw [if_neg (by omega : ¬ (80 + k < 32)),
    if_neg (by omega : ¬ (80 + k - 32 < 16)),
    if_neg (by omega : ¬ (80 + k - 32 - 16 < 16)),
    if_neg (by omega : ¬ (80 + k - 32 - 16 - 16 < 16)),
    if_pos (by omega : 80 + k - 32 - 16 - 16 - 16 < 8)]
  congr 1
  omega

theorem fieldA_ofFields (opc : BitVec 8) (inst : InstNo) (a b : Index) (d : Color) :
    Word.fieldA (Word.ofFields opc inst a b d) = a := by
  change BitVec.extractLsb' (n := 8 + 8 + 16 + 16 + 16 + 32) 64 16 (opc ++ inst ++ a ++ b ++ 0#16 ++ d) = a
  apply BitVec.eq_of_getLsbD_eq
  intro k hk
  simp only [BitVec.getLsbD_extractLsb', BitVec.getLsbD_append, hk, decide_true, Bool.true_and]
  rw [if_neg (by omega : ¬ (64 + k < 32)),
    if_neg (by omega : ¬ (64 + k - 32 < 16)),
    if_neg (by omega : ¬ (64 + k - 32 - 16 < 16)),
    if_pos (by omega : 64 + k - 32 - 16 - 16 < 16)]
  congr 1
  omega

theorem fieldB_ofFields (opc : BitVec 8) (inst : InstNo) (a b : Index) (d : Color) :
    Word.fieldB (Word.ofFields opc inst a b d) = b := by
  change BitVec.extractLsb' (n := 8 + 8 + 16 + 16 + 16 + 32) 48 16 (opc ++ inst ++ a ++ b ++ 0#16 ++ d) = b
  apply BitVec.eq_of_getLsbD_eq
  intro k hk
  simp only [BitVec.getLsbD_extractLsb', BitVec.getLsbD_append, hk, decide_true, Bool.true_and]
  rw [if_neg (by omega : ¬ (48 + k < 32)),
    if_neg (by omega : ¬ (48 + k - 32 < 16)),
    if_pos (by omega : 48 + k - 32 - 16 < 16)]
  congr 1
  omega

theorem rsv_ofFields (opc : BitVec 8) (inst : InstNo) (a b : Index) (d : Color) :
    Word.rsv (Word.ofFields opc inst a b d) = 0 := by
  change BitVec.extractLsb' (n := 8 + 8 + 16 + 16 + 16 + 32) 32 16 (opc ++ inst ++ a ++ b ++ 0#16 ++ d) = 0
  apply BitVec.eq_of_getLsbD_eq
  intro k hk
  simp only [BitVec.getLsbD_extractLsb', BitVec.getLsbD_append, hk, decide_true, Bool.true_and]
  rw [if_neg (by omega : ¬ (32 + k < 32)),
    if_pos (by omega : 32 + k - 32 < 16)]
  simp

theorem fieldD_ofFields (opc : BitVec 8) (inst : InstNo) (a b : Index) (d : Color) :
    Word.fieldD (Word.ofFields opc inst a b d) = d := by
  change BitVec.extractLsb' (n := 8 + 8 + 16 + 16 + 16 + 32) 0 32 (opc ++ inst ++ a ++ b ++ 0#16 ++ d) = d
  apply BitVec.eq_of_getLsbD_eq
  intro k hk
  simp only [BitVec.getLsbD_extractLsb', BitVec.getLsbD_append, hk, decide_true, Bool.true_and]
  rw [if_pos (by omega : 0 + k < 32)]
  congr 1
  omega

/-- What the fields every format shares hold in the word of `i`. -/
def Statement (i : Instr) : Prop :=
  Word.opc (encode i) = i.opcode.code ∧ Word.inst (encode i) = i.inst ∧ Word.rsv (encode i) = 0

theorem of_ofFields {i : Instr} {a b : Index} {d : Color}
    (h : encode i = Word.ofFields i.opcode.code i.inst a b d) : Statement i := by
  unfold Statement
  rw [h]
  exact ⟨opc_ofFields _ _ _ _ _, inst_ofFields _ _ _ _ _, rsv_ofFields _ _ _ _ _⟩

theorem beginCtl (inst : InstNo) : Statement (.beginCtl inst) := of_ofFields rfl
theorem endCtl (inst : InstNo) : Statement (.endCtl inst) := of_ofFields rfl
theorem setPixelRgb (inst : InstNo) (index : Index) (r g b : Byte) : Statement (.setPixelRgb inst index r g b) := of_ofFields rfl
theorem setPixelRgbw (inst : InstNo) (index : Index) (r g b w : Byte) : Statement (.setPixelRgbw inst index r g b w) := of_ofFields rfl
theorem setPixelColor (inst : InstNo) (index : Index) (color : Color) : Statement (.setPixelColor inst index color) := of_ofFields rfl
theorem getPixelColor (inst : InstNo) (index : Index) : Statement (.getPixelColor inst index) := of_ofFields rfl
theorem fill (inst : InstNo) (color : Color) : Statement (.fill inst color) := of_ofFields rfl
theorem fillRange (inst : InstNo) (start count : Index) (color : Color) : Statement (.fillRange inst start count color) := of_ofFields rfl
theorem clear (inst : InstNo) : Statement (.clear inst) := of_ofFields rfl
theorem setBrightness (inst : InstNo) (brightness : Byte) : Statement (.setBrightness inst brightness) := of_ofFields rfl
theorem getCount (inst : InstNo) : Statement (.getCount inst) := of_ofFields rfl
theorem showFrame (inst : InstNo) : Statement (.showFrame inst) := of_ofFields rfl
theorem canShow (inst : InstNo) : Statement (.canShow inst) := of_ofFields rfl
theorem isBusy (inst : InstNo) : Statement (.isBusy inst) := of_ofFields rfl
theorem wait (inst : InstNo) : Statement (.wait inst) := of_ofFields rfl

end Sys2Proof.Laws.EncodingFields
end

