-- ==== Sys2Proof/Tests/Slice0.lean ====
section
/-! SUPPORT. Tests: words written out from 30_encoding, the vectors of 95_test_vectors, ill-formed terms for each check,
and for each statement with hypotheses a state that meets them. -/

namespace Sys2Proof.Tests

open Sys2Proof.Machine Sys2Proof.Safety

/-! ## Decoding: words written out from R101, R103, R105; the reserved words of vector 2.11 -/

theorem test_decode_begin : decode 0x010000000000000000000000#96 = .ok (.beginCtl 0) := by decide
theorem test_decode_end : decode 0x020700000000000000000000#96 = .ok (.endCtl 7) := by decide
theorem test_decode_set_pixel_rgb :
    decode 0x100000000000000000FF0080#96 = .ok (.setPixelRgb 0 0 0xFF 0x00 0x80) := by decide
theorem test_decode_set_pixel_rgbw :
    decode 0x110201030000000044112233#96 = .ok (.setPixelRgbw 2 0x0103 0x11 0x22 0x33 0x44) := by decide
theorem test_decode_set_pixel_color :
    decode 0x120000010000000044112233#96 = .ok (.setPixelColor 0 1 0x44112233) := by decide
theorem test_decode_get_pixel_color : decode 0x130000020000000000000000#96 = .ok (.getPixelColor 0 2) := by decide
theorem test_decode_fill : decode 0x1400000000000000000000FF#96 = .ok (.fill 0 0xFF) := by decide
theorem test_decode_fill_range : decode 0x15000001000500008040FF01#96 = .ok (.fillRange 0 1 5 0x8040FF01) := by decide
theorem test_decode_clear : decode 0x160000000000000000000000#96 = .ok (.clear 0) := by decide
theorem test_decode_set_brightness : decode 0x170000000000000000000080#96 = .ok (.setBrightness 0 0x80) := by decide
theorem test_decode_get_count : decode 0x190000000000000000000000#96 = .ok (.getCount 0) := by decide
theorem test_decode_show : decode 0x200100000000000000000000#96 = .ok (.showFrame 1) := by decide
theorem test_decode_can_show : decode 0x210000000000000000000000#96 = .ok (.canShow 0) := by decide
theorem test_decode_is_busy : decode 0x220000000000000000000000#96 = .ok (.isBusy 0) := by decide
theorem test_decode_wait : decode 0x23FF00000000000000000000#96 = .ok (.wait 255) := by decide
theorem test_decode_reserved_opcode : decode 0x180500000000000000000000#96 = .error .unlistedOpcode := by decide
theorem test_decode_zero_word : decode 0x000000000000000000000000#96 = .error .unlistedOpcode := by decide
theorem test_decode_brightness_high_bits : decode 0x170000000000000000000100#96 = .error .reservedNotZero := by decide
theorem test_decode_rgb_white : decode 0x100000000000000001000000#96 = .error .reservedNotZero := by decide
theorem test_decode_get_b_field : decode 0x130000000001000000000000#96 = .error .reservedNotZero := by decide
theorem test_decode_clear_rsv : decode 0x160000000000000100000000#96 = .error .reservedNotZero := by decide
theorem test_encode_fill_range : encode (.fillRange 0 1 5 0x8040FF01) = 0x15000001000500008040FF01#96 := by decide
theorem test_table_word : decodeTableWord 96 0x230000000000000000000000 = some (.wait 0) := by decide

/-! ## Text (R108): lines of programs P1, P2 -/

theorem test_parse_begin : parseCommand ['s', '0', '.', 'b', 'e', 'g', 'i', 'n', '(', ')'] = some (.beginCtl 0) := by
  decide
theorem test_parse_blank : parseCommand ['s', '0', '.', 'b', 'e', 'g', 'i', 'n', '(', ' ', ')'] = some (.beginCtl 0) := by
  decide
theorem test_parse_fill :
    parseCommand ['s', '1', '2', '.', 'f', 'i', 'l', 'l', '(', '0', 'x', 'F', 'f', ')'] = some (.fill 12 255) := by decide
theorem test_parse_fill_range :
    parseCommand ['s', '0', '.', 'f', 'i', 'l', 'l', 'R', 'a', 'n', 'g', 'e', '(', '1', ',', ' ', '5', ',', ' ', '9', ')']
      = some (.fillRange 0 1 5 9) := by decide
theorem test_parse_brightness_too_large : callOf 0 ['s', 'e', 't', 'B', 'r', 'i', 'g', 'h', 't', 'n', 'e', 's', 's'] [256]
    = none := by decide

/-! ## Ill-formed terms -/

theorem test_wf_refuses_instance : Instr.WellFormed 1 (.showFrame 1) = false := by decide
theorem test_wf_accepts : Instr.WellFormed 1 (.showFrame 0) = true := by decide

def okParams : Params := Params.atReset
def okCfg : InstCfg := InstCfg.atReset

theorem test_config_accepts : configOk okParams [okCfg] = true := by decide
theorem test_config_no_instance : configOk okParams [] = false := by decide
theorem test_config_duty_zero : configOk { okParams with dutyZero := 0 } [okCfg] = false := by decide
theorem test_config_duty_order : configOk { okParams with dutyZero := 58 } [okCfg] = false := by decide
theorem test_config_period : configOk { okParams with periodTicks := 58 } [okCfg] = false := by decide
theorem test_config_width :
    configOk { okParams with dutyWidth := .w8, dutyOne := 256, periodTicks := 300 } [okCfg] = false := by decide
theorem test_config_cycles : configOk { okParams with resetCycles := 1, ccrLag := .lag1 } [okCfg] = false := by decide
theorem test_config_threshold : configOk { okParams with resetThresholdUs := 0 } [okCfg] = false := by decide
theorem test_config_threshold_width : configOk { okParams with timeWidth := 8 } [okCfg] = false := by decide
theorem test_config_brightness : configOk { okParams with brightnessInit := 256 } [okCfg] = false := by decide
theorem test_config_no_leds : configOk okParams [{ okCfg with ledCount := 0 }] = false := by decide
theorem test_config_many_leds : configOk okParams [{ okCfg with ledCount := 65536, streamBase := 0x100000 }] = false := by decide
theorem test_config_alignment : configOk okParams [{ okCfg with streamBase := 0x1001 }] = false := by decide
theorem test_config_overlap : configOk okParams [{ okCfg with pixBase := 0x1063 }] = false := by decide
theorem test_config_apart : configOk okParams [{ okCfg with pixBase := 0x1064 }] = true := by decide

/-- A second instance, its memories apart from those of `okCfg`. -/
def otherCfg (pin timer transfer : Nat) : InstCfg :=
  { okCfg with
    pixBase := 6
    streamBase := 0x3000
    binding := { pin := pin, timingGenerator := timer, timingChannel := 0, transferChannel := transfer } }

theorem test_config_two_instances : configOk okParams [okCfg, otherCfg 1 1 1] = true := by decide
theorem test_config_overlap_other : configOk okParams [okCfg, { otherCfg 1 1 1 with pixBase := 5 }] = false := by decide
theorem test_config_shared_pin : configOk okParams [okCfg, otherCfg 0 1 1] = false := by decide
theorem test_config_shared_timer : configOk okParams [okCfg, otherCfg 1 0 1] = false := by decide
theorem test_config_shared_transfer : configOk okParams [okCfg, otherCfg 1 1 0] = false := by decide

/-! ## Small states -/

/-- An instance of `n` pixels of an order, ready and idle, with these bytes. -/
def readyInst (o : ColorOrder) (n : Nat) (bytes : List Byte) : Inst :=
  let cfg := { okCfg with colorOrder := o, ledCount := n }
  { Inst.powerOn okParams cfg with
    init := .ready
    pinMode := .low
    bright := 255
    pix := bytes.zipIdx.map fun (v, k) => (k, v)
    stream := List.replicate (streamLen okParams cfg) 0 }

/-- A machine of one instance. -/
def one (c : Inst) : State := { State.reset with insts := [c] }

/-- The pixel bytes and the result a command leaves, if it answers a next state. -/
def seen : Out → Option (List Byte × Result)
  | .next t => (t.inst? 0).map fun c => (c.pix.map Prod.snd, t.result)
  | .fault _ => none
  | .refused _ => none

/-- What a step answered as a next state. -/
def after : Out → Option State
  | .next t => some t
  | .fault _ => none
  | .refused _ => none

/-- Two pixels cleared, and one pixel. -/
def grb2 : State := one (readyInst .grb 2 [0, 0, 0, 0, 0, 0])
def grb1 : State := one (readyInst .grb 1 [0x00, 0xFF, 0x80])

/-! ## Pixel port: vectors 2.2 to 2.4 -/

theorem test_set_pixel_rgb :
    seen (exec (.setPixelRgb 0 1 0x11 0x22 0x33) grb2) = some ([0, 0, 0, 0x22, 0x11, 0x33], .unit) := by decide
theorem test_set_pixel_rgb_at_n : seen (exec (.setPixelRgb 0 2 1 2 3) grb2) = some ([0, 0, 0, 0, 0, 0], .unit) := by
  decide
theorem test_set_pixel_rgbw :
    seen (exec (.setPixelRgbw 0 0 1 2 3 4) (one (readyInst .rgbw 1 [9, 9, 9, 9]))) = some ([1, 2, 3, 4], .unit) := by
  decide
theorem test_set_pixel_rgbw_three_channels :
    seen (exec (.setPixelRgbw 0 0 1 2 3 4) (one (readyInst .grb 1 [9, 9, 9]))) = some ([2, 1, 3], .unit) := by decide
theorem test_set_pixel_color_bgr :
    seen (exec (.setPixelColor 0 0 0x00AABBCC) (one (readyInst .bgr 1 [9, 9, 9]))) = some ([0xCC, 0xBB, 0xAA], .unit) := by
  decide
theorem test_set_pixel_color_brg :
    seen (exec (.setPixelColor 0 0 0x44112233) (one (readyInst .brg 1 [9, 9, 9]))) = some ([0x33, 0x11, 0x22], .unit) := by
  decide
theorem test_get_pixel_color :
    seen (exec (.getPixelColor 0 0) (one (readyInst .grb 1 [0x22, 0x11, 0x33])))
      = some ([0x22, 0x11, 0x33], .color 0x00112233) := by decide
theorem test_get_pixel_color_grbw :
    seen (exec (.getPixelColor 0 0) (one (readyInst .grbw 1 [0x22, 0x11, 0x33, 0x44])))
      = some ([0x22, 0x11, 0x33, 0x44], .color 0x44112233) := by decide
theorem test_fill : seen (exec (.fill 0 0x00010203) grb2) = some ([2, 1, 3, 2, 1, 3], .unit) := by decide
theorem test_fill_range :
    seen (exec (.fillRange 0 2 5 0x00FF0000) (one (readyInst .rgb 4 [0, 0, 0, 0, 0, 0, 0, 0, 0, 0, 0, 0])))
      = some ([0, 0, 0, 0, 0, 0, 0xFF, 0, 0, 0xFF, 0, 0], .unit) := by decide
theorem test_fill_range_no_wrap :
    seen (exec (.fillRange 0 65535 65535 0x00FF0000) grb2) = some ([0, 0, 0, 0, 0, 0], .unit) := by decide
theorem test_clear : seen (exec (.clear 0) (one (readyInst .grbw 1 [1, 2, 3, 4]))) = some ([0, 0, 0, 0], .unit) := by
  decide
theorem test_set_brightness :
    (after (exec (.setBrightness 0 128) grb1)).map (fun t => t.insts.map (fun c => c.bright)) = some [128] := by decide
theorem test_get_count : seen (exec (.getCount 0) grb2) = some ([0, 0, 0, 0, 0, 0], .number 2) := by decide

/-! ## Encoder: vectors 2.5, 2.6, 2.8 -/

theorem test_scale_table : [(255, 128), (128, 128), (200, 100), (254, 254), (255, 1), (100, 1), (1, 254), (128, 255)].map
    (fun (x : Byte × Byte) => scale x.1 x.2) = [128, 64, 78, 253, 1, 0, 0, 128] := by decide
theorem test_byte_entries : byteEntries okParams 0xA5 = [58, 29, 58, 29, 29, 58, 29, 58] := by decide
theorem test_encode_stream : encodeStream okParams (readyInst .grb 1 []).cfg [(0, 0x00), (1, 0xFF), (2, 0x80)] 128 =
    some ([29, 29, 29, 29, 29, 29, 29, 29] ++ [58, 29, 29, 29, 29, 29, 29, 29] ++ [29, 58, 29, 29, 29, 29, 29, 29]
      ++ [0, 0]) := by decide
theorem test_stream_length : streamLen { okParams with resetCycles := 3 } { okCfg with colorOrder := .rgbw, ledCount := 3 }
    = 99 := by decide

/-! ## Controller: vectors 2.10, 2.11 -/

/-- An instance that finished a SHOW at 1000, seen at a time. -/
def seenAt (clock : Nat) : State := { one { readyInst .grb 1 [0, 0, 0] with tLast := some 1000 } with clock := clock }

theorem test_can_show_early : seen (exec (.canShow 0) (seenAt 1299)) = some ([0, 0, 0], .bool false) := by decide
theorem test_can_show_wrapped :
    seen (exec (.canShow 0) { seenAt (2 ^ 32 + 0x2C) with
      insts := [{ readyInst .grb 1 [0, 0, 0] with tLast := some 0xFFFFFF00 }] }) = some ([0, 0, 0], .bool true) := by decide
theorem test_is_busy : seen (exec (.isBusy 0) grb1) = some ([0x00, 0xFF, 0x80], .bool false) := by decide
theorem test_wait : seen (exec (.wait 0) grb1) = some ([0x00, 0xFF, 0x80], .unit) := by decide
theorem test_wait_holds : (after (exec (.wait 0) (one { readyInst .grb 1 [0, 0, 0] with state := .transmitting }))).map
    (fun t => t.cur) = some (some { inst := 0, opcode := .wait, phase := none }) := by decide
theorem test_show : (after (exec (.showFrame 0) grb1)).map (fun t => t.cur) = some (showAt 0 .waitReset) := by decide
theorem test_show_uninit : (after (exec (.showFrame 0) State.reset)).map (fun t => t.faults)
    = some [{ inst := 0, opcode := .showFrame, reason := .notInitialized }] := by decide
theorem test_end : (after (exec (.endCtl 0) grb1)).map (fun t => t.insts.map (fun c => (c.init, c.pix, c.pinMode)))
    = some [(.uninit, [], .low)] := by decide
theorem test_end_busy : (after (exec (.endCtl 0) (one { readyInst .grb 1 [0, 0, 0] with state := .encoding }))).map
    (fun t => t.faults) = some [{ inst := 0, opcode := .endCtl, reason := .busy }] := by decide
theorem test_begin : (after (exec (.beginCtl 0) { State.reset with allocs := [true] })).map
    (fun t => (t.result, t.insts.map (fun c => (c.init, c.bright, c.pinMode, c.stream.length))))
      = some (.bool true, [(.ready, 255, .low, 50)]) := by decide
theorem test_begin_fails : (after (exec (.beginCtl 0) { State.reset with allocs := [false] })).map
    (fun t => (t.result, decide (t.insts = State.reset.insts))) = some (.bool false, true) := by decide
theorem test_bad_instance_first : (after (exec (.showFrame 1) State.reset)).map (fun t => (t.refusedBy, t.faults))
    = some (some .badInstance, []) := by decide

/-! ## Steps -/

/-- A machine whose next turn is an agent's. -/
def turnOf (a : Agent) (s : State) : State := { s with sched := [a] }

theorem test_step_issues_word : (after (step (State.reset.withFetchWord 96 0x190000000000000000000000))).map
    (fun t => (t.faults, t.program)) = some ([{ inst := 0, opcode := .getCount, reason := .notInitialized }], []) := by decide
theorem test_step_illegal_word : (after (step (State.reset.withFetchWord 96 0x180000000000000000000000))).map
    (fun t => t.refusedBy) = some (some .illegalCommand) := by decide
theorem test_step_bad_config : (after (step { State.reset with params := { okParams with resetCycles := 0 } })).map
    (fun t => t.refusedBy) = some (some .badConfig) := by decide
theorem test_step_tick : (after (step (turnOf .timeSource State.reset))).map (fun t => t.clock) = some 1 := by decide

/-- The stream of vector 2.8 and its instance just armed, and armed with one entry left. -/
def stream28 : List Nat :=
  List.replicate 8 29 ++ List.replicate 9 58 ++ List.replicate 7 29 ++ [0, 0]
def armedInst : Inst :=
  Inst.armed okParams { readyInst .grb 1 [0x00, 0xFF, 0x80] with state := .encoding, stream := stream28 }
def lastEntryInst : Inst := { armedInst with xfIdx := 25, xfCnt := 1 }
def doneInst : Inst := { armedInst with xfIdx := 26, xfCnt := 0, xfTc := true, xfEn := false }

def withCur (ph : Phase) (s : State) : State := { s with cur := showAt 0 ph }

theorem test_period_first : (after (step (turnOf (.timingGenerator 0) (withCur .waitDone (one armedInst))))).map
    (fun t => t.insts.map (fun c => (c.ccr, c.xfCnt, c.wire, c.xfTc))) = some [(29, 25, [29], false)] := by decide
theorem test_period_last : (after (step (turnOf (.timingGenerator 0) (withCur .waitDone (one lastEntryInst))))).map
    (fun t => t.insts.map (fun c => (c.ccr, c.xfCnt, c.wire, c.xfTc, c.xfEn))) = some [(0, 0, [0], true, false)] := by decide
theorem test_period_lag1 : (armedInst.transfer 0 |>.map fun c => ((c.produce .lag1).wire, (c.produce .lag1).act))
    = .ok ([0], 29) := by decide
theorem test_wait_done : (after (step (turnOf .host { withCur .waitDone (one doneInst) with clock := 5000 }))).map
    (fun t => (t.cur, t.insts.map (fun c => (c.state, c.tLast, c.pinMode)))) = some (none, [(.idle, some 5000, .low)]) := by
  decide
theorem test_stream_image : [0x1000, 0x1001, 0x1010].map (streamImageByte okParams armedInst)
    = [some 29, some 0, some 58] := by decide
theorem test_period_levels : periodLevels { okParams with periodTicks := 3 } 1 = [true, false, false] := by decide

/-! ## States that meet the hypotheses of the statements -/

/-- The invariant of a machine of one instance from its parts. -/
theorem inv_of_one {s : State} {c : Inst} (hc : s.insts = [c]) (hcfg : s.configOk = true)
    (hi : InstInv s.params (showPhase s.cur 0) c)
    (hcur : s.cur = none ∨ ∃ ph, s.cur = showAt 0 ph) (hf : s.faults = []) : Inv s := by
  have h0 : s.inst? 0 = some c := by simp [State.inst?, hc]
  refine ⟨hcfg, ?_, ?_, by simp [hf], by simp [hf]⟩
  · intro i d hd
    have hz : i = 0 := by
      unfold State.inst? at hd
      rw [hc] at hd
      have : i.toNat < 1 := by
        by_contra hn
        simp [List.getElem?_eq_none (show [c].length ≤ i.toNat by simp; omega)] at hd
      exact BitVec.eq_of_toNat_eq (by simpa using this)
    subst hz
    rw [h0] at hd
    cases hd
    exact hi
  · intro k hk
    rcases hcur with hn | ⟨ph, hs⟩
    · rw [hn] at hk
      cases hk
    · rw [hs, showAt, Option.some.injEq] at hk
      subst hk
      exact ⟨rfl, by simp, c, h0⟩

def gInst : Inst := readyInst .grb 1 [0x00, 0xFF, 0x80]

theorem facts_ok : ParamsFacts okParams := paramsFacts (by decide)

theorem gInst_inv : InstInv okParams none gInst where
  phase := ⟨rfl, ⟨rfl, rfl, rfl⟩, fun _ => rfl⟩
  allocated := fun _ => ⟨by decide, by decide, by decide⟩
  released := fun h => by cases h
  index := Nat.zero_le _
  count := Nat.zero_le _
  ccr := by decide
  act := by decide
  tLast := fun t h => by cases h
  wire := fun d h => by cases h

theorem stream28_encodes : encodeStream okParams gInst.cfg gInst.pix gInst.bright = some stream28 := by decide

theorem gInst_encode_inv : InstInv okParams (some .encode) { gInst with state := .encoding } :=
  (gInst_inv.showIssued rfl).waitReset

theorem gInst_arm_inv : InstInv okParams (some .arm) { gInst with state := .encoding, stream := stream28 } :=
  gInst_encode_inv.encode facts_ok stream28_encodes

theorem armedInst_inv : InstInv okParams (some .waitDone) armedInst := gInst_arm_inv.arm facts_ok

def idleState : State := turnOf .host (one gInst)
def waitResetState : State := turnOf .host (withCur .waitReset (one gInst))
def armState : State := turnOf .host (withCur .arm (one { gInst with state := .encoding, stream := stream28 }))
def sendingState : State := turnOf (.timingGenerator 0) (withCur .waitDone (one armedInst))

theorem idleState_inv : Inv idleState := inv_of_one rfl (by decide) gInst_inv (.inl rfl) rfl
theorem waitResetState_inv : Inv waitResetState :=
  inv_of_one rfl (by decide) (gInst_inv.showIssued rfl) (.inr ⟨_, rfl⟩) rfl
theorem armState_inv : Inv armState := inv_of_one rfl (by decide) gInst_arm_inv (.inr ⟨_, rfl⟩) rfl
theorem sendingState_inv : Inv sendingState := inv_of_one rfl (by decide) armedInst_inv (.inr ⟨_, rfl⟩) rfl

/-- The state one period before the completion flag, and the finished one: reached values of vector 2.9, period 26. -/
theorem lastEntryInst_inv : InstInv okParams (some .waitDone) lastEntryInst where
  phase := ⟨rfl, rfl, rfl, rfl, rfl, by decide, by decide, by decide, stream28_encodes, by decide, rfl⟩
  allocated := armedInst_inv.allocated
  released := fun h => by cases h
  index := by decide
  count := by decide
  ccr := by decide
  act := by decide
  tLast := fun t h => by cases h
  wire := fun d h => by cases h

def lastEntryState : State :=
  { withCur .waitDone (one lastEntryInst) with sched := [.timingGenerator 0, .host] }

theorem lastEntryState_inv : Inv lastEntryState := inv_of_one rfl (by decide) lastEntryInst_inv (.inr ⟨_, rfl⟩) rfl

theorem hostTurn_of {s : State} (h1 : s.refusedBy = none) (h2 : s.configOk = true) (h3 : s.faults = [])
    (h4 : s.nextAgent = .host) : HostTurn s := ⟨⟨h1, h2⟩, h3, h4⟩

/-- IllegalWordsAreRefused, StepRunsTheDecodedCommand: one word with an unlisted opcode, one for each kind of non-zero
must-be-zero field, and one that decodes. -/
theorem witness_illegal_words :
    HostTurn idleState ∧ idleState.cur = none ∧
    (Word.opc 0x180000000000000000000000#96).toNat ∉
      [0x01, 0x02, 0x10, 0x11, 0x12, 0x13, 0x14, 0x15, 0x16, 0x17, 0x19, 0x20, 0x21, 0x22, 0x23] ∧
    Word.rsv 0x160000000000000100000000#96 ≠ 0 ∧ Word.fieldB 0x130000000001000000000000#96 ≠ 0 ∧
    Word.fieldA 0x160000010000000000000000#96 ≠ 0 ∧ Word.fieldD 0x130000000000000000000001#96 ≠ 0 ∧
    (0x100000000000000001000000#96 : Word).extractLsb' 24 8 ≠ 0#8 ∧
    (0x170000000000000000000100#96 : Word).extractLsb' 8 24 ≠ 0#24 :=
  ⟨hostTurn_of rfl (by decide) rfl rfl, by decide⟩

theorem witness_step_runs : HostTurn { idleState with program := [0x160000000000000000000000#96] } ∧
    decode 0x160000000000000000000000#96 = .ok (.clear 0) := ⟨hostTurn_of rfl (by decide) rfl rfl, by decide⟩

/-- BadConfigurationsAreRefused: a state of either kind, and one whose memories overlap. -/
theorem witness_bad_config : ({ idleState with params := { okParams with dutyZero := 0 } } : State).configOk = false ∧
    idleState.configOk = true ∧
    (one { gInst with cfg := { gInst.cfg with pixBase := 0x1000 } }).configOk = false := by decide

/-- ChecksNameTheOutcome: each failing check, and all passed. -/
theorem witness_checks :
    (∀ i, decode 0x180000000000000000000000#96 ≠ .ok i) ∧
    idleState.insts.length ≤ (Instr.showFrame 1).inst.toNat ∧
    (∃ c, idleState.inst? 0 = some c ∧ c.init = .ready ∧ c.state = .idle ∧
      c.pix.map Prod.fst = List.range (pixBytes c.cfg)) ∧
    (∃ c, State.reset.inst? 0 = some c ∧ c.init = .uninit) ∧
    (∃ c, sendingState.inst? 0 = some c ∧ c.init = .ready ∧ c.state ≠ .idle) := by
  refine ⟨fun i h => ?_, by decide, ⟨gInst, by decide⟩, ⟨Inst.powerOn okParams okCfg, by decide⟩, ⟨armedInst, by decide⟩⟩
  rw [test_decode_reserved] at h
  cases h
where test_decode_reserved : decode 0x180000000000000000000000#96 = .error .unlistedOpcode := by decide

/-- FaultsStopTheHostForGood: a faulted machine whose host's turn comes. -/
theorem witness_faulted : Running { idleState with faults := [{ inst := 0, opcode := .wait, reason := .notInitialized }] } ∧
    ({ idleState with faults := [{ inst := 0, opcode := .wait, reason := .notInitialized }] } : State).nextAgent = .host :=
  ⟨⟨rfl, by decide⟩, rfl⟩

theorem witness_refused : (idleState.refuse .badInstance).refusedBy = some .badInstance := rfl

/-- ConfigurationIsImmutable, EveryStepKeepsMemoriesCanonical and the like: a step with a next state. -/
theorem witness_step_next : MemoriesWf sendingState ∧ ∃ t, step sendingState = .next t := by
  refine ⟨?_, ?_⟩
  · intro c hc
    rw [show sendingState.insts = [armedInst] from rfl, List.mem_singleton] at hc
    subst hc
    decide
  · have h : (after (step sendingState)).isSome = true := by decide
    cases he : step sendingState with
    | next t => exact ⟨t, rfl⟩
    | fault f => rw [he] at h; cases h
    | refused r => rw [he] at h; cases h

/-- The pixel-port, END, SHOW and query statements: a ready, idle instance, an index inside and one outside, a range
inside, clipped and empty. -/
theorem witness_ready : idleState.inst? 0 = some gInst ∧ gInst.init = .ready ∧ gInst.state = .idle ∧
    (0 : Index).toNat < gInst.cfg.ledCount ∧ gInst.cfg.ledCount ≤ (65535 : Index).toNat ∧
    idleState.configOk = true ∧ gInst.pix.wf = true ∧ gInst.cfg.ledCount ≤ 65535 := by decide

/-- GetPixelColorReadsThePixel: the bytes of a three-channel pixel, and of a four-channel one with white. -/
theorem witness_get_pixel :
    (∀ ch k, off gInst.cfg.colorOrder ch = some k →
      gInst.pix.read (0 * channels gInst.cfg.colorOrder + k) = some (channelValue 0xFF 0x00 0x80 0 ch)) ∧
    (∀ ch k, off (readyInst .rgbw 1 [1, 2, 3, 4]).cfg.colorOrder ch = some k →
      (readyInst .rgbw 1 [1, 2, 3, 4]).pix.read k = some (channelValue 1 2 3 4 ch)) := by
  constructor <;> (intro ch k h; cases ch <;> cases h <;> decide)

/-- OnlyCommandsWritePixelsAndBrightness, OtherInstancesAreUntouched: a step of a generator, and a SHOW under way. -/
theorem witness_agent_turns : sendingState.nextAgent = .timingGenerator 0 ∧ armState.nextAgent = .host ∧
    armState.cur ≠ none ∧ (turnOf .timeSource armState).nextAgent = .timeSource := by decide

theorem witness_encoded : encodeStream okParams gInst.cfg gInst.pix gInst.bright = some stream28 ∧
    (0 : Nat) < gInst.cfg.ledCount ∧ (woff gInst.cfg.colorOrder)[2]? = some 2 ∧
    dataEntries gInst.cfg ≤ 24 ∧ 24 < streamLen okParams gInst.cfg ∧ paramsOk okParams = true := by decide

/-- StreamIgnoresColourOrder: the same colour stored in two orders. -/
theorem witness_orders : readPixel .bgr 0 [(0, 0x33), (1, 0x22), (2, 0x11)] = readPixel .grb 0 [(0, 0x22), (1, 0x11), (2, 0x33)]
    ∧ channels .bgr = channels .grb := by decide

/-- BeginAllocatesAndInitialises, GetCountReturnsN: an uninitialised instance and a ready one. -/
theorem witness_begin : State.reset.inst? 0 = some (Inst.powerOn okParams okCfg) ∧
    (Inst.powerOn okParams okCfg).init = .uninit ∧
    State.reset.params.brightnessInit ≤ 255 ∧ idleState.inst? 0 = some gInst ∧ gInst.init = .ready := by decide

/-- CanShowMeasuresTheQuietPeriod: no timestamp, and one that fits. -/
theorem witness_can_show : gInst.tLast = none ∧
    ((seenAt 1299).inst? 0).map (fun c => (c.init, c.tLast)) = some (.ready, some 1000) ∧
    1000 < 2 ^ (seenAt 1299).params.timeWidth := by decide

/-- IsBusyReportsTransmitting, WaitHoldsWhileTransmitting: the invariant with no command under way; an instance that
transmits; a WAIT that holds. -/
theorem witness_wait : Inv idleState ∧ idleState.cur = none ∧ armedInst.state = .transmitting ∧ armedInst.init = .ready ∧
    HostTurn { one armedInst with sched := [.host], cur := some { inst := 0, opcode := .wait, phase := none } } :=
  ⟨idleState_inv, rfl, rfl, rfl, hostTurn_of rfl (by decide) rfl rfl⟩

/-- The four phases of SHOW at the host's turn, with the holds lifted and not. -/
theorem witness_phases :
    (HostTurn waitResetState ∧ waitResetState.canShowFn gInst = true ∧
      waitResetState.canShowFn { gInst with tLast := some 0 } = false) ∧
    HostTurn (turnOf .host (withCur .encode (one { gInst with state := .encoding }))) ∧
    HostTurn armState ∧
    (HostTurn (turnOf .host (withCur .waitDone (one armedInst))) ∧ armedInst.xfTc = false) ∧
    (HostTurn (turnOf .host (withCur .waitDone (one doneInst))) ∧ doneInst.xfTc = true) := by
  refine ⟨⟨hostTurn_of rfl ?_ rfl rfl, ?_, ?_⟩, hostTurn_of rfl ?_ rfl rfl, hostTurn_of rfl ?_ rfl rfl,
    ⟨hostTurn_of rfl ?_ rfl rfl, ?_⟩, ⟨hostTurn_of rfl ?_ rfl rfl, ?_⟩⟩ <;> decide

/-- QuietPeriodIsKept, second part: a timestamp at 1000 and the clock at 1300. -/
theorem witness_quiet : (1000 : Nat) ≤ (seenAt 1300).clock ∧
    (seenAt 1300).canShowFn { gInst with tLast := some (1000 % 2 ^ (seenAt 1300).params.timeWidth) } = true := by decide

/-- PeriodTransfersAndEmits: a stopped generator, a transfer that is not the last and one that is, a period with no
transfer. -/
theorem witness_period : Running sendingState ∧ sendingState.nextAgent = .timingGenerator 0 ∧
    gInst.tgRun = false ∧
    (armedInst.tgRun = true ∧ armedInst.tgDreq = true ∧ armedInst.xfEn = true ∧ armedInst.stream[armedInst.xfIdx]? = some 29 ∧
      0 < armedInst.xfCnt) ∧
    (lastEntryInst.xfCnt = 1 ∧ lastEntryInst.stream[lastEntryInst.xfIdx]? = some 0) ∧
    (doneInst.tgRun = true ∧ doneInst.xfEn = false) := ⟨⟨rfl, by decide⟩, by decide⟩

/-- ReadsOfWhatIsNotThereStop: a byte, an entry and a count that are not there. -/
theorem witness_stops :
    (idleState.configOk = true ∧ ({ gInst with pix := [] } : Inst).pix.read (0 * channels gInst.cfg.colorOrder + 1) = none ∧
      off gInst.cfg.colorOrder .r = some 1) ∧
    HostTurn (turnOf .host (withCur .encode (one { gInst with pix := [] }))) ∧
    ({ armedInst with xfIdx := 26 } : Inst).stream.length ≤ 26 ∧ 3 < armedInst.stream.length ∧
    ({ armedInst with xfIdx := 3, xfCnt := 0 } : Inst).xfCnt = 0 := by
  refine ⟨?_, hostTurn_of rfl ?_ rfl rfl, ?_⟩ <;> decide

theorem witness_tick : Running (turnOf .timeSource idleState) ∧ (turnOf .timeSource idleState).nextAgent = .timeSource :=
  ⟨⟨rfl, by decide⟩, rfl⟩

theorem witness_stream_image : 1 < dutyBits okParams.dutyWidth / 8 ∧ armedInst.stream[8]? = some 58 ∧
    29 ≤ okParams.periodTicks := by decide

theorem witness_power_on : configOk okParams [okCfg] = true ∧ configOk { okParams with ccrLag := .lag1 } [okCfg] = true := by
  decide

/-- The statements under the invariant: each phase of a SHOW, and none. -/
theorem witness_invariant : Inv idleState ∧ Inv waitResetState ∧ Inv armState ∧ Inv sendingState ∧ Inv lastEntryState ∧
    sendingState.refusedBy = none := ⟨idleState_inv, waitResetState_inv, armState_inv, sendingState_inv,
  lastEntryState_inv, rfl⟩

/-- WireCarriesTheStreamInOrder: an ARM to come, and a SHOW with no period yet. -/
theorem witness_sending : HostTurn armState ∧ armState.cur = showAt 0 .arm ∧ Sending sendingState 0 [] 0 :=
  ⟨hostTurn_of rfl (by decide) rfl rfl, rfl, rfl, armedInst, rfl, by decide, by decide⟩

/-- CutPeriodIsZero, and WaitDoneDisarmsAndReturns' second part: the period that raises the flag. -/
theorem witness_cut : Running lastEntryState ∧ lastEntryInst.xfTc = false ∧
    (after (step lastEntryState)).map (fun t => t.insts.map (fun c => c.xfTc)) = some [true] :=
  ⟨⟨rfl, by decide⟩, by decide⟩

/-- ShowEndsAfterItsPeriods: one period to come. -/
theorem witness_show_ends :
    lastEntryState.sched = List.replicate lastEntryInst.xfCnt (.timingGenerator 0) ++ .host :: [] ∧
    lastEntryState.cur = showAt 0 .waitDone ∧ lastEntryState.faults = [] := by decide

/-- A SHOW that waits for the reset time: the timestamp is 1000, the clock 1298, so two ticks lift the hold. -/
def heldInst : Inst := { gInst with tLast := some 1000 }
def heldState : State := { withCur .waitReset (one heldInst) with clock := 1298 }

theorem heldInst_inv : InstInv okParams (some .waitReset) heldInst :=
  (({ gInst_inv with tLast := fun t h => by cases h; decide } : InstInv okParams none heldInst)).showIssued rfl
theorem heldState_inv : Inv heldState := inv_of_one rfl (by decide) heldInst_inv (.inr ⟨_, rfl⟩) rfl

/-- ResetWaitEndsAfterTheThreshold: a hold that two ticks lift, and one that is lifted already. -/
theorem witness_reset_wait :
    Inv heldState ∧ heldState.cur = showAt 0 .waitReset ∧ heldState.refusedBy = none ∧ heldState.inst? 0 = some heldInst ∧
    heldState.params.resetThresholdUs - heldState.elapsedSince 1000 = 2 ∧ heldState.canShowFn heldInst = false ∧
    Inv waitResetState ∧ waitResetState.cur = showAt 0 .waitReset ∧ waitResetState.canShowFn gInst = true :=
  ⟨heldState_inv, by decide, by decide, by decide, by decide, by decide, waitResetState_inv, by decide, by decide⟩

/-- A machine whose time source has taken every turn. -/
def ticked (s : State) (n : Nat) : State := { s with clock := s.clock + n, sched := [] }

theorem ticked_runOn {s : State} (h : Running s) : RunOn (fun _ => .timeSource) (ticked s) := by
  intro n
  have hc : (giveTurn .timeSource (ticked s n)).configOk = true := h.2
  have hr : (giveTurn .timeSource (ticked s n)).refusedBy = none := h.1
  simp only [step, hr, runTurn, hc, if_true]
  rfl

/-- FairSchedulesEndEveryShow, a WAIT_RESET hold: no generator runs, and time passes. -/
theorem witness_fair_reset_wait : Inv (ticked heldState 0) ∧ RunOn (fun _ => .timeSource) (ticked heldState) ∧
    WeaklyFair (fun _ => .timeSource) (ticked heldState) ∧ (ticked heldState 0).cur = showAt 0 .waitReset := by
  refine ⟨inv_of_one rfl (by decide) heldInst_inv (.inr ⟨_, rfl⟩) rfl, ticked_runOn ⟨rfl, by decide⟩, ⟨?_, ?_⟩, rfl⟩
  · intro i n h
    have hg : generatorEnabled i (ticked heldState n) = true := h n le_rfl
    have hs : (ticked heldState n).inst? i = [heldInst][i.toNat]? := rfl
    rw [generatorEnabled, hs] at hg
    cases hi : i.toNat with
    | zero => rw [hi] at hg; exact absurd hg (by decide)
    | succ k => rw [hi] at hg; exact absurd hg (by simp)
  · exact fun n => ⟨n, le_rfl, rfl⟩

/-- FairSchedulesEndEveryShow, a hang: the generator of a transmission gets no turn. -/
theorem witness_hang : Inv (ticked sendingState 0) ∧ RunOn (fun _ => .timeSource) (ticked sendingState) ∧
    (ticked sendingState 0).cur = showAt 0 .waitDone ∧ (ticked sendingState 0).inst? 0 = some armedInst ∧
    armedInst.xfTc = false :=
  ⟨inv_of_one rfl (by decide) armedInst_inv (.inr ⟨_, rfl⟩) rfl, ticked_runOn ⟨rfl, by decide⟩, rfl, rfl, rfl⟩

/-- The turns of a period, the host and the time source, over and over. -/
def inTurn (n : Nat) : Agent :=
  if n % 3 = 0 then .timingGenerator 0 else if n % 3 = 1 then .host else .timeSource

/-- The last period of a transmission, the end of its SHOW, and then time passing. -/
def lastPeriodRun : Nat → State
  | 0 => { lastEntryState with sched := [] }
  | 1 => withCur .waitDone (one { doneInst with wire := [0], ccr := 0 })
  | n + 2 => { one ({ doneInst with wire := [0], ccr := 0 }.disarmed 0) with clock := (n + 2) / 3 }

theorem lastPeriodRun_runOn : RunOn inTurn lastPeriodRun := by
  intro n
  match n with
  | 0 => rfl
  | 1 => rfl
  | n + 2 =>
    have hc : (lastPeriodRun (n + 2)).configOk = true := by
      show Machine.configOk okParams [gInst.cfg] = true
      decide
    have hcase : n % 3 = 0 ∨ n % 3 = 1 ∨ n % 3 = 2 := by omega
    have hs : ∀ a, step (giveTurn a (lastPeriodRun (n + 2))) = agentTurn a (lastPeriodRun (n + 2)) := by
      intro a
      have hc' : (giveTurn a (lastPeriodRun (n + 2))).configOk = true := hc
      have hr : (giveTurn a (lastPeriodRun (n + 2))).refusedBy = none := rfl
      simp only [step, hr, runTurn, hc', if_true]
      rfl
    rw [hs]
    rcases hcase with h | h | h
    · rw [inTurn, if_neg (by omega), if_neg (by omega), show lastPeriodRun (n + 2 + 1) = lastPeriodRun (n + 1 + 2) from rfl]
      simp only [lastPeriodRun, agentTurn, tick]
      rw [show (n + 1 + 2) / 3 = (n + 2) / 3 + 1 by omega]
    · rw [inTurn, if_pos (by omega), show lastPeriodRun (n + 2 + 1) = lastPeriodRun (n + 1 + 2) from rfl]
      simp only [lastPeriodRun, agentTurn]
      rw [show (n + 1 + 2) / 3 = (n + 2) / 3 by omega]
      rfl
    · rw [inTurn, if_neg (by omega), if_pos (by omega), show lastPeriodRun (n + 2 + 1) = lastPeriodRun (n + 1 + 2) from rfl]
      simp only [lastPeriodRun, agentTurn]
      rw [show (n + 1 + 2) / 3 = (n + 2) / 3 by omega]
      rfl

/-- FairSchedulesEndEveryShow, a transmission: every agent gets its turns, the host among them. -/
theorem witness_fair_show : Inv (lastPeriodRun 0) ∧ RunOn inTurn lastPeriodRun ∧ WeaklyFair inTurn lastPeriodRun ∧
    HostFair inTurn lastPeriodRun ∧ (lastPeriodRun 0).cur = showAt 0 .waitDone := by
  refine ⟨inv_of_one rfl (by decide) lastEntryInst_inv (.inr ⟨_, rfl⟩) rfl, lastPeriodRun_runOn, ⟨?_, ?_⟩, ?_, rfl⟩
  · intro i n h
    have hg : generatorEnabled i (lastPeriodRun (n + 2)) = true := h _ (by omega)
    have hs : (lastPeriodRun (n + 2)).inst? i = [{ doneInst with wire := [0], ccr := 0 }.disarmed 0][i.toNat]? := rfl
    rw [generatorEnabled, hs] at hg
    cases hi : i.toNat with
    | zero => rw [hi] at hg; exact absurd hg (by decide)
    | succ k => rw [hi] at hg; exact absurd hg (by simp)
  · intro n
    refine ⟨3 * n + 2, by omega, ?_⟩
    rw [inTurn, if_neg (by omega), if_neg (by omega)]
  · intro h
    obtain ⟨m, hm, he⟩ := h 2
    obtain ⟨k, rfl⟩ := Nat.exists_eq_add_of_le' hm
    exact absurd (show false = true from he) (by decide)

/-- RunEndLeavesEveryInstanceQuiet: a run of no command has ended, and the host's turn comes. -/
theorem witness_run_end : RunEnded idleState ∧ idleState.nextAgent ≠ .timeSource :=
  ⟨⟨rfl, rfl, rfl, rfl⟩, by decide⟩

end Sys2Proof.Tests
end

/-! PROOF. O14: no step of any agent writes the configuration (10_state R33). Of the updates a step is made of, only
`setInst` touches `insts`, and every `Inst` it writes carries the configuration of the one it replaces. -/

namespace Sys2Proof.Machine

/-- `t` has the configuration of `s` (R33). -/
def State.SameConfig (s t : State) : Prop := t.params = s.params ∧ t.cfgs = s.cfgs

theorem State.SameConfig.of_insts_eq {s t : State} (hp : t.params = s.params) (hi : t.insts = s.insts) :
    s.SameConfig t :=
  ⟨hp, by rw [State.cfgs, hi, State.cfgs]⟩

/-- Replacing one `Inst` by one of the same configuration. -/
theorem State.SameConfig.of_insts_set {s t : State} {i : InstNo} {c c' : Inst} (hc : s.inst? i = some c)
    (hi : t.insts = s.insts.set i.toNat c') (hcfg : c'.cfg = c.cfg) (hp : t.params = s.params) : s.SameConfig t :=
  ⟨hp, by rw [← State.cfgs_setInst hc hcfg, State.cfgs, hi, State.cfgs, State.setInst_insts]⟩

theorem waitOn_sameConfig (i : InstNo) (c : Inst) (s : State) : s.SameConfig (waitOn i c s) := by
  unfold waitOn
  split <;> exact .of_insts_eq rfl rfl

theorem Inst.transfer_cfg {i : InstNo} {c c' : Inst} (h : c.transfer i = .ok c') : c'.cfg = c.cfg := by
  rcases Inst.transfer_ok h with ⟨-, -, d, left, -, -, rfl⟩ | ⟨-, rfl⟩
  · exact Inst.transferred_cfg d left c
  · rfl

/-- "No command writes any part of it" (R33): the effect of each command that passed its checks. -/
theorem CommandEffect.sameConfig {i : Instr} {c : Inst} {s t : State} (hc : s.inst? i.inst = some c)
    (h : CommandEffect i c s t) : s.SameConfig t := by
  cases i with
  | beginCtl j =>
    obtain ⟨-, rfl⟩ := h
    split
    · exact .of_insts_set hc rfl (Inst.begun_cfg s.draws s.params c) rfl
    · exact .of_insts_eq rfl rfl
  | endCtl | setPixelRgb | setPixelRgbw | setPixelColor | fill | fillRange | clear | setBrightness =>
    obtain ⟨-, -, rfl⟩ := h
    exact .of_insts_set hc rfl rfl rfl
  | getPixelColor =>
    obtain ⟨-, color, rfl, -, -⟩ := h
    exact .of_insts_eq rfl rfl
  | showFrame =>
    obtain ⟨-, -, rfl⟩ := h
    exact .of_insts_eq rfl rfl
  | getCount | canShow | isBusy =>
    obtain ⟨-, rfl⟩ := h
    exact .of_insts_eq rfl rfl
  | wait j =>
    obtain ⟨-, rfl⟩ := h
    exact waitOn_sameConfig j c s

theorem exec_sameConfig {i : Instr} {s t : State} (h : exec i s = .next t) : s.SameConfig t := by
  rcases exec_next h with ⟨rfl, -⟩ | ⟨r, rfl⟩ | ⟨c, hc, he⟩
  · exact .of_insts_eq rfl rfl
  · exact .of_insts_eq rfl rfl
  · exact he.sameConfig hc

/-- The phases of SHOW and the WAIT that holds. -/
theorem continueCurrent_sameConfig {k : Cur} {s t : State} (h : continueCurrent k s = .next t) : s.SameConfig t := by
  rcases continueCurrent_next h with rfl | ⟨c, hc, hphase⟩
  · exact .of_insts_eq rfl rfl
  · rcases hphase with ⟨-, -, -, rfl⟩ | ⟨-, -, entries, -, rfl⟩ | ⟨-, -, rfl⟩ | ⟨-, -, -, rfl⟩ | ⟨-, rfl⟩
    · exact .of_insts_set hc rfl rfl rfl
    · exact .of_insts_set hc rfl rfl rfl
    · exact .of_insts_set hc rfl (Inst.armed_cfg s.params c) rfl
    · exact .of_insts_set hc rfl (Inst.disarmed_cfg s.now c) rfl
    · exact waitOn_sameConfig k.inst c s

theorem hostTurn_sameConfig {s t : State} (h : hostTurn s = .next t) : s.SameConfig t := by
  rcases hostTurn_next h with rfl | ⟨-, k, -, hk⟩ | ⟨-, -, w, rest, -, ⟨i, -, hi⟩ | ⟨e, -, rfl⟩⟩
  · exact .of_insts_eq rfl rfl
  · exact continueCurrent_sameConfig hk
  · exact exec_sameConfig (s := { s with program := rest }) hi
  · exact .of_insts_eq rfl rfl

theorem tgPeriod_sameConfig {i : InstNo} {s t : State} (h : tgPeriod i s = .next t) : s.SameConfig t := by
  rcases tgPeriod_next h with rfl | ⟨c, c', hc, -, htransfer, rfl⟩
  · exact .of_insts_eq rfl rfl
  · exact .of_insts_set hc rfl ((Inst.produce_cfg _ c').trans (Inst.transfer_cfg htransfer)) rfl

theorem tick_sameConfig {s t : State} (h : tick s = .next t) : s.SameConfig t := by
  cases h
  exact .of_insts_eq rfl rfl

theorem agentTurn_sameConfig {a : Agent} {s t : State} (h : agentTurn a s = .next t) : s.SameConfig t := by
  cases a with
  | host => exact hostTurn_sameConfig h
  | timingGenerator i => exact tgPeriod_sameConfig h
  | timeSource => exact tick_sameConfig h

theorem step_sameConfig {s t : State} (h : step s = .next t) : s.SameConfig t := by
  obtain ⟨-, ⟨-, rfl⟩ | ⟨-, hturn⟩⟩ := step_next h
  · exact .of_insts_eq rfl rfl
  · obtain ⟨hparams, hcfgs⟩ := agentTurn_sameConfig hturn
    exact ⟨hparams.trans s.takeTurn_params, hcfgs.trans s.cfgs_takeTurn⟩

/-- Settles O14: each agent's turn keeps the configuration, and so does the refusal of one that is not admitted. -/
theorem configurationIsImmutable : Obligations.ConfigurationIsImmutable :=
  fun _ _ => step_sameConfig

end Sys2Proof.Machine

/-! PROOF. O4: what the decoder accepts has a listed opcode and zero must-be-zero fields (30_encoding R103, R107), and
a word it does not accept is refused when the host issues it (R106, R239). -/

namespace Sys2Proof

/-- Where the mask is all ones, the masked word holds the word's own bits. -/
theorem extractLsb'_of_and_eq {w mask p : Word} {lo len : Nat} (h : w &&& mask = p)
    (hmask : mask.extractLsb' lo len = BitVec.allOnes len) : w.extractLsb' lo len = p.extractLsb' lo len := by
  rw [← h, BitVec.extractLsb'_and, hmask, BitVec.and_allOnes]

theorem Opcode.pattern_extractLsb' (op : Opcode) {lo len : Nat} (h : lo + len ≤ 88) :
    op.pattern.extractLsb' lo len = 0 :=
  (BitVec.extractLsb'_append_eq_of_add_le h).trans BitVec.extractLsb'_zero

/-- A word that carries `op` is 0 wherever, below the opcode, the mask of `op`'s format is all ones (R107). -/
theorem Opcode.extractLsb'_of_matchesWord {op : Opcode} {w : Word} {lo len : Nat} (h : op.matchesWord w = true)
    (hle : lo + len ≤ 88) (hmask : op.format.mask.extractLsb' lo len = BitVec.allOnes len) :
    w.extractLsb' lo len = 0 :=
  (extractLsb'_of_and_eq (eq_of_beq h) hmask).trans (op.pattern_extractLsb' hle)

theorem Opcode.code_of_ofCode {code : BitVec 8} {op : Opcode} (h : Opcode.ofCode code = some op) : op.code = code :=
  eq_of_beq (List.find?_some (p := fun op : Opcode => op.code == code) h)

/-- Everything the decoder can answer as a command: the operands of a word that carries a listed opcode (R107). -/
theorem decode_ok {w : Word} {i : Instr} (h : decode w = .ok i) :
    ∃ op : Opcode, Word.opc w = op.code ∧ op.matchesWord w = true ∧ i = op.assembleOperands w := by
  unfold decode at h
  split at h
  · cases h
  · next op hop =>
    split_ifs at h with hm
    exact ⟨op, (Opcode.code_of_ofCode hop).symm, hm, (Except.ok.inj h).symm⟩

/-! The opcode values, and where the mask of each command's format is all ones, as R103 lists the must-be-zero fields:
one row for each command. -/

theorem Opcode.code_listed (op : Opcode) : op.code.toNat ∈
    [0x01, 0x02, 0x10, 0x11, 0x12, 0x13, 0x14, 0x15, 0x16, 0x17, 0x19, 0x20, 0x21, 0x22, 0x23] := by
  cases op <;> decide

theorem Opcode.mask_rsv (op : Opcode) : op.format.mask.extractLsb' 32 16 = BitVec.allOnes 16 := by
  cases op <;> decide

theorem Opcode.mask_fieldB (op : Opcode) :
    op.code.toNat ≠ 0x15 → op.format.mask.extractLsb' 48 16 = BitVec.allOnes 16 := by
  cases op <;> decide

theorem Opcode.mask_fieldA (op : Opcode) :
    op.code.toNat ∈ [0x01, 0x02, 0x14, 0x16, 0x17, 0x19, 0x20, 0x21, 0x22, 0x23] →
      op.format.mask.extractLsb' 64 16 = BitVec.allOnes 16 := by
  cases op <;> decide

theorem Opcode.mask_fieldD (op : Opcode) :
    op.code.toNat ∈ [0x01, 0x02, 0x13, 0x16, 0x19, 0x20, 0x21, 0x22, 0x23] →
      op.format.mask.extractLsb' 0 32 = BitVec.allOnes 32 := by
  cases op <;> decide

/-- The white byte of SET_PIXEL_RGB's colour. -/
theorem Opcode.mask_rgbWhite (op : Opcode) :
    op.code.toNat = 0x10 → op.format.mask.extractLsb' 24 8 = BitVec.allOnes 8 := by
  cases op <;> decide

/-- `D[31:8]` of SET_BRIGHTNESS. -/
theorem Opcode.mask_aboveBrightness (op : Opcode) :
    op.code.toNat = 0x17 → op.format.mask.extractLsb' 8 24 = BitVec.allOnes 24 := by
  cases op <;> decide

namespace Machine

/-- Check 1 of R242: a word that is no command is refused. -/
theorem issueWord_of_not_ok {w : Word} (h : ∀ i, decode w ≠ .ok i) (s : State) :
    issueWord w s = .next (s.refuse .illegalCommand) := by
  unfold issueWord
  split
  · next i hi => exact absurd hi (h i)
  · rfl

/-- R36: with no command under way the host issues the next word of its program. -/
theorem hostTurn_of_program {s : State} {w : Word} {rest : List Word} (hf : s.faults = []) (hc : s.cur = none)
    (hp : s.program = w :: rest) : hostTurn s = issueWord w { s with program := rest } := by
  simp only [hostTurn, hf, hc, hp]

theorem step_of_program {s : State} {w : Word} {rest : List Word} (h : Safety.HostTurn s) (hc : s.cur = none)
    (hp : s.program = w :: rest) : step s = issueWord w { s.takeTurn with program := rest } := by
  obtain ⟨hrun, hf, hnext⟩ := h
  rw [Safety.step_of_running hrun, hnext]
  exact hostTurn_of_program (s.takeTurn_faults.trans hf) (s.takeTurn_cur.trans hc) (s.takeTurn_program.trans hp)

/-- Settles O4: a word that decodes carries a listed opcode, whose mask is all ones on each field named; so a word with
one of the defects does not decode, and issuing it is the refusal. -/
theorem illegalWordsAreRefused : Obligations.IllegalWordsAreRefused := by
  intro s w rest hturn hcur hprogram hbad
  have hdecode : ∀ i, decode w ≠ .ok i := by
    intro i hi
    obtain ⟨op, hopc, hm, -⟩ := decode_ok hi
    rw [hopc] at hbad
    rcases hbad with h | h | ⟨hop, h⟩ | ⟨hop, h⟩ | ⟨hop, h⟩ | ⟨hop, h⟩ | ⟨hop, h⟩
    · exact h op.code_listed
    · exact h (Opcode.extractLsb'_of_matchesWord hm (by decide) op.mask_rsv)
    · exact h (Opcode.extractLsb'_of_matchesWord hm (by decide) (op.mask_fieldB hop))
    · exact h (Opcode.extractLsb'_of_matchesWord hm (by decide) (op.mask_fieldA hop))
    · exact h (Opcode.extractLsb'_of_matchesWord hm (by decide) (op.mask_fieldD hop))
    · exact h (Opcode.extractLsb'_of_matchesWord hm (by decide) (op.mask_rgbWhite hop))
    · exact h (Opcode.extractLsb'_of_matchesWord hm (by decide) (op.mask_aboveBrightness hop))
  rw [step_of_program hturn hcur hprogram, issueWord_of_not_ok hdecode]
  rfl

end Machine
end Sys2Proof

/-! PROOF. O8: the Color word and its four bytes (30_encoding R115). -/

namespace Sys2Proof

theorem toNat_append_byte {n : Nat} (x : BitVec n) (y : Byte) : (x ++ y).toNat = x.toNat * 2 ^ 8 + y.toNat := by
  rw [BitVec.toNat_append, ← Nat.shiftLeft_add_eq_or_of_lt y.isLt, Nat.shiftLeft_eq]

theorem Color.toNat_pack (r g b w : Byte) :
    (Color.pack r g b w).toNat = w.toNat * 2 ^ 24 + r.toNat * 2 ^ 16 + g.toNat * 2 ^ 8 + b.toNat := by
  unfold Color.pack
  rw [toNat_append_byte, toNat_append_byte, toNat_append_byte]
  ring

@[simp] theorem Color.blue_pack (r g b w : Byte) : Color.blue (Color.pack r g b w) = b :=
  BitVec.extractLsb'_append_eq_right

@[simp] theorem Color.green_pack (r g b w : Byte) : Color.green (Color.pack r g b w) = g :=
  (BitVec.extractLsb'_append_eq_of_le (by decide)).trans BitVec.extractLsb'_append_eq_right

@[simp] theorem Color.red_pack (r g b w : Byte) : Color.red (Color.pack r g b w) = r :=
  ((BitVec.extractLsb'_append_eq_of_le (by decide)).trans (BitVec.extractLsb'_append_eq_of_le (by decide))).trans
    BitVec.extractLsb'_append_eq_right

@[simp] theorem Color.white_pack (r g b w : Byte) : Color.white (Color.pack r g b w) = w :=
  ((BitVec.extractLsb'_append_eq_of_le (by decide)).trans (BitVec.extractLsb'_append_eq_of_le (by decide))).trans
    BitVec.extractLsb'_append_eq_left

/-- The four adjacent bytes of a Color, joined two at a time, are the Color. -/
@[simp] theorem Color.pack_fields (c : Color) :
    Color.pack (Color.red c) (Color.green c) (Color.blue c) (Color.white c) = c := by
  unfold Color.pack Color.red Color.green Color.blue Color.white
  have hwr : c.extractLsb' 24 8 ++ c.extractLsb' 16 8 = c.extractLsb' 16 16 :=
    BitVec.extractLsb'_append_extractLsb'_eq_extractLsb' rfl
  have hwrg : c.extractLsb' 16 16 ++ c.extractLsb' 8 8 = c.extractLsb' 8 24 :=
    BitVec.extractLsb'_append_extractLsb'_eq_extractLsb' rfl
  have hwrgb : c.extractLsb' 8 24 ++ c.extractLsb' 0 8 = c.extractLsb' 0 32 :=
    BitVec.extractLsb'_append_extractLsb'_eq_extractLsb' rfl
  rw [hwr, hwrg, hwrgb, BitVec.extractLsb'_eq_self]

/-- Settles O8: the value by appending a byte at a time, the fields and the inverse by where appending puts each byte. -/
theorem colorPackAndUnpack : Obligations.ColorPackAndUnpack :=
  ⟨fun r g b w => ⟨Color.toNat_pack r g b w, Color.red_pack r g b w, Color.green_pack r g b w,
    Color.blue_pack r g b w, Color.white_pack r g b w⟩, Color.pack_fields, by decide⟩

end Sys2Proof

/-! PROOF. O9: the wire order (30_encoding R118). -/

namespace Sys2Proof.Machine

theorem wireChannels_length (o : ColorOrder) : (wireChannels o).length = channels o := by cases o <;> rfl

/-- Every channel on the wire has a place in the pixel, so `woff` skips none. -/
theorem map_some_woff (o : ColorOrder) : (woff o).map some = (wireChannels o).map (off o) := by cases o <;> rfl

theorem woff_getElem?_of_lt {o : ColorOrder} {c : Nat} (h : c < channels o) :
    ∃ ch, (wireChannels o)[c]? = some ch ∧ ∃ k, off o ch = some k ∧ (woff o)[c]? = some k := by
  obtain ⟨ch, hch⟩ : ∃ ch, (wireChannels o)[c]? = some ch :=
    ⟨_, List.getElem?_eq_getElem (h.trans_eq (wireChannels_length o).symm)⟩
  have hoff : ((woff o)[c]?).map some = some (off o ch) := by
    rw [← List.getElem?_map, map_some_woff, List.getElem?_map, hch, Option.map_some]
  obtain ⟨k, hk, hsome⟩ := Option.map_eq_some_iff.mp hoff
  exact ⟨ch, hch, k, hsome.symm, hk⟩

/-- Settles O9: `wireChannels` is defined as the rule says it, the offsets follow by `map_some_woff`, and the table is
`woff` evaluated on each order. -/
theorem wireOrderIsFixed : Obligations.WireOrderIsFixed :=
  ⟨fun _ => rfl, fun _ _ => woff_getElem?_of_lt, rfl, rfl, rfl, rfl, rfl, rfl⟩

end Sys2Proof.Machine

/-! PROOF. O46: the levels of one period (30_encoding R120). -/

namespace Sys2Proof.Machine

theorem periodLevels_length {p : Params} {d : Nat} (h : d ≤ p.periodTicks) :
    (periodLevels p d).length = p.periodTicks := by
  simp only [periodLevels, List.length_append, List.length_replicate]
  omega

theorem periodLevels_getElem? {p : Params} {d k : Nat} (hk : k < p.periodTicks) :
    (periodLevels p d)[k]? = some (decide (k < d)) := by
  unfold periodLevels
  by_cases h : k < d
  · rw [List.getElem?_append_left (by simpa using h), List.getElem?_replicate_of_lt h, decide_eq_true h]
  · rw [List.getElem?_append_right (by simpa using h), List.length_replicate,
      List.getElem?_replicate_of_lt (by omega), decide_eq_false h]

theorem periodLevels_zero (p : Params) : periodLevels p 0 = List.replicate p.periodTicks false := rfl

/-- Settles O46: tick `k` lies in the high run for `k < d` and in the low run after it. -/
theorem periodIsHighForItsDuty : Obligations.PeriodIsHighForItsDuty :=
  fun p _ hd => ⟨periodLevels_length hd, fun _ => periodLevels_getElem?, periodLevels_zero p⟩

end Sys2Proof.Machine

/-! PROOF. The pixel port (40_pixelstore R130 to R144): what a command that passes its checks answers, and what the
pixel writers and the pixel reader give, in the form the statements use. -/

namespace Sys2Proof.Machine

/-- Check 3 of R242 fails: the fault is recorded. -/
theorem State.guarded_of_init_ne {s : State} {op : Opcode} {i : InstNo} {c : Inst} {k : Inst → Out}
    (hc : s.inst? i = some c) (hi : c.init ≠ requiredInit op) :
    s.guarded op i k = .next (s.raise { inst := i, opcode := op, reason := initFault op }) := by
  have hcheck : s.check op i = .fault (initFault op) := by simp only [State.check, hc, if_pos hi]
  rw [State.guarded, hcheck]

/-- A pixel writer whose checks pass replaces the pixel memory of its instance and returns unit (R130). -/
theorem pixelWrite_of_pass {s : State} {op : Opcode} {i : InstNo} {c : Inst} {f : Inst → Memory}
    (hc : s.inst? i = some c) (hi : c.init = requiredInit op) (hs : c.state = .idle) :
    pixelWrite op i f s =
      .next { s with insts := s.insts.set i.toNat { c with pix := f c }, cur := none, result := .unit } :=
  State.guarded_of_pass hc hi fun _ => hs

theorem Inst.setPixel_of_lt {c : Inst} {index : Index} (h : index.toNat < c.cfg.ledCount) (r g b w : Byte) :
    c.setPixel index r g b w = writePixel c.cfg.colorOrder index.toNat r g b w c.pix :=
  if_pos h

/-- An index of `N` or more is a silent no-op (R142). -/
theorem Inst.setPixel_of_le {c : Inst} {index : Index} (h : c.cfg.ledCount ≤ index.toNat) (r g b w : Byte) :
    c.setPixel index r g b w = c.pix :=
  if_neg (Nat.not_lt.2 h)

/-- Settles O16: in range `setPixel` is `writePixel`, which puts each channel of the order at its offset and no byte
elsewhere. -/
theorem setPixelRgbwWritesOnePixel : Obligations.SetPixelRgbwWritesOnePixel := by
  intro s i c index r g b w hc hi hs
  refine ⟨_, pixelWrite_of_pass hc hi hs, fun hlt => ?_, fun hle => Inst.setPixel_of_le hle r g b w⟩
  rw [Inst.setPixel_of_lt hlt]
  exact ⟨read_writePixel_channel c.cfg.colorOrder index.toNat r g b w c.pix,
    read_writePixel_outside c.cfg.colorOrder index.toNat r g b w c.pix⟩

/-- Only white is ever missing, on the three-channel orders (R71). -/
theorem off_eq_none {o : ColorOrder} {ch : Channel} (h : off o ch = none) : ch = .w ∧ channels o = 3 := by
  revert h
  cases o <;> cases ch <;> decide

/-- The Color of a pixel whose bytes hold the channels `r`, `g`, `b`, `w`, with `w = 0` where the order has no white
(R135). -/
theorem readPixel_of_channels {o : ColorOrder} {p : Nat} {m : Memory} {r g b w : Byte}
    (hread : ∀ ch k, off o ch = some k → m.read (p * channels o + k) = some (channelValue r g b w ch))
    (hwhite : channels o = 3 → w = 0) : readPixel o p m = some (w ++ r ++ g ++ b) := by
  have hchannel : ∀ ch, readChannel o (p * channels o) ch m = some (channelValue r g b w ch) := by
    intro ch
    unfold readChannel
    split
    · next k hk => exact hread ch k hk
    · next hnone =>
      obtain ⟨rfl, h3⟩ := off_eq_none hnone
      rw [channelValue, hwhite h3]
  simp only [readPixel, hchannel, Option.bind_some, channelValue, Color.pack]

theorem execGetPixelColor_of_lt {s : State} {i : InstNo} {c : Inst} {index : Index} {color : Color}
    (hc : s.inst? i = some c) (hi : c.init = .ready) (hlt : index.toNat < c.cfg.ledCount)
    (hcolor : readPixel c.cfg.colorOrder index.toNat c.pix = some color) :
    execGetPixelColor i index s = .next (s.ret (.color color)) := by
  rw [execGetPixelColor, State.guarded_of_pass (op := .getPixelColor) hc hi nofun, if_pos hlt, hcolor]

theorem execGetPixelColor_of_le {s : State} {i : InstNo} {c : Inst} {index : Index}
    (hc : s.inst? i = some c) (hi : c.init = .ready) (hle : c.cfg.ledCount ≤ index.toNat) :
    execGetPixelColor i index s = .next (s.ret (.color 0)) := by
  rw [execGetPixelColor, State.guarded_of_pass (op := .getPixelColor) hc hi nofun, if_neg (Nat.not_lt.2 hle)]

/-- Settles O18: the bytes at the pixel's offsets are the channels `readPixel` packs. -/
theorem getPixelColorReadsThePixel : Obligations.GetPixelColorReadsThePixel :=
  fun _ _ _ _ hc hi => ⟨execGetPixelColor_of_le hc hi, fun _ _ _ _ hlt hread hwhite =>
    execGetPixelColor_of_lt hc hi hlt (readPixel_of_channels hread hwhite)⟩

/-- A channel of a pixel in `start .. stop - 1` after `fillPixels` (R136, R137). -/
theorem read_fillPixels_of_mem {o : ColorOrder} {start stop p k : Nat} {ch : Channel} (color : Color) (m : Memory)
    (h1 : start ≤ p) (h2 : p < stop) (hk : off o ch = some k) :
    (fillPixels o start stop color m).read (p * channels o + k) =
      some (channelValue (Color.red color) (Color.green color) (Color.blue color) (Color.white color) ch) := by
  obtain ⟨n, rfl⟩ := Nat.exists_eq_add_of_le (h1.trans h2.le)
  exact read_fillPixels_channel o start n color m p ch k h1 h2 hk

/-- `fillPixels` leaves the bytes of every pixel outside `start .. stop - 1`, an empty range among them (R137). -/
theorem read_fillPixels_of_not_mem {o : ColorOrder} {start stop a : Nat} (color : Color) (m : Memory)
    (h : ¬ (start ≤ a / channels o ∧ a / channels o < stop)) :
    (fillPixels o start stop color m).read a = m.read a := by
  rcases Nat.le_total stop start with hle | hle
  · rw [fillPixels_of_le o start stop color m hle]
  · obtain ⟨n, rfl⟩ := Nat.exists_eq_add_of_le hle
    exact read_fillPixels_outside o start n color m a h

/-- An address past the end of the pixel memory belongs to no pixel (R70). -/
theorem ledCount_le_div_channels {cfg : InstCfg} {a : Nat} (h : pixBytes cfg ≤ a) :
    cfg.ledCount ≤ a / channels cfg.colorOrder :=
  (Nat.le_div_iff_mul_le (channels_pos cfg.colorOrder)).2 h

/-- Settles O19: FILL fills the pixels `0 .. N - 1`, whose bytes are those below `PIXBYTES`. -/
theorem fillWritesEveryPixel : Obligations.FillWritesEveryPixel := by
  intro s i c color hc hi hs
  refine ⟨_, pixelWrite_of_pass hc hi hs, fun p ch k hp hk => ?_, fun a ha => ?_⟩
  · exact read_fillPixels_of_mem color c.pix (Nat.zero_le p) hp hk
  · exact read_fillPixels_of_not_mem color c.pix fun h => Nat.not_lt.2 (ledCount_le_div_channels ha) h.2

/-- Settles O20: the pixels filled are those from `start` up to `rangeEnd`, which clips the unbounded sum at `N`. -/
theorem fillRangeWritesTheClippedRange : Obligations.FillRangeWritesTheClippedRange := by
  intro s i c start count color hc hi hs
  refine ⟨_, pixelWrite_of_pass hc hi hs, fun p ch k h1 h2 hk => ?_, fun a ha => ?_⟩
  · exact read_fillPixels_of_mem color c.pix h1 h2 hk
  · exact read_fillPixels_of_not_mem color c.pix ha

/-- Settles O21: `zeroBytes` writes 0 below `PIXBYTES` and nothing from there on. -/
theorem clearZeroesEveryByte : Obligations.ClearZeroesEveryByte := by
  intro s i c hc hi hs
  refine ⟨_, pixelWrite_of_pass hc hi hs, fun a ha => ?_, fun a ha => ?_⟩
  · rw [read_zeroBytes, if_pos ha]
  · rw [read_zeroBytes, if_neg (Nat.not_lt.2 ha)]

/-- Settles O22: the effect behind the checks is the one write. -/
theorem setBrightnessWritesBrightOnly : Obligations.SetBrightnessWritesBrightOnly :=
  fun _ _ _ _ hc hi hs => State.guarded_of_pass hc hi fun _ => hs

end Sys2Proof.Machine

/-! PROOF. O23: GET_COUNT (40_pixelstore R139). `N` fits 16 bits in an admitted configuration (R8), and no step writes
the configuration (R33). -/

namespace Sys2Proof.Machine

/-- `N <= 2^INDEX_WIDTH - 1` for every instance of an admitted configuration (R8). -/
theorem ledCount_lt_of_configOk {s : State} {i : InstNo} {c : Inst} (h : s.configOk = true) (hc : s.inst? i = some c) :
    c.cfg.ledCount < 2 ^ 16 := by
  have hmem : c.cfg ∈ s.cfgs := List.mem_map_of_mem (List.mem_of_getElem? hc)
  simp only [State.configOk, Machine.configOk, Bool.and_eq_true] at h
  obtain ⟨⟨⟨-, hall⟩, -⟩, -⟩ := h
  have hcfg := List.all_eq_true.1 hall c.cfg hmem
  simp only [instCfgOk, Bool.and_eq_true, decide_eq_true_eq] at hcfg
  obtain ⟨⟨-, hle⟩, -⟩ := hcfg
  exact Nat.lt_of_le_sub_one (Nat.two_pow_pos 16) hle

theorem State.SameConfig.exists_inst? {s t : State} {i : InstNo} {c : Inst} (h : s.SameConfig t)
    (hc : s.inst? i = some c) : ∃ d, t.inst? i = some d ∧ d.cfg = c.cfg := by
  obtain ⟨-, hcfgs⟩ := h
  have hcfg : t.cfgs[i.toNat]? = some c.cfg := by
    rw [hcfgs, State.cfgs, List.getElem?_map]
    exact congrArg (Option.map Inst.cfg) hc
  rwa [State.cfgs, List.getElem?_map, Option.map_eq_some_iff] at hcfg

/-- Settles O23: the count returned is `N` cut to 16 bits, which cuts nothing; an UNINIT instance fails check 3; a step
keeps the configuration. -/
theorem getCountReturnsN : Obligations.GetCountReturnsN := by
  intro s i c hc
  refine ⟨fun hi hcfg => ⟨BitVec.ofNat 16 c.cfg.ledCount, ?_, State.guarded_of_pass hc hi nofun⟩, fun hi => ?_,
    fun t hstep => ?_⟩
  · rw [BitVec.toNat_ofNat, Nat.mod_eq_of_lt (ledCount_lt_of_configOk hcfg hc)]
  · exact State.guarded_of_init_ne hc (hi ▸ nofun)
  · obtain ⟨d, hd, hsame⟩ := (step_sameConfig hstep).exists_inst? hc
    exact ⟨d, hd, congrArg InstCfg.ledCount hsame⟩

end Sys2Proof.Machine

/-! PROOF. O26: who writes the pixels and the brightness (40_pixelstore R144, 41_encoder R171). As for the
configuration, only an update of one `Inst` can change a field of an instance; here the field is followed through each
command, phase of SHOW and period. -/

namespace Sys2Proof.Machine

/-- Every instance has the same `f` in `t` as in `s`. -/
def State.Keeps {α : Type} (f : Inst → α) (s t : State) : Prop := ∀ j, (t.inst? j).map f = (s.inst? j).map f

theorem State.Keeps.of_insts_eq {α : Type} {f : Inst → α} {s t : State} (h : t.insts = s.insts) : s.Keeps f t :=
  fun j => by rw [State.inst?, h, State.inst?]

/-- Replacing one `Inst` by one with the same `f`. -/
theorem State.Keeps.of_insts_set {α : Type} {f : Inst → α} {s t : State} {i : InstNo} {c c' : Inst}
    (hc : s.inst? i = some c) (ht : t.insts = s.insts.set i.toNat c') (hf : f c' = f c) : s.Keeps f t := by
  intro j
  have hj : t.inst? j = (s.setInst i c').inst? j := by rw [State.inst?, ht, State.inst?, State.setInst_insts]
  rw [hj]
  by_cases hji : j = i
  · subst hji
    rw [State.inst?_setInst_self s j c' c hc, hc, Option.map_some, Option.map_some, hf]
  · rw [State.inst?_setInst_of_ne s c' hji]

theorem State.Keeps.trans {α : Type} {f : Inst → α} {s t u : State} (h : s.Keeps f t) (h' : t.Keeps f u) :
    s.Keeps f u :=
  fun j => (h' j).trans (h j)

theorem State.Keeps.eq {α : Type} {f : Inst → α} {s t : State} {j : InstNo} {c d : Inst} (h : s.Keeps f t)
    (hc : s.inst? j = some c) (hd : t.inst? j = some d) : f d = f c := by
  have hj := h j
  rw [hc, hd] at hj
  exact Option.some.inj hj

@[simp] theorem waitOn_insts (i : InstNo) (c : Inst) (s : State) : (waitOn i c s).insts = s.insts := by
  unfold waitOn
  split <;> rfl

/-- What a command `op` is not listed to write, of the pixels and the brightness of every instance, it keeps (R144). -/
def State.KeepsUnlisted (op : Opcode) (s t : State) : Prop :=
  (op ∉ [.beginCtl, .endCtl, .setPixelRgb, .setPixelRgbw, .setPixelColor, .fill, .fillRange, .clear] →
    s.Keeps Inst.pix t) ∧
  (op ∉ [.beginCtl, .setBrightness] → s.Keeps Inst.bright t)

theorem State.KeepsUnlisted.of_insts_eq {op : Opcode} {s t : State} (h : t.insts = s.insts) : s.KeepsUnlisted op t :=
  ⟨fun _ => .of_insts_eq h, fun _ => .of_insts_eq h⟩

/-- Each command that passed its checks. -/
theorem CommandEffect.keepsUnlisted {i : Instr} {c : Inst} {s t : State} (hc : s.inst? i.inst = some c)
    (h : CommandEffect i c s t) : s.KeepsUnlisted i.opcode t := by
  cases i with
  | beginCtl =>
    exact ⟨fun hop => absurd (by simp [Instr.opcode]) hop, fun hop => absurd (by simp [Instr.opcode]) hop⟩
  | endCtl | setPixelRgb | setPixelRgbw | setPixelColor | fill | fillRange | clear =>
    obtain ⟨-, -, rfl⟩ := h
    exact ⟨fun hop => absurd (by simp [Instr.opcode]) hop, fun _ => .of_insts_set hc rfl rfl⟩
  | setBrightness =>
    obtain ⟨-, -, rfl⟩ := h
    exact ⟨fun _ => .of_insts_set hc rfl rfl, fun hop => absurd (by simp [Instr.opcode]) hop⟩
  | getPixelColor =>
    obtain ⟨-, color, rfl, -, -⟩ := h
    exact .of_insts_eq rfl
  | showFrame =>
    obtain ⟨-, -, rfl⟩ := h
    exact .of_insts_eq rfl
  | getCount | canShow | isBusy =>
    obtain ⟨-, rfl⟩ := h
    exact .of_insts_eq rfl
  | wait j =>
    obtain ⟨-, rfl⟩ := h
    exact .of_insts_eq (waitOn_insts j c s)

theorem exec_keepsUnlisted {i : Instr} {s t : State} (h : exec i s = .next t) : s.KeepsUnlisted i.opcode t := by
  rcases exec_next h with ⟨rfl, -⟩ | ⟨r, rfl⟩ | ⟨c, hc, he⟩
  · exact .of_insts_eq rfl
  · exact .of_insts_eq rfl
  · exact he.keepsUnlisted hc

/-- `PIX[i]` and `BRIGHT[i]`: what the encoder reads (R171). -/
def Inst.pixelStore (c : Inst) : Memory × Byte := (c.pix, c.bright)

/-- The phases of SHOW, ENCODE among them, and the WAIT that holds (R171). -/
theorem continueCurrent_keeps_pixelStore {k : Cur} {s t : State} (h : continueCurrent k s = .next t) :
    s.Keeps Inst.pixelStore t := by
  rcases continueCurrent_next h with rfl | ⟨c, hc, hphase⟩
  · exact .of_insts_eq rfl
  · rcases hphase with ⟨-, -, -, rfl⟩ | ⟨-, -, entries, -, rfl⟩ | ⟨-, -, rfl⟩ | ⟨-, -, -, rfl⟩ | ⟨-, rfl⟩
    · exact .of_insts_set hc rfl rfl
    · exact .of_insts_set hc rfl rfl
    · exact .of_insts_set hc rfl rfl
    · exact .of_insts_set hc rfl rfl
    · exact .of_insts_eq (waitOn_insts k.inst c s)

theorem Inst.transfer_pixelStore {i : InstNo} {c c' : Inst} (h : c.transfer i = .ok c') :
    c'.pixelStore = c.pixelStore := by
  rcases Inst.transfer_ok h with ⟨-, -, d, left, -, -, rfl⟩ | ⟨-, rfl⟩ <;> rfl

theorem Inst.produce_pixelStore (lag : CcrLag) (c : Inst) : (c.produce lag).pixelStore = c.pixelStore := by
  rw [Inst.pixelStore, Inst.produce_pix, Inst.produce_bright, Inst.pixelStore]

theorem tgPeriod_keeps_pixelStore {i : InstNo} {s t : State} (h : tgPeriod i s = .next t) :
    s.Keeps Inst.pixelStore t := by
  rcases tgPeriod_next h with rfl | ⟨c, c', hc, -, htransfer, rfl⟩
  · exact .of_insts_eq rfl
  · exact .of_insts_set hc rfl ((Inst.produce_pixelStore _ c').trans (Inst.transfer_pixelStore htransfer))

/-- Every turn but the one in which the host issues a command. -/
theorem agentTurn_keeps_pixelStore {a : Agent} {s t : State} (h : agentTurn a s = .next t)
    (hno : a ≠ .host ∨ s.cur ≠ none) : s.Keeps Inst.pixelStore t := by
  cases a with
  | timingGenerator i => exact tgPeriod_keeps_pixelStore h
  | timeSource =>
    cases h
    exact .of_insts_eq rfl
  | host =>
    have hcur : s.cur ≠ none := hno.resolve_left (not_not_intro rfl)
    rcases hostTurn_next h with rfl | ⟨-, k, -, hk⟩ | ⟨-, hnone, -⟩
    · exact .of_insts_eq rfl
    · exact continueCurrent_keeps_pixelStore hk
    · exact absurd hnone hcur

theorem step_keeps_pixelStore {s t : State} (h : step s = .next t) (hno : s.nextAgent ≠ .host ∨ s.cur ≠ none) :
    s.Keeps Inst.pixelStore t := by
  obtain ⟨-, ⟨-, rfl⟩ | ⟨-, hturn⟩⟩ := step_next h
  · exact .of_insts_eq rfl
  · exact .trans (.of_insts_eq s.takeTurn_insts) (agentTurn_keeps_pixelStore hturn (by rwa [State.takeTurn_cur]))

/-- Settles O26: a step that issues no command keeps what the encoder reads, and a command keeps what it is not listed
to write. -/
theorem onlyCommandsWritePixelsAndBrightness : Obligations.OnlyCommandsWritePixelsAndBrightness := by
  refine ⟨fun s t j c d h hc hd hno => ?_, fun i s t j c d h hc hd => ?_⟩
  · exact Prod.ext_iff.1 ((step_keeps_pixelStore h hno).eq hc hd)
  · obtain ⟨hpix, hbright⟩ := exec_keepsUnlisted h
    exact ⟨fun hop => (hpix hop).eq hc hd, fun hop => (hbright hop).eq hc hd⟩

end Sys2Proof.Machine

/-! PROOF. O27: the brightness scale (41_encoder R161). A brightness is at most 255, so the quotient is at most the
channel value: this is R161's bound, and it is why the cut to a byte loses nothing. -/

namespace Sys2Proof.Machine

theorem mul_div_255_le (v : Nat) {br : Nat} (hbr : br ≤ 255) : v * br / 255 ≤ v := by
  have hprod : v * br ≤ 255 * v := Nat.mul_comm 255 v ▸ Nat.mul_le_mul_left v hbr
  exact Nat.div_le_of_le_mul hprod

/-- The identity branch; the literal is spelled as `simp` spells it. -/
@[simp] theorem scale_full (v : Byte) : scale v 255#8 = v := if_pos rfl

theorem scale_toNat (v br : Byte) : (scale v br).toNat = v.toNat * br.toNat / 255 := by
  by_cases hfull : br = 255
  · simp [hfull]
  · have hfits : v.toNat * br.toNat / 255 < 2 ^ 8 :=
      (mul_div_255_le v.toNat (Nat.le_of_lt_succ br.isLt)).trans_lt v.isLt
    rw [scale, if_neg hfull, BitVec.toNat_ofNat, Nat.mod_eq_of_lt hfits]

theorem scale_toNat_le (v br : Byte) : (scale v br).toNat ≤ v.toNat :=
  scale_toNat v br ▸ mul_div_255_le v.toNat (Nat.le_of_lt_succ br.isLt)

/-- Settles O27: one formula covers both branches, and its quotient is at most the channel value. -/
theorem scaleIsTheFloorOfTheProduct : Obligations.ScaleIsTheFloorOfTheProduct :=
  fun v br => ⟨scale_toNat v br, scale_toNat_le v br, fun hfull => hfull ▸ scale_full v⟩

end Sys2Proof.Machine

/-! PROOF. O31, O32, O33, O36: the controller's commands (42_sequencer R181 to R193). -/

namespace Sys2Proof.Machine

theorem drawnPixels_keys (draw : Nat) (cfg : InstCfg) :
    (drawnPixels draw cfg).map Prod.fst = List.range (pixBytes cfg) := by
  simp [drawnPixels, Function.comp_def]

theorem drawnStream_length (draw : Nat) (p : Params) (cfg : InstCfg) :
    (drawnStream draw p cfg).length = streamLen p cfg := by
  simp [drawnStream]

/-- An entry of an allocated stream fits `DUTY_WIDTH` bits (R43). -/
theorem lt_of_mem_drawnStream {draw : Nat} {p : Params} {cfg : InstCfg} {d : Nat} (h : d ∈ drawnStream draw p cfg) :
    d < 2 ^ dutyBits p.dutyWidth := by
  obtain ⟨j, -, rfl⟩ := List.mem_map.1 h
  exact Nat.mod_lt _ (Nat.two_pow_pos _)

/-- The environment's choice, where the state holds one, is the outcome (log 8). -/
theorem State.allocOutcome_of_allocs {s : State} {ok : Bool} {rest : List Bool} (h : s.allocs = ok :: rest) :
    ok = s.allocOutcome := by
  rw [State.allocOutcome, h]

theorem execBegin_of_pass {s : State} {i : InstNo} {c : Inst} (hc : s.inst? i = some c) (hi : c.init = .uninit) :
    exec (.beginCtl i) s =
      .next (if s.allocOutcome then (s.afterDraw.setInst i (c.begun s.draws s.params)).ret (.bool true)
        else s.afterDraw.ret (.bool false)) :=
  State.guarded_of_pass hc hi nofun

/-- Settles O31: a READY instance fails check 3; on an UNINIT one the outcome of the draw decides between `Inst.begun`
and no change, and `Inst.begun` holds memories of the right sizes. -/
theorem beginAllocatesAndInitialises : Obligations.BeginAllocatesAndInitialises := by
  intro s i c hc hbright
  refine ⟨fun hi => State.guarded_of_init_ne hc (hi ▸ nofun), fun hi => ?_⟩
  refine ⟨s.allocOutcome, drawnPixels s.draws c.cfg, drawnStream s.draws s.params c.cfg,
    BitVec.ofNat 8 s.params.brightnessInit, fun _ _ h => (State.allocOutcome_of_allocs h).symm,
    drawnPixels_keys s.draws c.cfg, drawnStream_length s.draws s.params c.cfg, fun _ => lt_of_mem_drawnStream, ?_, ?_⟩
  · exact (BitVec.toNat_ofNat _ _).trans (Nat.mod_eq_of_lt (Nat.lt_succ_of_le hbright))
  · rw [execBegin_of_pass hc hi]
    cases s.allocOutcome <;> rfl

/-- Check 3 of R242 for every command but BEGIN (R240). -/
theorem exec_of_uninit {s : State} {j : Instr} {c : Inst} (hop : j.opcode ≠ .beginCtl) (hc : s.inst? j.inst = some c)
    (hi : c.init = .uninit) :
    exec j s = .next (s.raise { inst := j.inst, opcode := j.opcode, reason := .notInitialized }) := by
  cases j with
  | beginCtl => exact absurd rfl hop
  | endCtl | setPixelRgb | setPixelRgbw | setPixelColor | getPixelColor | fill | fillRange | clear | setBrightness
  | getCount | showFrame | canShow | isBusy | wait => exact State.guarded_of_init_ne hc (hi ▸ nofun)

theorem execEnd_of_pass {s : State} {i : InstNo} {c : Inst} (hc : s.inst? i = some c) (hi : c.init = .ready)
    (hs : c.state = .idle) : exec (.endCtl i) s = .next ((s.setInst i c.ended).ret .unit) :=
  State.guarded_of_pass hc hi fun _ => hs

/-- Settles O32: END leaves `Inst.ended`, which is UNINIT, so check 3 of a later command fails. -/
theorem endReleasesTheMemories : Obligations.EndReleasesTheMemories := by
  intro s i c hc hi hs
  have hend := execEnd_of_pass hc hi hs
  refine ⟨hend, fun t j ht hj hop => ?_⟩
  subst hj
  cases hend.symm.trans ht
  exact exec_of_uninit hop (State.inst?_setInst_self s j.inst c.ended c hc) c.ended_init

/-- R186 in natural numbers: for a `TIME_WIDTH`-bit timestamp the difference modulo `2^TIME_WIDTH` is that of the
complement added. -/
theorem State.elapsedSince_of_lt {s : State} {t : Nat} (h : t < 2 ^ s.params.timeWidth) :
    s.elapsedSince t = (s.now + (2 ^ s.params.timeWidth - t)) % 2 ^ s.params.timeWidth := by
  have hadd : ((s.now + (2 ^ s.params.timeWidth - t) : Nat) : Int) =
      (s.now : Int) - t + ((2 ^ s.params.timeWidth : Nat) : Int) := by omega
  rw [State.elapsedSince, ← Int.add_emod_right, ← hadd]
  exact Int.toNat_natCast _

theorem State.canShowFn_of_none {s : State} {c : Inst} (h : c.tLast = none) : s.canShowFn c = true := by
  rw [State.canShowFn, h]

theorem State.canShowFn_of_some {s : State} {c : Inst} {t : Nat} (h : c.tLast = some t) :
    s.canShowFn c = decide (s.params.resetThresholdUs ≤ s.elapsedSince t) := by
  rw [State.canShowFn, h]

/-- Settles O33: the value returned is `canShowFn`, whose elapsed time is the natural-number one. -/
theorem canShowMeasuresTheQuietPeriod : Obligations.CanShowMeasuresTheQuietPeriod := by
  intro s i c hc hi
  refine ⟨s.canShowFn c, State.guarded_of_pass hc hi nofun, State.canShowFn_of_none, fun t ht hlt => ?_⟩
  rw [State.canShowFn_of_some ht, decide_eq_true_iff, State.elapsedSince_of_lt hlt, State.now]

/-- Settles O36: the effect behind the checks is the write of `CUR`. -/
theorem showStartsAtWaitReset : Obligations.ShowStartsAtWaitReset :=
  fun _ _ _ hc hi hs => State.guarded_of_pass hc hi fun _ => hs

end Sys2Proof.Machine

/-! PROOF. O37, O38, O39 and the first part of O40: the phases of SHOW (42_sequencer R194 to R197). The host's turn in
a phase is that phase's step on the state in which the turn is taken. -/

namespace Sys2Proof.Machine

@[simp] theorem State.takeTurn_now (s : State) : s.takeTurn.now = s.now := by
  rw [State.now, State.takeTurn_clock, State.takeTurn_params, State.now]

@[simp] theorem State.takeTurn_elapsedSince (s : State) (t : Nat) : s.takeTurn.elapsedSince t = s.elapsedSince t := by
  rw [State.elapsedSince, State.takeTurn_now, State.takeTurn_params, State.elapsedSince]

@[simp] theorem State.takeTurn_canShowFn (s : State) (c : Inst) : s.takeTurn.canShowFn c = s.canShowFn c := by
  cases h : c.tLast with
  | none => rw [State.canShowFn_of_none h, State.canShowFn_of_none h]
  | some t => rw [State.canShowFn_of_some h, State.canShowFn_of_some h, State.takeTurn_params, State.takeTurn_elapsedSince]

theorem State.takeTurn_setInst (s : State) (i : InstNo) (c : Inst) :
    s.takeTurn.setInst i c = { s.takeTurn with insts := s.insts.set i.toNat c } := by
  rw [State.setInst, State.takeTurn_insts]

/-- The host's step in a phase of SHOW (R191). -/
def phaseStep (ph : Phase) (i : InstNo) (c : Inst) (s : State) : Out :=
  match ph with
  | .waitReset => stepWaitReset i c s
  | .encode => stepEncode i c s
  | .arm => stepArm i c s
  | .waitDone => stepWaitDone i c s

theorem continueCurrent_show {s : State} {i : InstNo} {c : Inst} (hc : s.inst? i = some c) (ph : Phase) :
    continueCurrent { inst := i, opcode := .showFrame, phase := some ph } s = phaseStep ph i c s := by
  simp only [continueCurrent, hc]
  cases ph <;> rfl

/-- R36: with a command under way the host goes on with it. -/
theorem hostTurn_of_cur {s : State} {k : Cur} (hf : s.faults = []) (hk : s.cur = some k) :
    hostTurn s = continueCurrent k s := by
  simp only [hostTurn, hf, hk]

theorem step_of_cur {s : State} {k : Cur} (h : Safety.HostTurn s) (hk : s.cur = some k) :
    step s = continueCurrent k s.takeTurn := by
  obtain ⟨hrun, hf, hnext⟩ := h
  rw [Safety.step_of_running hrun, hnext]
  exact hostTurn_of_cur (s.takeTurn_faults.trans hf) (s.takeTurn_cur.trans hk)

theorem step_of_phase {s : State} {i : InstNo} {c : Inst} {ph : Phase} (h : Safety.HostTurn s)
    (hc : s.inst? i = some c) (hk : s.cur = showAt i ph) : step s = phaseStep ph i c s.takeTurn :=
  (step_of_cur h hk).trans (continueCurrent_show ((s.inst?_takeTurn i).trans hc) ph)

/-- Settles O37: both branches of the hold, which looks at the same clock before and after the turn is taken. -/
theorem waitResetHoldsUntilCanShow : Obligations.WaitResetHoldsUntilCanShow := by
  intro s i c hturn hc hcur
  rw [step_of_phase hturn hc hcur, phaseStep, stepWaitReset, State.takeTurn_canShowFn, State.takeTurn_setInst]
  exact ⟨fun hno => by rw [hno]; rfl, fun hyes => if_pos hyes⟩

theorem stepEncode_of_encode {s : State} {i : InstNo} {c : Inst} {entries : List Nat}
    (h : encodeStream s.params c.cfg c.pix c.bright = some entries) :
    stepEncode i c s = .next { (s.setInst i { c with stream := entries }) with cur := showAt i .arm } := by
  rw [stepEncode, h]

/-- Settles O38: a complete pixel memory has an encode. -/
theorem encodeStoresTheStream : Obligations.EncodeStoresTheStream := by
  intro s i c hturn hc hcur hkeys
  obtain ⟨entries, hentries⟩ := encodeStream_isSome (p := s.params) c.bright hkeys
  refine ⟨entries, hentries, ?_⟩
  rw [step_of_phase hturn hc hcur, phaseStep, stepEncode_of_encode (by rwa [State.takeTurn_params]),
    State.takeTurn_setInst]
  rfl

/-- Settles O39: the step writes `Inst.armed`. -/
theorem armStartsTheTransfer : Obligations.ArmStartsTheTransfer := by
  intro s i c hturn hc hcur
  rw [step_of_phase hturn hc hcur, phaseStep, stepArm, State.takeTurn_params, State.takeTurn_setInst]
  rfl

/-- R197: the turn passes while `XF_TC` is 0, and otherwise disarms and returns. -/
theorem step_of_waitDone {s : State} {i : InstNo} {c : Inst} (h : Safety.HostTurn s) (hc : s.inst? i = some c)
    (hk : s.cur = showAt i .waitDone) :
    step s = if c.xfTc then .next ((s.takeTurn.setInst i (c.disarmed s.now)).ret .unit) else .next s.takeTurn := by
  rw [step_of_phase h hc hk, phaseStep, stepWaitDone, State.takeTurn_now]

end Sys2Proof.Machine

/-! PROOF. The second part of O40: who raises `XF_TC` (42_sequencer R197, R205). BEGIN and ARM clear it, no other step of
the host writes it, and a period sets it with the transfer that leaves none to do. -/

namespace Sys2Proof.Machine

/-- No instance whose `XF_TC` is 0 in `s` has it 1 in `t`. -/
def State.RaisesNoFlag (s t : State) : Prop :=
  ∀ j c d, s.inst? j = some c → t.inst? j = some d → d.xfTc = true → c.xfTc = true

theorem State.RaisesNoFlag.of_insts_eq {s t : State} (h : t.insts = s.insts) : s.RaisesNoFlag t :=
  fun _ _ _ hc hd htc => (State.Keeps.of_insts_eq (f := Inst.xfTc) h).eq hc hd ▸ htc

/-- Every instance after one was replaced is the new one, or an old one at another number. -/
theorem State.inst?_cases_of_insts_set {s t : State} {i j : InstNo} {c' d : Inst}
    (ht : t.insts = s.insts.set i.toNat c') (hd : t.inst? j = some d) :
    (j = i ∧ d = c') ∨ (j ≠ i ∧ s.inst? j = some d) :=
  State.inst?_setInst_cases (by rwa [State.inst?, State.setInst_insts, ← ht])

theorem State.RaisesNoFlag.of_insts_set {s t : State} {i : InstNo} {c c' : Inst} (hc : s.inst? i = some c)
    (ht : t.insts = s.insts.set i.toNat c') (htc : c'.xfTc = true → c.xfTc = true) : s.RaisesNoFlag t := by
  intro j b d hb hd hflag
  rcases State.inst?_cases_of_insts_set ht hd with ⟨rfl, rfl⟩ | ⟨-, hsame⟩
  · cases hc.symm.trans hb
    exact htc hflag
  · cases hb.symm.trans hsame
    exact hflag

theorem CommandEffect.raisesNoFlag {i : Instr} {c : Inst} {s t : State} (hc : s.inst? i.inst = some c)
    (h : CommandEffect i c s t) : s.RaisesNoFlag t := by
  cases i with
  | beginCtl =>
    obtain ⟨-, rfl⟩ := h
    split
    · exact .of_insts_set hc rfl nofun
    · exact .of_insts_eq rfl
  | endCtl | setPixelRgb | setPixelRgbw | setPixelColor | fill | fillRange | clear | setBrightness =>
    obtain ⟨-, -, rfl⟩ := h
    exact .of_insts_set hc rfl id
  | getPixelColor =>
    obtain ⟨-, color, rfl, -, -⟩ := h
    exact .of_insts_eq rfl
  | showFrame =>
    obtain ⟨-, -, rfl⟩ := h
    exact .of_insts_eq rfl
  | getCount | canShow | isBusy =>
    obtain ⟨-, rfl⟩ := h
    exact .of_insts_eq rfl
  | wait j =>
    obtain ⟨-, rfl⟩ := h
    exact .of_insts_eq (waitOn_insts j c s)

theorem exec_raisesNoFlag {i : Instr} {s t : State} (h : exec i s = .next t) : s.RaisesNoFlag t := by
  rcases exec_next h with ⟨rfl, -⟩ | ⟨r, rfl⟩ | ⟨c, hc, he⟩
  · exact .of_insts_eq rfl
  · exact .of_insts_eq rfl
  · exact he.raisesNoFlag hc

theorem continueCurrent_raisesNoFlag {k : Cur} {s t : State} (h : continueCurrent k s = .next t) :
    s.RaisesNoFlag t := by
  rcases continueCurrent_next h with rfl | ⟨c, hc, hphase⟩
  · exact .of_insts_eq rfl
  · rcases hphase with ⟨-, -, -, rfl⟩ | ⟨-, -, entries, -, rfl⟩ | ⟨-, -, rfl⟩ | ⟨-, -, -, rfl⟩ | ⟨-, rfl⟩
    · exact .of_insts_set hc rfl id
    · exact .of_insts_set hc rfl id
    · exact .of_insts_set hc rfl nofun
    · exact .of_insts_set hc rfl id
    · exact .of_insts_eq (waitOn_insts k.inst c s)

theorem hostTurn_raisesNoFlag {s t : State} (h : hostTurn s = .next t) : s.RaisesNoFlag t := by
  rcases hostTurn_next h with rfl | ⟨-, k, -, hk⟩ | ⟨-, -, w, rest, -, ⟨i, -, hi⟩ | ⟨e, -, rfl⟩⟩
  · exact .of_insts_eq rfl
  · exact continueCurrent_raisesNoFlag hk
  · exact exec_raisesNoFlag (s := { s with program := rest }) hi
  · exact .of_insts_eq rfl

/-- From `c` to `d` a requested transfer moved an entry to `CCR`, the only one left (R205). -/
structure Inst.LastTransfer (c d : Inst) : Prop where
  requested : c.tgDreq = true
  enabled : c.xfEn = true
  count : c.xfCnt = 1
  entry : c.stream[c.xfIdx]? = some d.ccr
  index : d.xfIdx = c.xfIdx + 1

/-- The rest of the period keeps `CCR` and `XF_IDX`. -/
theorem Inst.LastTransfer.produce {c d : Inst} (h : c.LastTransfer d) (lag : CcrLag) :
    c.LastTransfer (d.produce lag) where
  requested := h.requested
  enabled := h.enabled
  count := h.count
  entry := by rw [Inst.produce_ccr, h.entry]
  index := by rw [Inst.produce_xfIdx, h.index]

theorem Inst.transfer_raises_flag {i : InstNo} {c c' : Inst} (h : c.transfer i = .ok c') (hlow : c.xfTc = false)
    (hhigh : c'.xfTc = true) : c.LastTransfer c' := by
  rcases Inst.transfer_ok h with ⟨hreq, hen, d, left, hd, hcnt, rfl⟩ | ⟨-, rfl⟩
  · have hleft : left = 0 := by
      by_contra hne
      rw [Inst.transferred_xfTc, if_neg hne, hlow] at hhigh
      cases hhigh
    exact ⟨hreq, hen, by rw [hcnt, hleft], hd, Inst.transferred_xfIdx d left c⟩
  · rw [hlow] at hhigh
    cases hhigh

theorem tgPeriod_raises_flag {i j : InstNo} {s t : State} {c d : Inst} (h : tgPeriod i s = .next t)
    (hc : s.inst? j = some c) (hd : t.inst? j = some d) (hlow : c.xfTc = false) (hhigh : d.xfTc = true) :
    i = j ∧ c.tgRun = true ∧ c.LastTransfer d := by
  rcases tgPeriod_next h with rfl | ⟨b, b', hb, hrun, htransfer, rfl⟩
  · cases hc.symm.trans hd
    cases hlow.symm.trans hhigh
  · rcases State.inst?_setInst_cases hd with ⟨rfl, rfl⟩ | ⟨-, hsame⟩
    · cases hb.symm.trans hc
      rw [Inst.produce_xfTc] at hhigh
      exact ⟨rfl, hrun, (Inst.transfer_raises_flag htransfer hlow hhigh).produce _⟩
    · cases hc.symm.trans hsame
      cases hlow.symm.trans hhigh

theorem step_raises_flag {s t : State} {i : InstNo} {c d : Inst} (h : step s = .next t) (hc : s.inst? i = some c)
    (hd : t.inst? i = some d) (hlow : c.xfTc = false) (hhigh : d.xfTc = true) :
    s.nextAgent = .timingGenerator i ∧ c.tgRun = true ∧ c.LastTransfer d := by
  have hraised : ∀ u : State, u.insts = s.insts → ¬ u.RaisesNoFlag t := fun u hu hno => by
    rw [hno i c d (by rwa [State.inst?, hu]) hd hhigh] at hlow
    cases hlow
  obtain ⟨-, ⟨-, rfl⟩ | ⟨-, hturn⟩⟩ := step_next h
  · exact absurd (.of_insts_eq rfl) (hraised s rfl)
  · cases hagent : s.nextAgent with
    | host =>
      rw [hagent] at hturn
      exact absurd (hostTurn_raisesNoFlag hturn) (hraised s.takeTurn s.takeTurn_insts)
    | timeSource =>
      rw [hagent] at hturn
      cases hturn
      exact absurd (.of_insts_eq rfl) (hraised s.takeTurn s.takeTurn_insts)
    | timingGenerator j =>
      rw [hagent] at hturn
      obtain ⟨rfl, hperiod⟩ := tgPeriod_raises_flag hturn ((s.inst?_takeTurn i).trans hc) hd hlow hhigh
      exact ⟨rfl, hperiod⟩

/-- Settles O40: the two branches of the hold; and the period that raises the flag finds one entry left, which in a
transmission of the invariant is entry `L - 1`. -/
theorem waitDoneDisarmsAndReturns : Obligations.WaitDoneDisarmsAndReturns := by
  refine ⟨fun s i c hturn hc hcur => ?_, fun s t i c d hinv hstep hc hd hlow hhigh => ?_⟩
  · rw [step_of_waitDone hturn hc hcur, State.takeTurn_setInst]
    exact ⟨fun hno => by rw [hno]; rfl, fun hyes => if_pos hyes⟩
  · obtain ⟨hagent, hrun, ⟨hreq, hen, hcnt, hentry, hidx⟩⟩ := step_raises_flag hstep hc hd hlow hhigh
    have hinst := hinv.insts i c hc
    have hphase := hinst.phase
    rw [hinst.phase_of_running hrun] at hphase
    obtain ⟨-, -, -, -, -, hsum, -⟩ := hphase
    exact ⟨hagent, hrun, hreq, hen, by omega, hentry, by omega⟩

end Sys2Proof.Machine

/-! PROOF. O42: the period of the timing generator (42_sequencer R204, R205). -/

namespace Sys2Proof.Machine

theorem tgPeriod_of_stopped {s : State} {i : InstNo} {c : Inst} (hc : s.inst? i = some c) (hrun : c.tgRun = false) :
    tgPeriod i s = .next s := by
  simp only [tgPeriod, hc, hrun]
  rfl

theorem tgPeriod_of_transfer {s : State} {i : InstNo} {c c' : Inst} (hc : s.inst? i = some c) (hrun : c.tgRun = true)
    (ht : c.transfer i = .ok c') : tgPeriod i s = .next (s.setInst i (c'.produce s.params.ccrLag)) := by
  simp only [tgPeriod, hc, hrun, ht, if_true]

theorem Inst.transfer_of_entry {i : InstNo} {c : Inst} {d left : Nat} (hreq : c.tgDreq = true) (hen : c.xfEn = true)
    (hd : c.stream[c.xfIdx]? = some d) (hcnt : c.xfCnt = left + 1) : c.transfer i = .ok (c.transferred d left) := by
  simp only [Inst.transfer, hreq, hen, hd, hcnt, Bool.and_true, if_true]

theorem Inst.transfer_of_not_requested {i : InstNo} {c : Inst} (h : c.tgDreq = false ∨ c.xfEn = false) :
    c.transfer i = .ok c := by
  refine if_neg ?_
  rw [Bool.and_eq_true]
  rintro ⟨hreq, hen⟩
  rcases h with h | h
  · cases h.symm.trans hreq
  · cases h.symm.trans hen

/-- The period after the transfer, for both values of `CCR_LAG`: the record is of `CCR` or of the value in effect before
(R47, R205). -/
theorem Inst.produce_eq (lag : CcrLag) (c : Inst) : c.produce lag = { c with
    act := c.ccr
    wire := if c.pinMode = .timer then c.wire ++ [if lag = .lag0 then c.ccr else c.act] else c.wire } := by
  cases lag <;> by_cases hpin : c.pinMode = .timer <;> simp [Inst.produce, Inst.emit, hpin]

theorem step_of_generator {s : State} {i : InstNo} (h : Safety.Running s) (hagent : s.nextAgent = .timingGenerator i) :
    step s = tgPeriod i s.takeTurn := by
  rw [Safety.step_of_running h, hagent, agentTurn]

theorem step_of_transfer {s : State} {i : InstNo} {c c' : Inst} (h : Safety.Running s)
    (hagent : s.nextAgent = .timingGenerator i) (hc : s.inst? i = some c) (hrun : c.tgRun = true)
    (ht : c.transfer i = .ok c') :
    step s = .next { s.takeTurn with insts := s.insts.set i.toNat (c'.produce s.params.ccrLag) } := by
  rw [step_of_generator h hagent, tgPeriod_of_transfer ((s.inst?_takeTurn i).trans hc) hrun ht, State.takeTurn_params,
    State.takeTurn_setInst]

/-- Settles O42: a period is the transfer, where one is requested of an armed engine, then the record. -/
theorem periodTransfersAndEmits : Obligations.PeriodTransfersAndEmits := by
  intro s i c hrunning hagent hc
  refine ⟨fun hstopped => ?_, fun d hrun hreq hen hd hpos => ?_, fun hrun hno => ?_⟩
  · rw [step_of_generator hrunning hagent, tgPeriod_of_stopped ((s.inst?_takeTurn i).trans hc) hstopped]
  · obtain ⟨left, hcnt⟩ := Nat.exists_eq_add_one_of_ne_zero (Nat.ne_of_gt hpos)
    rw [step_of_transfer hrunning hagent hc hrun (Inst.transfer_of_entry hreq hen hd hcnt), Inst.produce_eq]
    by_cases hlast : left = 0 <;> simp [Inst.transferred, hcnt, hen, hlast]
  · rw [step_of_transfer hrunning hagent hc hrun (Inst.transfer_of_not_requested hno), Inst.produce_eq]

end Sys2Proof.Machine

/-! PROOF. O11: the checks of an issued command (60_exceptions R238 to R242). Every command is the guard around an effect,
so the guard's branches are the command's; and the effect behind it is a next state that writes neither `FAULT` nor
`REFUSED`. -/

namespace Sys2Proof.Machine

/-- R242: every command runs its effect behind the checks of its own opcode and instance. -/
theorem exec_eq_guarded (i : Instr) (s : State) : ∃ k, exec i s = s.guarded i.opcode i.inst k := by
  cases i <;> exact ⟨_, rfl⟩

/-! The guard's remaining branches; `guarded_of_init_ne` is check 3, `guarded_of_pass` the effect. -/

/-- Check 2 of R242 fails: the run is refused. -/
theorem State.guarded_of_badInstance {s : State} {op : Opcode} {i : InstNo} {k : Inst → Out} (h : s.inst? i = none) :
    s.guarded op i k = .next (s.refuse .badInstance) := by
  have hcheck : s.check op i = .refuse .badInstance := by simp only [State.check, h]
  rw [State.guarded, hcheck]

/-- Check 4 of R242 fails: the fault is recorded. -/
theorem State.guarded_of_busy {s : State} {op : Opcode} {i : InstNo} {c : Inst} {k : Inst → Out}
    (hc : s.inst? i = some c) (hi : c.init = requiredInit op) (hn : needsIdle op = true) (hs : c.state ≠ .idle) :
    s.guarded op i k = .next (s.raise { inst := i, opcode := op, reason := .busy }) := by
  have hcheck : s.check op i = .fault .busy := by
    simp only [State.check, hc, if_neg (not_not_intro hi), if_pos (And.intro hn hs)]
  rw [State.guarded, hcheck]

/-! What the checks ask of an opcode, in the form the statement lists it. -/

theorem requiredInit_of_ne_begin {op : Opcode} (h : op ≠ .beginCtl) : requiredInit op = .ready := by
  revert h
  cases op <;> decide

theorem needsIdle_iff_mem (op : Opcode) : needsIdle op = true ↔
    op ∈ [.setPixelRgb, .setPixelRgbw, .setPixelColor, .fill, .fillRange, .clear, .setBrightness, .showFrame,
      .endCtl] := by
  cases op <;> decide

theorem needsIdle_of_query {op : Opcode} (h : op ∈ [.getPixelColor, .getCount, .canShow, .isBusy, .wait]) :
    needsIdle op = false := by
  revert h
  cases op <;> decide

/-- `t` has the `CLOCK`, the `FAULT` records and the refusal of `s`. -/
structure State.SameStatus (s t : State) : Prop where
  clock : t.clock = s.clock
  faults : t.faults = s.faults
  refusedBy : t.refusedBy = s.refusedBy

theorem waitOn_sameStatus (i : InstNo) (c : Inst) (s : State) : s.SameStatus (waitOn i c s) := by
  unfold waitOn
  split <;> exact ⟨rfl, rfl, rfl⟩

/-- The effect of each command that passed its checks. -/
theorem CommandEffect.sameStatus {i : Instr} {c : Inst} {s t : State} (h : CommandEffect i c s t) :
    s.SameStatus t := by
  cases i with
  | beginCtl =>
    obtain ⟨-, rfl⟩ := h
    split <;> exact ⟨rfl, rfl, rfl⟩
  | endCtl | setPixelRgb | setPixelRgbw | setPixelColor | fill | fillRange | clear | setBrightness | showFrame =>
    obtain ⟨-, -, rfl⟩ := h
    exact ⟨rfl, rfl, rfl⟩
  | getPixelColor =>
    obtain ⟨-, color, rfl, -, -⟩ := h
    exact ⟨rfl, rfl, rfl⟩
  | getCount | canShow | isBusy =>
    obtain ⟨-, rfl⟩ := h
    exact ⟨rfl, rfl, rfl⟩
  | wait j =>
    obtain ⟨-, rfl⟩ := h
    exact waitOn_sameStatus j c s

/-- All checks passed: the command has its effect. GET_PIXEL_COLOR alone may stop, on a byte its memory lacks (log 14). -/
theorem exec_of_pass {i : Instr} {s : State} {c : Inst} (hc : s.inst? i.inst = some c)
    (hi : c.init = requiredInit i.opcode) (hs : needsIdle i.opcode = true → c.state = .idle)
    (hpix : i.opcode = .getPixelColor → c.pix.map Prod.fst = List.range (pixBytes c.cfg)) :
    ∃ t, exec i s = .next t ∧ CommandEffect i c s t := by
  cases i with
  | getPixelColor j index =>
    rcases Nat.lt_or_ge index.toNat c.cfg.ledCount with hlt | hle
    · obtain ⟨color, hcolor⟩ := readPixel_isSome c.cfg c.pix index.toNat (hpix rfl) hlt
      exact ⟨_, execGetPixelColor_of_lt hc hi hlt hcolor, hi, color, rfl, fun _ => hcolor, fun hn => absurd hlt hn⟩
    · exact ⟨_, execGetPixelColor_of_le hc hi hle, hi, 0, rfl, fun hlt => absurd hlt (Nat.not_lt.2 hle), fun _ => rfl⟩
  | beginCtl | getCount | canShow | isBusy | wait => exact ⟨_, State.guarded_of_pass hc hi hs, hi, rfl⟩
  | endCtl | setPixelRgb | setPixelRgbw | setPixelColor | fill | fillRange | clear | setBrightness | showFrame =>
    exact ⟨_, State.guarded_of_pass hc hi hs, hi, hs rfl, rfl⟩

/-- Settles O11: check 1 is the decoder's answer, the next three are the guard's branches, and behind them the effect
leaves the fault records and the refusal. -/
theorem checksNameTheOutcome : Obligations.ChecksNameTheOutcome := by
  refine ⟨fun w s hw => issueWord_of_not_ok hw s, fun i s => ?_⟩
  obtain ⟨k, hk⟩ := exec_eq_guarded i s
  refine ⟨fun hlen => ?_, fun c hc => ⟨fun hop hi => ?_, fun hop hi => exec_of_uninit hop hc hi, fun hop hi hs => ?_,
    fun hpass hpix => ?_⟩⟩
  · rw [hk]
    exact State.guarded_of_badInstance (List.getElem?_eq_none hlen)
  · rw [hk, hop]
    exact State.guarded_of_init_ne hc (hi ▸ nofun)
  · have hne : i.opcode ≠ .beginCtl := fun e => by simp [e] at hop
    rw [hk]
    exact State.guarded_of_busy hc (hi.trans (requiredInit_of_ne_begin hne).symm) ((needsIdle_iff_mem _).2 hop) hs
  · obtain ⟨hinit, hstate⟩ : c.init = requiredInit i.opcode ∧ (needsIdle i.opcode = true → c.state = .idle) := by
      rcases hpass with ⟨hop, hi⟩ | ⟨hop, hi, hquery | hidle⟩
      · rw [hop]
        exact ⟨hi, nofun⟩
      · exact ⟨hi.trans (requiredInit_of_ne_begin hop).symm, fun hn => by simp [needsIdle_of_query hquery] at hn⟩
      · exact ⟨hi.trans (requiredInit_of_ne_begin hop).symm, fun _ => hidle⟩
    obtain ⟨t, ht, heffect⟩ := exec_of_pass hc hinit hstate hpix
    exact ⟨t, ht, heffect.sameStatus.faults, heffect.sameStatus.refusedBy⟩

end Sys2Proof.Machine

/-! PROOF. O44: the time source (60_exceptions R245). No command, phase of SHOW, period or refusal writes `CLOCK`. -/

namespace Sys2Proof.Machine

theorem exec_clock {i : Instr} {s t : State} (h : exec i s = .next t) : t.clock = s.clock := by
  rcases exec_next h with ⟨rfl, -⟩ | ⟨r, rfl⟩ | ⟨c, -, he⟩
  · rfl
  · rfl
  · exact he.sameStatus.clock

theorem continueCurrent_clock {k : Cur} {s t : State} (h : continueCurrent k s = .next t) : t.clock = s.clock := by
  rcases continueCurrent_next h with rfl | ⟨c, -, hphase⟩
  · rfl
  · rcases hphase with ⟨-, -, -, rfl⟩ | ⟨-, -, entries, -, rfl⟩ | ⟨-, -, rfl⟩ | ⟨-, -, -, rfl⟩ | ⟨-, rfl⟩
    · rfl
    · rfl
    · rfl
    · rfl
    · exact (waitOn_sameStatus k.inst c s).clock

theorem hostTurn_clock {s t : State} (h : hostTurn s = .next t) : t.clock = s.clock := by
  rcases hostTurn_next h with rfl | ⟨-, k, -, hk⟩ | ⟨-, -, w, rest, -, ⟨i, -, hi⟩ | ⟨e, -, rfl⟩⟩
  · rfl
  · exact continueCurrent_clock hk
  · exact exec_clock (s := { s with program := rest }) hi
  · rfl

theorem tgPeriod_clock {i : InstNo} {s t : State} (h : tgPeriod i s = .next t) : t.clock = s.clock := by
  rcases tgPeriod_next h with rfl | ⟨c, c', -, -, -, rfl⟩ <;> rfl

theorem agentTurn_clock {a : Agent} {s t : State} (h : agentTurn a s = .next t) :
    t.clock = s.clock ∨ (a = .timeSource ∧ t.clock = s.clock + 1) := by
  cases a with
  | host => exact .inl (hostTurn_clock h)
  | timingGenerator i => exact .inl (tgPeriod_clock h)
  | timeSource =>
    cases h
    exact .inr ⟨rfl, rfl⟩

theorem step_of_timeSource {s : State} (h : Safety.Running s) (hagent : s.nextAgent = .timeSource) :
    step s = .next { s.takeTurn with clock := s.clock + 1 } := by
  rw [Safety.step_of_running h, hagent, agentTurn, tick, State.takeTurn_clock]

/-- Settles O44: a turn of the time source is TICK; of the other turns, and of the refusal of a configuration, none
writes the clock, and neither does taking the turn. -/
theorem onlyTickAdvancesTheClock : Obligations.OnlyTickAdvancesTheClock := by
  refine ⟨fun s => step_of_timeSource, fun s t h => ?_⟩
  obtain ⟨-, ⟨-, rfl⟩ | ⟨-, hturn⟩⟩ := step_next h
  · exact .inl (State.refuse_clock s .badConfig)
  · rw [← s.takeTurn_clock]
    exact agentTurn_clock hturn

end Sys2Proof.Machine

/-! PROOF. O48: the power-on state (10_state R56, 60_exceptions R260). The elements of the machine are read off one by
one; each instance is that of a configuration, whose memories have the sizes R56 gives. -/

namespace Sys2Proof.Machine

@[simp] theorem State.powerOn_isRefused (p : Params) (cfgs : List InstCfg) : (State.powerOn p cfgs).isRefused = false := rfl

@[simp] theorem powerOnStream_length (p : Params) (cfg : InstCfg) : (powerOnStream p cfg).length = streamLen p cfg :=
  List.length_replicate

theorem exists_cfg_of_mem_powerOn {p : Params} {cfgs : List InstCfg} {c : Inst} (h : c ∈ (State.powerOn p cfgs).insts) :
    ∃ cfg ∈ cfgs, c = Inst.powerOn p cfg := by
  obtain ⟨cfg, hcfg, rfl⟩ := List.mem_map.1 h
  exact ⟨cfg, hcfg, rfl⟩

/-- Settles O48: the machine's own elements by their power-on equations, and those of an instance, which is the
power-on instance of a listed configuration, by its equations and the sizes of its two memories. -/
theorem powerOnState : Obligations.PowerOnState := by
  intro p cfgs
  refine ⟨State.powerOn_cur p cfgs, State.powerOn_result p cfgs, State.powerOn_faults p cfgs,
    State.powerOn_isRefused p cfgs, State.powerOn_params p cfgs, State.powerOn_cfgs p cfgs, fun c hc => ?_⟩
  obtain ⟨cfg, -, rfl⟩ := exists_cfg_of_mem_powerOn hc
  have hpix : (Inst.powerOn p cfg).pix.map Prod.fst = List.range (pixBytes cfg) := powerOnPixels_keys cfg
  have hstream : (Inst.powerOn p cfg).stream.length = streamLen p cfg := powerOnStream_length p cfg
  exact ⟨rfl, rfl, rfl, rfl, rfl, rfl, rfl, rfl, rfl, rfl, rfl, hpix, hstream⟩

end Sys2Proof.Machine

/-! PROOF. O50: the invariant is inductive (42_sequencer R202). Each command is issued with no command under way, so it
meets an instance of which no SHOW is beyond WAIT_RESET; each phase of SHOW and each period of a running generator takes
its instance's part of the invariant from one phase to the next. -/

namespace Sys2Proof.Safety

open Sys2Proof.Machine

theorem Inv.afterDraw {s : State} (h : Inv s) : Inv s.afterDraw :=
  h.same_insts rfl rfl rfl h.faults h.stopped

theorem Inv.setProgram {s : State} (h : Inv s) (rest : List Word) : Inv { s with program := rest } :=
  h.same_insts rfl rfl rfl h.faults h.stopped

theorem Inv.setClock {s : State} (h : Inv s) (n : Nat) : Inv { s with clock := n } :=
  h.same_insts rfl rfl rfl h.faults h.stopped

/-- A command that writes the pixel memory and returns (R130). -/
theorem Inv.writePix {s : State} {i : InstNo} {c : Inst} (h : Inv s) (hcur : s.cur = none) (hc : s.inst? i = some c)
    (hr : c.init = .ready) {m : Memory}
    (hm : c.pix.map Prod.fst = List.range (pixBytes c.cfg) → m.map Prod.fst = List.range (pixBytes c.cfg)) :
    Inv ((s.setInst i { c with pix := m }).ret .unit) := by
  have hinst := h.inst_of_cur_none hc hcur
  obtain ⟨hkeys, -⟩ := hinst.allocated hr
  exact h.setInst_ret hc hcur (hinst.writePix hr m (hm hkeys)) rfl .unit

/-- A WAIT of an instance that is Idle returns at once (R201). -/
theorem waitOn_of_idle {i : InstNo} {c : Inst} {s : State} (hs : c.state = .idle) : waitOn i c s = s.ret .unit := by
  simp [waitOn, Inst.isBusy, hs]

/-- While no command is under way every instance is Idle (R202 b). -/
theorem Inv.idle_of_cur_none {s : State} {i : InstNo} {c : Inst} (h : Inv s) (hc : s.inst? i = some c)
    (hcur : s.cur = none) : IdleOk c :=
  (h.inst_of_cur_none hc hcur).phase

/-- The effect of each command that passed its checks. -/
theorem Inv.commandEffect {i : Instr} {c : Inst} {s t : State} (h : Inv s) (hcur : s.cur = none) (hf : s.faults = [])
    (hc : s.inst? i.inst = some c) (he : CommandEffect i c s t) : Inv t := by
  have hinst := h.inst_of_cur_none hc hcur
  cases i with
  | beginCtl =>
    obtain ⟨-, rfl⟩ := he
    split
    · exact h.afterDraw.setInst_ret hc hcur (hinst.begun s.draws) rfl _
    · exact h.afterDraw.ret _ hcur
  | endCtl =>
    obtain ⟨-, -, rfl⟩ := he
    exact h.setInst_ret hc hcur hinst.ended rfl _
  | setPixelRgb | setPixelRgbw | setPixelColor =>
    obtain ⟨hr, -, rfl⟩ := he
    exact h.writePix hcur hc hr (keys_setPixel c _ _ _ _ _)
  | fill =>
    obtain ⟨hr, -, rfl⟩ := he
    exact h.writePix hcur hc hr fun hk => keys_fillPixels _ _ _ _ _ _ hk le_rfl
  | fillRange =>
    obtain ⟨hr, -, rfl⟩ := he
    exact h.writePix hcur hc hr fun hk => keys_fillPixels _ _ _ _ _ _ hk (Nat.min_le_right _ _)
  | clear =>
    obtain ⟨hr, -, rfl⟩ := he
    exact h.writePix hcur hc hr (keys_zeroBytes _ _)
  | setBrightness j b =>
    obtain ⟨-, -, rfl⟩ := he
    exact h.setInst_ret hc hcur (hinst.writeBright b) rfl _
  | getPixelColor =>
    obtain ⟨-, color, rfl, -, -⟩ := he
    exact h.ret _ hcur
  | showFrame =>
    obtain ⟨hr, -, rfl⟩ := he
    exact h.setCur hc hcur rfl rfl rfl (hinst.showIssued hr) hf hf
  | getCount | canShow | isBusy =>
    obtain ⟨-, rfl⟩ := he
    exact h.ret _ hcur
  | wait =>
    obtain ⟨-, rfl⟩ := he
    obtain ⟨hidle, -⟩ := h.idle_of_cur_none hc hcur
    rw [waitOn_of_idle hidle]
    exact h.ret _ hcur

theorem Inv.exec {i : Instr} {s t : State} (h : Inv s) (hcur : s.cur = none) (hf : s.faults = [])
    (he : exec i s = .next t) : Inv t := by
  rcases exec_next he with ⟨rfl, -⟩ | ⟨r, rfl⟩ | ⟨c, hc, heffect⟩
  · exact h.refuse _
  · exact h.raise _ hcur
  · exact h.commandEffect hcur hf hc heffect

/-- A phase of SHOW that takes instance `i` to the next phase. -/
theorem Inv.nextPhase {s : State} {i : InstNo} {c c' : Inst} {ph ph' : Phase} (h : Inv s) (hf : s.faults = [])
    (hc : s.inst? i = some c) (hcur : s.cur = showAt i ph) (hi : InstInv s.params (some ph') c')
    (hcfg : c'.cfg = c.cfg) : Inv { s.setInst i c' with cur := showAt i ph' } := by
  refine h.update hc hcfg rfl rfl ?_ (fun j hj => ?_) (fun k hk => ?_) rfl fun hne => absurd hf hne
  · rwa [showPhase_showAt_self]
  · rw [hcur, showPhase_showAt_other _ _ hj]
  · cases hk
    exact ⟨rfl, nofun, rfl⟩

/-- The last phase of SHOW returns (R197). -/
theorem Inv.lastPhase {s : State} {i : InstNo} {c c' : Inst} {ph : Phase} (h : Inv s) (hc : s.inst? i = some c)
    (hcur : s.cur = showAt i ph) (hi : InstInv s.params none c') (hcfg : c'.cfg = c.cfg) (v : Result) :
    Inv ((s.setInst i c').ret v) := by
  refine h.update hc hcfg rfl rfl hi (fun j hj => ?_) (fun k hk => by cases hk) rfl fun _ => rfl
  rw [hcur, showPhase_showAt_of_ne ph hj, State.ret_cur, showPhase_none]

/-- The instance whose SHOW `CUR` holds. -/
theorem Inv.inst_of_show {s : State} {i : InstNo} {c : Inst} {ph : Phase} (h : Inv s) (hc : s.inst? i = some c)
    (hcur : s.cur = showAt i ph) : InstInv s.params (some ph) c := by
  have := h.insts i c hc
  rwa [hcur, showPhase_showAt_self] at this

theorem now_lt (s : State) : s.now < 2 ^ s.params.timeWidth := Nat.mod_lt _ (Nat.two_pow_pos _)

theorem Inv.continueCurrent {k : Cur} {s t : State} (h : Inv s) (hf : s.faults = []) (hk : s.cur = some k)
    (he : continueCurrent k s = .next t) : Inv t := by
  have hp := paramsFacts_of_configOk h.config
  rcases continueCurrent_next he with rfl | ⟨c, hc, hphase⟩
  · exact h
  · rcases hphase with ⟨hop, hph, -, rfl⟩ | ⟨hop, hph, entries, hentries, rfl⟩ | ⟨hop, hph, rfl⟩ |
      ⟨hop, hph, -, rfl⟩ | ⟨hop, -⟩
    · have hcur := hk.trans (cur_eq_showAt hop hph)
      exact h.nextPhase hf hc hcur (h.inst_of_show hc hcur).waitReset rfl
    · have hcur := hk.trans (cur_eq_showAt hop hph)
      exact h.nextPhase hf hc hcur ((h.inst_of_show hc hcur).encode hp hentries) rfl
    · have hcur := hk.trans (cur_eq_showAt hop hph)
      exact h.nextPhase hf hc hcur ((h.inst_of_show hc hcur).arm hp) rfl
    · have hcur := hk.trans (cur_eq_showAt hop hph)
      exact h.lastPhase hc hcur ((h.inst_of_show hc hcur).waitDone s.now (now_lt s)) rfl _
    · obtain ⟨hshow, -⟩ := h.cur k hk
      cases hop.symm.trans hshow

theorem Inv.hostTurn {s t : State} (h : Inv s) (he : hostTurn s = .next t) : Inv t := by
  rcases hostTurn_next he with rfl | ⟨hf, k, hk, hcontinue⟩ | ⟨hf, hcur, w, rest, -, ⟨i, -, hexec⟩ | ⟨e, -, rfl⟩⟩
  · exact h
  · exact h.continueCurrent hf hk hcontinue
  · exact (h.setProgram rest).exec hcur hf hexec
  · exact (h.setProgram rest).refuse _

theorem Inv.tgPeriod {i : InstNo} {s t : State} (h : Inv s) (he : tgPeriod i s = .next t) : Inv t := by
  have hp := paramsFacts_of_configOk h.config
  rcases tgPeriod_next he with rfl | ⟨c, c', hc, hrun, htransfer, rfl⟩
  · exact h
  · have hinst := h.insts i c hc
    have hphase := hinst.phase_of_running hrun
    rw [hphase] at hinst
    have hcfg : (c'.produce s.params.ccrLag).cfg = c.cfg :=
      (Inst.produce_cfg _ c').trans (Inst.transfer_cfg htransfer)
    refine h.update hc hcfg rfl rfl ?_ (fun _ _ => rfl) (fun k hk => ?_) rfl h.stopped
    · rw [State.setInst_cur, hphase]
      exact hinst.period hp htransfer
    · obtain ⟨hop, hph, -⟩ := h.cur k hk
      refine ⟨hop, hph, ?_⟩
      by_contra hne
      rw [show s.cur = some k from hk, showPhase, if_neg (fun hand => hne hand.1)] at hphase
      cases hphase

theorem Inv.agentTurn {a : Agent} {s t : State} (h : Inv s) (he : agentTurn a s = .next t) : Inv t := by
  cases a with
  | host => exact h.hostTurn he
  | timingGenerator i => exact h.tgPeriod he
  | timeSource =>
    cases he
    exact h.setClock _

theorem Inv.step {s t : State} (h : Inv s) (he : step s = .next t) : Inv t := by
  obtain ⟨-, ⟨-, rfl⟩ | ⟨-, hturn⟩⟩ := step_next he
  · exact h.refuse _
  · exact h.takeTurn.agentTurn hturn

/-- Settles O50: a refusal keeps the invariant, and so does each agent's turn. -/
theorem everyStepKeepsTheInvariant : Obligations.EveryStepKeepsTheInvariant :=
  fun _ _ => Inv.step

end Sys2Proof.Safety

/-! PROOF. O1, O2, O3: the decoder against the encoder and against the table of masks (30_encoding R101 to R107). A
word is its six fields, and masking acts on each field: so the word made of a command's fields carries the command,
and a word that carries a command is made of its fields. -/

namespace Sys2Proof

/-- The fields of R101, most significant first, make up the word. -/
theorem Word.append_fields (w : Word) :
    Word.opc w ++ Word.inst w ++ Word.fieldA w ++ Word.fieldB w ++ Word.rsv w ++ Word.fieldD w = w := by
  unfold Word.opc Word.inst Word.fieldA Word.fieldB Word.rsv Word.fieldD
  have hopcInst : w.extractLsb' 88 8 ++ w.extractLsb' 80 8 = w.extractLsb' 80 16 :=
    BitVec.extractLsb'_append_extractLsb'_eq_extractLsb' rfl
  have hthroughA : w.extractLsb' 80 16 ++ w.extractLsb' 64 16 = w.extractLsb' 64 32 :=
    BitVec.extractLsb'_append_extractLsb'_eq_extractLsb' rfl
  have hthroughB : w.extractLsb' 64 32 ++ w.extractLsb' 48 16 = w.extractLsb' 48 48 :=
    BitVec.extractLsb'_append_extractLsb'_eq_extractLsb' rfl
  have hthroughRsv : w.extractLsb' 48 48 ++ w.extractLsb' 32 16 = w.extractLsb' 32 64 :=
    BitVec.extractLsb'_append_extractLsb'_eq_extractLsb' rfl
  have hthroughD : w.extractLsb' 32 64 ++ w.extractLsb' 0 32 = w.extractLsb' 0 96 :=
    BitVec.extractLsb'_append_extractLsb'_eq_extractLsb' rfl
  rw [hopcInst, hthroughA, hthroughB, hthroughRsv, hthroughD, BitVec.extractLsb'_eq_self]

/-- A word with a zero reserved field is the word of its fields. -/
theorem Word.ofFields_fields {w : Word} (h : Word.rsv w = 0) :
    Word.ofFields (Word.opc w) (Word.inst w) (Word.fieldA w) (Word.fieldB w) (Word.fieldD w) = w := by
  have hw := Word.append_fields w
  rwa [h] at hw

/-- Words that agree in every field are equal. -/
theorem Word.ext_fields {v w : Word} (hopc : Word.opc v = Word.opc w) (hinst : Word.inst v = Word.inst w)
    (ha : Word.fieldA v = Word.fieldA w) (hb : Word.fieldB v = Word.fieldB w) (hrsv : Word.rsv v = Word.rsv w)
    (hd : Word.fieldD v = Word.fieldD w) : v = w := by
  rw [← Word.append_fields v, hopc, hinst, ha, hb, hrsv, hd, Word.append_fields]

theorem Word.opc_and (v w : Word) : Word.opc (v &&& w) = Word.opc v &&& Word.opc w := BitVec.extractLsb'_and
theorem Word.inst_and (v w : Word) : Word.inst (v &&& w) = Word.inst v &&& Word.inst w := BitVec.extractLsb'_and
theorem Word.fieldA_and (v w : Word) : Word.fieldA (v &&& w) = Word.fieldA v &&& Word.fieldA w := BitVec.extractLsb'_and
theorem Word.fieldB_and (v w : Word) : Word.fieldB (v &&& w) = Word.fieldB v &&& Word.fieldB w := BitVec.extractLsb'_and
theorem Word.rsv_and (v w : Word) : Word.rsv (v &&& w) = Word.rsv v &&& Word.rsv w := BitVec.extractLsb'_and
theorem Word.fieldD_and (v w : Word) : Word.fieldD (v &&& w) = Word.fieldD v &&& Word.fieldD w := BitVec.extractLsb'_and

theorem Opcode.opc_pattern (op : Opcode) : Word.opc op.pattern = op.code := BitVec.extractLsb'_append_eq_left

theorem Opcode.ofCode_code (op : Opcode) : Opcode.ofCode op.code = some op := by
  cases op <;> decide

theorem Opcode.code_injective {op op' : Opcode} (h : op.code = op'.code) : op = op' :=
  Option.some.inj ((op.ofCode_code.symm.trans (congrArg Opcode.ofCode h)).trans op'.ofCode_code)

/-- The mask covers the opcode field (R107). -/
theorem Opcode.mask_opc (op : Opcode) : Word.opc op.format.mask = BitVec.allOnes 8 := by
  cases op <;> decide

theorem Opcode.opc_of_matchesWord {op : Opcode} {w : Word} (h : op.matchesWord w = true) : Word.opc w = op.code :=
  (extractLsb'_of_and_eq (eq_of_beq h) op.mask_opc).trans op.opc_pattern

open Laws.EncodingFields in
/-- The word made of `op`'s code and of operand fields that are 0 under the mask carries `op` (R103, R107). -/
theorem Opcode.matchesWord_ofFields (op : Opcode) (inst : InstNo) {a b : Index} {d : Color}
    (ha : a &&& Word.fieldA op.format.mask = 0) (hb : b &&& Word.fieldB op.format.mask = 0)
    (hd : d &&& Word.fieldD op.format.mask = 0) : op.matchesWord (Word.ofFields op.code inst a b d) = true := by
  have hmaskInst : Word.inst op.format.mask = 0#8 := by cases op <;> decide
  refine beq_of_eq (Word.ext_fields ?_ ?_ ?_ ?_ ?_ ?_)
  · rw [Word.opc_and, opc_ofFields, op.mask_opc, BitVec.and_allOnes, op.opc_pattern]
  · rw [Word.inst_and, hmaskInst, BitVec.and_zero]
    exact (op.pattern_extractLsb' (by decide)).symm
  · rw [Word.fieldA_and, fieldA_ofFields, ha]
    exact (op.pattern_extractLsb' (by decide)).symm
  · rw [Word.fieldB_and, fieldB_ofFields, hb]
    exact (op.pattern_extractLsb' (by decide)).symm
  · rw [Word.rsv_and, rsv_ofFields, BitVec.and_comm, BitVec.ofNat_eq_ofNat, BitVec.and_zero]
    exact (op.pattern_extractLsb' (by decide)).symm
  · rw [Word.fieldD_and, fieldD_ofFields, hd]
    exact (op.pattern_extractLsb' (by decide)).symm

/-- A word that carries `op` decodes to the operands it holds (R107). -/
theorem decode_of_matchesWord {op : Opcode} {w : Word} (h : op.matchesWord w = true) :
    decode w = .ok (op.assembleOperands w) := by
  rw [decode, Opcode.opc_of_matchesWord h, op.ofCode_code]
  exact if_pos h

theorem decode_ofFields (op : Opcode) (inst : InstNo) {a b : Index} {d : Color}
    (ha : a &&& Word.fieldA op.format.mask = 0) (hb : b &&& Word.fieldB op.format.mask = 0)
    (hd : d &&& Word.fieldD op.format.mask = 0) :
    decode (Word.ofFields op.code inst a b d) = .ok (op.assembleOperands (Word.ofFields op.code inst a b d)) :=
  decode_of_matchesWord (op.matchesWord_ofFields inst ha hb hd)

/-- A field the mask leaves free holds any operand. -/
theorem and_eq_zero_of_free {n : Nat} (x : BitVec n) {mask : BitVec n} (h : mask = 0#n) : x &&& mask = 0#n := by
  rw [h, BitVec.and_zero]

theorem Word.brightness_eq (w : Word) : Word.brightness w = Color.blue (Word.fieldD w) := by
  unfold Word.brightness Color.blue Word.fieldD
  rw [BitVec.extractLsb'_extractLsb'_of_le (by decide)]

theorem Color.pack_and_pack (r g b w r' g' b' w' : Byte) :
    Color.pack r g b w &&& Color.pack r' g' b' w' = Color.pack (r &&& r') (g &&& g') (b &&& b') (w &&& w') := by
  have hwr : (w ++ r) &&& (w' ++ r') = (w &&& w') ++ (r &&& r') := BitVec.and_append
  have hwrg : (w ++ r ++ g) &&& (w' ++ r' ++ g') = ((w ++ r) &&& (w' ++ r')) ++ (g &&& g') := BitVec.and_append
  rw [hwr] at hwrg
  exact BitVec.and_append.trans (congrArg (· ++ (b &&& b')) hwrg)

open Laws.EncodingFields in
/-- Settles O1: in each format the operands stand in fields the mask leaves free, and decoding reads the fields back. -/
theorem decodeOfEncodeIsTheCommand : Obligations.DecodeOfEncodeIsTheCommand := by
  intro i
  cases i with
  | beginCtl inst | endCtl inst | clear inst | getCount inst | showFrame inst | canShow inst | isBusy inst
  | wait inst =>
    refine (decode_ofFields _ inst BitVec.zero_and BitVec.zero_and BitVec.zero_and).trans ?_
    simp only [Instr.opcode, Opcode.assembleOperands, inst_ofFields]
  | getPixelColor inst index =>
    refine (decode_ofFields .getPixelColor inst (and_eq_zero_of_free index rfl) BitVec.zero_and
      BitVec.zero_and).trans ?_
    simp only [Opcode.assembleOperands, inst_ofFields, fieldA_ofFields]
  | setPixelRgb inst index r g b =>
    -- The mask on the operand field is that of its white byte.
    have hwhite : Color.pack r g b 0 &&& Color.pack 0 0 0 0xFF = 0 := by
      rw [Color.pack_and_pack]
      simp only [BitVec.ofNat_eq_ofNat, BitVec.and_zero, BitVec.zero_and]
      rfl
    refine (decode_ofFields .setPixelRgb inst (and_eq_zero_of_free index rfl) BitVec.zero_and hwhite).trans ?_
    simp only [Opcode.assembleOperands, inst_ofFields, fieldA_ofFields, fieldD_ofFields, Color.red_pack,
      Color.green_pack, Color.blue_pack]
  | setPixelRgbw inst index r g b w =>
    refine (decode_ofFields .setPixelRgbw inst (and_eq_zero_of_free index rfl) BitVec.zero_and
      (and_eq_zero_of_free _ rfl)).trans ?_
    simp only [Opcode.assembleOperands, inst_ofFields, fieldA_ofFields, fieldD_ofFields, Color.red_pack,
      Color.green_pack, Color.blue_pack, Color.white_pack]
  | setPixelColor inst index color =>
    refine (decode_ofFields .setPixelColor inst (and_eq_zero_of_free index rfl) BitVec.zero_and
      (and_eq_zero_of_free color rfl)).trans ?_
    simp only [Opcode.assembleOperands, inst_ofFields, fieldA_ofFields, fieldD_ofFields]
  | fill inst color =>
    refine (decode_ofFields .fill inst BitVec.zero_and BitVec.zero_and (and_eq_zero_of_free color rfl)).trans ?_
    simp only [Opcode.assembleOperands, inst_ofFields, fieldD_ofFields]
  | fillRange inst start count color =>
    refine (decode_ofFields .fillRange inst (and_eq_zero_of_free start rfl) (and_eq_zero_of_free count rfl)
      (and_eq_zero_of_free color rfl)).trans ?_
    simp only [Opcode.assembleOperands, inst_ofFields, fieldA_ofFields, fieldB_ofFields, fieldD_ofFields]
  | setBrightness inst b =>
    -- The operand field `0#24 ++ b` and the mask on it, byte by byte.
    have habove : Color.pack 0 0 b 0 &&& Color.pack 0xFF 0xFF 0 0xFF = 0 := by
      rw [Color.pack_and_pack]
      simp only [BitVec.ofNat_eq_ofNat, BitVec.and_zero, BitVec.zero_and]
      rfl
    refine (decode_ofFields .setBrightness inst BitVec.zero_and BitVec.zero_and habove).trans ?_
    simp only [Opcode.assembleOperands, inst_ofFields, Word.brightness_eq, fieldD_ofFields, Color.blue_pack]

/-! What a word that carries a command decodes to is made of: the fields the mask covers are 0 (R103), and the operands
are the others. -/

theorem Opcode.opcode_assembleOperands (op : Opcode) (w : Word) : (op.assembleOperands w).opcode = op := by
  cases op <;> rfl

/-- A Color whose white byte is 0 is made of the other three. -/
theorem Color.pack_of_white_zero {c : Color} (h : Color.white c = 0) :
    Color.pack (Color.red c) (Color.green c) (Color.blue c) 0 = c := by
  rw [← h, Color.pack_fields]

/-- Operand assembly loses nothing of a word that carries the command (R102, R103). -/
theorem encode_assembleOperands {op : Opcode} {w : Word} (h : op.matchesWord w = true) :
    encode (op.assembleOperands w) = w := by
  have hzero : ∀ {lo len : Nat}, lo + len ≤ 88 → op.format.mask.extractLsb' lo len = BitVec.allOnes len →
      w.extractLsb' lo len = 0 := Opcode.extractLsb'_of_matchesWord h
  have hfields := Word.ofFields_fields (hzero (by decide) op.mask_rsv)
  have ha := fun hop => show Word.fieldA w = 0 from hzero (by decide) (op.mask_fieldA hop)
  have hb := fun hop => show Word.fieldB w = 0 from hzero (by decide) (op.mask_fieldB hop)
  have hd := fun hop => show Word.fieldD w = 0 from hzero (by decide) (op.mask_fieldD hop)
  rw [Opcode.opc_of_matchesWord h] at hfields
  cases op with
  | beginCtl | endCtl | clear | getCount | showFrame | canShow | isBusy | wait =>
    rwa [ha (by decide), hb (by decide), hd (by decide)] at hfields
  | getPixelColor => rwa [hb (by decide), hd (by decide)] at hfields
  | setPixelRgb =>
    have hwhite : Color.white (Word.fieldD w) = 0 :=
      (BitVec.extractLsb'_extractLsb'_of_le (by decide)).trans (hzero (by decide) (Opcode.mask_rgbWhite _ rfl))
    rwa [hb (by decide), ← Color.pack_of_white_zero hwhite] at hfields
  | setPixelRgbw => rwa [hb (by decide), ← Color.pack_fields (Word.fieldD w)] at hfields
  | setPixelColor => rwa [hb (by decide)] at hfields
  | fill => rwa [ha (by decide), hb (by decide)] at hfields
  | fillRange => exact hfields
  | setBrightness =>
    have habove : w.extractLsb' 8 24 = 0#24 := hzero (by decide) (Opcode.mask_aboveBrightness _ rfl)
    have hbright : w.extractLsb' 8 24 ++ Word.brightness w = Word.fieldD w :=
      BitVec.extractLsb'_append_extractLsb'_eq_extractLsb' rfl
    rw [ha (by decide), hb (by decide), ← hbright, habove] at hfields
    exact hfields

/-- Settles O2: a word that decodes carries the command whose operands it holds, and encoding those gives it back. -/
theorem encodeOfDecodeIsTheWord : Obligations.EncodeOfDecodeIsTheWord := by
  intro w i h
  obtain ⟨op, -, hm, rfl⟩ := decode_ok h
  exact encode_assembleOperands hm

theorem exists_decode_iff_matchesWord (w : Word) (op : Opcode) :
    (∃ i, decode w = .ok i ∧ i.opcode = op) ↔ op.matchesWord w = true := by
  constructor
  · rintro ⟨i, hi, rfl⟩
    obtain ⟨op, -, hm, rfl⟩ := decode_ok hi
    rwa [op.opcode_assembleOperands]
  · intro hm
    exact ⟨op.assembleOperands w, decode_of_matchesWord hm, op.opcode_assembleOperands w⟩

/-- Settles O3: that a word carries a command is `(word AND mask) = match`, which fixes the opcode field and so the
command; the two tables are evaluated. -/
theorem decoderFollowsMaskAndMatch : Obligations.DecoderFollowsMaskAndMatch := by
  have hmatch : ∀ (w : Word) (op : Opcode), op.matchesWord w = true ↔ w &&& op.format.mask = op.code ++ 0#88 :=
    fun w op => beq_iff_eq
  refine ⟨fun w op => (exists_decode_iff_matchesWord w op).trans (hmatch w op), fun w op op' h h' => ?_,
    fun w hno => ?_, rfl, rfl⟩
  · have hopc := Opcode.opc_of_matchesWord ((hmatch w op).2 h)
    have hopc' := Opcode.opc_of_matchesWord ((hmatch w op').2 h')
    exact Opcode.code_injective (hopc.symm.trans hopc')
  · cases hw : decode w with
    | error e => exact ⟨e, rfl⟩
    | ok i =>
      obtain ⟨op, -, hm, -⟩ := decode_ok hw
      exact absurd ((hmatch w op).1 hm) (hno op)

end Sys2Proof

/-! PROOF. O28, O29, O30, O55: the encoded stream (41_encoder R160 to R170) and the layout of its indexes (30_encoding
R119). A stream is the entries of the bytes in wire order, eight for each, and then the reset tail. -/

namespace Sys2Proof.Machine

/-- Entry `k` of block `m` of a list made of blocks of one length. -/
theorem getElem?_flatMap_block {α β : Type} {f : α → List β} {n : Nat} (hf : ∀ a, (f a).length = n) (l : List α)
    (m : Nat) {k : Nat} (hk : k < n) : (l.flatMap f)[m * n + k]? = l[m]?.bind fun a => (f a)[k]? := by
  induction l generalizing m with
  | nil => rfl
  | cons a l ih =>
    rw [List.flatMap_cons]
    cases m with
    | zero => rw [Nat.zero_mul, Nat.zero_add, List.getElem?_append_left (hk.trans_eq (hf a).symm)]; rfl
    | succ m =>
      have hidx : (m + 1) * n + k = (f a).length + (m * n + k) := by rw [hf]; ring
      rw [hidx, List.getElem?_append_right (Nat.le_add_right _ _), Nat.add_sub_cancel_left, ih]
      rfl

/-- The address of wire channel `c` of pixel `q` stands at `q * CH + c` (R165). -/
theorem getElem?_wireAddresses {cfg : InstCfg} {q c off : Nat} (hq : q < cfg.ledCount)
    (hoff : (woff cfg.colorOrder)[c]? = some off) :
    (wireAddresses cfg)[q * channels cfg.colorOrder + c]? = some (q * channels cfg.colorOrder + off) := by
  have hc : c < channels cfg.colorOrder := by
    obtain ⟨hlt, -⟩ := List.getElem?_eq_some_iff.1 hoff
    rwa [woff_length] at hlt
  rw [wireAddresses, getElem?_flatMap_block (fun p => by rw [List.length_map, woff_length]) _ _ hc,
    List.getElem?_range hq, Option.bind_some, List.getElem?_map, hoff, Option.map_some]

theorem getElem?_byteEntries {p : Params} {v : Byte} {k : Nat} (hk : k < 8) :
    (byteEntries p v)[k]? = some (bitEntry p (v.getLsbD (7 - k))) := by
  rw [byteEntries, List.getElem?_map, List.getElem?_range hk, Option.map_some]

/-- The entries of the bytes, without the tail (R164, R165). -/
def dataOf (p : Params) (br : Byte) (bytes : List Byte) : List Nat := bytes.flatMap fun v => byteEntries p (scale v br)

theorem getElem?_dataOf {p : Params} {br v : Byte} {bytes : List Byte} {m k : Nat} (hv : bytes[m]? = some v)
    (hk : k < 8) : (dataOf p br bytes)[m * 8 + k]? = some (bitEntry p ((scale v br).getLsbD (7 - k))) := by
  rw [dataOf, getElem?_flatMap_block (fun v => byteEntries_length p (scale v br)) bytes m hk, hv, Option.bind_some,
    getElem?_byteEntries hk]

/-- What an encoded stream is made of: the bytes read, their `N * BPP` entries, the tail. -/
theorem encodeStream_some {p : Params} {cfg : InstCfg} {pix : Memory} {br : Byte} {entries : List Nat}
    (h : encodeStream p cfg pix br = some entries) : ∃ bytes, pix.readAll (wireAddresses cfg) = some bytes ∧
      entries = dataOf p br bytes ++ List.replicate p.resetCycles 0 ∧ (dataOf p br bytes).length = dataEntries cfg := by
  obtain ⟨bytes, hbytes, rfl⟩ := Option.map_eq_some_iff.1 h
  refine ⟨bytes, hbytes, rfl, ?_⟩
  have hlen := encodeStream_length h
  rw [streamOf, List.length_append, List.length_replicate, streamLen] at hlen
  exact Nat.add_right_cancel hlen

/-- The tail of a stream is 0 (R166). -/
theorem encodeStream_tail {p : Params} {cfg : InstCfg} {pix : Memory} {br : Byte} {entries : List Nat}
    (h : encodeStream p cfg pix br = some entries) {j : Nat} (hdata : dataEntries cfg ≤ j) (hj : j < streamLen p cfg) :
    entries[j]? = some 0 := by
  obtain ⟨bytes, -, rfl, hlen⟩ := encodeStream_some h
  rw [← hlen] at hdata
  rw [List.getElem?_append_right hdata, List.getElem?_replicate_of_lt]
  rw [streamLen] at hj
  omega

/-- Settles O28: the byte of pixel `q` and channel `c` is the one read at place `q * CH + c`, whose eight entries begin
at `q * BPP + c * 8`. -/
theorem streamClosedForm : Obligations.StreamClosedForm := by
  intro p cfg pix br entries h
  refine ⟨encodeStream_length h, fun q c k off hq hk hoff => ?_, fun j => encodeStream_tail h⟩
  obtain ⟨bytes, hbytes, rfl, -⟩ := encodeStream_some h
  have hbyte := Memory.readAll_getElem? pix _ bytes hbytes _ _ (getElem?_wireAddresses hq hoff)
  obtain ⟨v, hv⟩ : ∃ v, bytes[q * channels cfg.colorOrder + c]? = some v := by
    obtain ⟨hlt, -⟩ := List.getElem?_eq_some_iff.1 (getElem?_wireAddresses hq hoff)
    exact ⟨_, List.getElem?_eq_getElem (hlt.trans_eq (Memory.readAll_length pix _ bytes hbytes).symm)⟩
  have hentry := getElem?_dataOf (p := p) (br := br) hv hk
  have hidx : q * bitsPerPixel cfg.colorOrder + c * 8 + k = (q * channels cfg.colorOrder + c) * 8 + k := by
    rw [bitsPerPixel]; ring
  refine ⟨v, hbyte.symm.trans hv, ?_⟩
  rw [hidx, List.getElem?_append_left (List.getElem?_eq_some_iff.1 hentry).1, hentry, bitEntry]

theorem channels_eq (o : ColorOrder) : channels o = 3 ∨ channels o = 4 := by cases o <;> decide

/-- Settles O29: the pixel, channel and bit are the quotients and remainders of the index by the 24 or 32 entries of a
pixel and the 8 of a channel. -/
theorem streamLayoutCoversEachIndexOnce : Obligations.StreamLayoutCoversEachIndexOnce := by
  intro cfg
  unfold dataEntries bitsPerPixel
  rcases channels_eq cfg.colorOrder with h | h <;> rw [h]
  · refine ⟨fun q c b hq hc hb => by omega, fun j hj => ?_⟩
    exact ⟨j / 24, j % 24 / 8, 7 - j % 8, by omega, fun q c b _ _ _ _ => by omega⟩
  · refine ⟨fun q c b hq hc hb => by omega, fun j hj => ?_⟩
    exact ⟨j / 32, j % 32 / 8, 7 - j % 8, by omega, fun q c b _ _ _ _ => by omega⟩

/-! Reading the bytes of a pixel, by address or as a Color. -/

theorem Memory.readAll_cons (m : Memory) (a : Nat) (l : List Nat) :
    m.readAll (a :: l) = (m.read a).bind fun v => (m.readAll l).map (v :: ·) := by
  rw [Memory.readAll]
  cases m.read a <;> cases m.readAll l <;> rfl

theorem Memory.readAll_append (m : Memory) (l l' : List Nat) :
    m.readAll (l ++ l') = (m.readAll l).bind fun bs => (m.readAll l').map (bs ++ ·) := by
  induction l with
  | nil => cases h : m.readAll l' <;> simp [Memory.readAll, h]
  | cons a l ih =>
    rw [List.cons_append, Memory.readAll_cons, ih, Memory.readAll_cons]
    cases m.read a <;> cases m.readAll l <;> cases m.readAll l' <;> rfl

theorem Memory.readAll_eq_none_of_mem {m : Memory} {l : List Nat} {a : Nat} (ha : a ∈ l) (h : m.read a = none) :
    m.readAll l = none := by
  induction l with
  | nil => cases ha
  | cons b l ih =>
    rw [Memory.readAll_cons]
    rcases List.mem_cons.1 ha with rfl | hmem
    · rw [h, Option.bind_none]
    · rw [ih hmem]
      cases m.read b <;> rfl

theorem Memory.readAll_of_map_read {m : Memory} {l : List Nat} {bs : List Byte} (h : l.map m.read = bs.map some) :
    m.readAll l = some bs := by
  induction l generalizing bs with
  | nil =>
    obtain rfl := List.map_eq_nil_iff.1 h.symm
    rfl
  | cons a l ih =>
    obtain ⟨v, vs, rfl⟩ : ∃ v vs, bs = v :: vs := by
      cases bs with
      | nil => cases h
      | cons v vs => exact ⟨v, vs, rfl⟩
    obtain ⟨hv, hvs⟩ := List.cons_eq_cons.1 h
    rw [Memory.readAll_cons, hv, ih hvs]
    rfl

/-- Lists of blocks of addresses that read alike, block by block, read alike. -/
theorem Memory.readAll_flatMap_congr {m m' : Memory} {f f' : Nat → List Nat} {l : List Nat}
    (h : ∀ q ∈ l, m'.readAll (f' q) = m.readAll (f q)) : m'.readAll (l.flatMap f') = m.readAll (l.flatMap f) := by
  induction l with
  | nil => rfl
  | cons q l ih =>
    rw [List.flatMap_cons, List.flatMap_cons, Memory.readAll_append, Memory.readAll_append, h q List.mem_cons_self,
      ih fun q hq => h q (List.mem_cons_of_mem _ hq)]

/-- A channel of a Color. -/
def colorChannel (color : Color) (ch : Channel) : Byte :=
  channelValue (Color.red color) (Color.green color) (Color.blue color) (Color.white color) ch

/-- A pixel that has a Color has each byte of it. -/
theorem read_of_readPixel {o : ColorOrder} {q : Nat} {m : Memory} {color : Color} (h : readPixel o q m = some color)
    (ch : Channel) (k : Nat) (hk : off o ch = some k) : m.read (q * channels o + k) = some (colorChannel color ch) := by
  simp only [readPixel, Option.bind_eq_some_iff, Option.some.injEq] at h
  obtain ⟨r, hr, g, hg, b, hb, w, hw, rfl⟩ := h
  have hread : readChannel o (q * channels o) ch m = m.read (q * channels o + k) := by simp only [readChannel, hk]
  rw [← hread]
  cases ch <;> simp [colorChannel, channelValue, hr, hg, hb, hw]

/-- A pixel that has no Color lacks a byte. -/
theorem exists_read_none_of_readPixel {o : ColorOrder} {q : Nat} {m : Memory} (h : readPixel o q m = none) :
    ∃ ch k, off o ch = some k ∧ m.read (q * channels o + k) = none := by
  by_contra hno
  have hchannel : ∀ ch, ∃ v, readChannel o (q * channels o) ch m = some v := by
    intro ch
    cases hk : off o ch with
    | none => exact ⟨0, by simp only [readChannel, hk]⟩
    | some k =>
      obtain ⟨v, hv⟩ := Option.ne_none_iff_exists'.1 fun hnone => hno ⟨ch, k, hk, hnone⟩
      exact ⟨v, by simp only [readChannel, hk, hv]⟩
  obtain ⟨r, hr⟩ := hchannel .r
  obtain ⟨g, hg⟩ := hchannel .g
  obtain ⟨b, hb⟩ := hchannel .b
  obtain ⟨w, hw⟩ := hchannel .w
  simp only [readPixel, hr, hg, hb, hw, Option.bind_some, reduceCtorEq] at h

theorem mem_woff_of_off {o : ColorOrder} {ch : Channel} {k : Nat} (hk : off o ch = some k) : k ∈ woff o := by
  refine List.mem_filterMap.2 ⟨ch, ?_, hk⟩
  revert hk
  cases o <;> cases ch <;> simp [off, wireChannels, channels]

/-- The bytes of a pixel in wire order are the channels of its Color (R118, R165). -/
theorem readAll_pixel (o : ColorOrder) (q : Nat) (m : Memory) :
    m.readAll ((woff o).map fun k => q * channels o + k) =
      (readPixel o q m).map fun color => (wireChannels o).map (colorChannel color) := by
  cases hcolor : readPixel o q m with
  | none =>
    obtain ⟨ch, k, hk, hnone⟩ := exists_read_none_of_readPixel hcolor
    exact Memory.readAll_eq_none_of_mem (List.mem_map_of_mem (mem_woff_of_off hk)) hnone
  | some color =>
    refine Memory.readAll_of_map_read (List.ext_getElem? fun c => ?_)
    rw [List.map_map, List.getElem?_map, List.getElem?_map, List.getElem?_map]
    rcases Nat.lt_or_ge c (channels o) with hlt | hge
    · obtain ⟨ch, hch, k, hk, hwoff⟩ := woff_getElem?_of_lt hlt
      rw [hch, hwoff]
      exact congrArg some (read_of_readPixel hcolor ch k hk)
    · rw [List.getElem?_eq_none ((woff_length o).trans_le hge),
        List.getElem?_eq_none ((wireChannels_length o).trans_le hge)]
      rfl

theorem wireChannels_congr {o o' : ColorOrder} (h : channels o' = channels o) : wireChannels o' = wireChannels o := by
  rw [wireChannels, h, wireChannels]

/-- Settles O30: at 255 the scale is the identity; and what the encoder reads of a pixel, in wire order, is a function
of the pixel's Color and the channel count. -/
theorem streamIgnoresColourOrder : Obligations.StreamIgnoresColourOrder := by
  refine ⟨fun p cfg pix => ?_, fun p cfg cfg' pix pix' br hn hch hcolor => ?_⟩
  · have hscale : ∀ v : Byte, scale v 255 = v := scale_full
    refine congrArg (Option.map · _) (funext fun bytes => ?_)
    simp only [streamOf, hscale]
  · refine congrArg (Option.map (streamOf p br)) ?_
    rw [wireAddresses, hn]
    refine Memory.readAll_flatMap_congr fun q hq => ?_
    rw [readAll_pixel, hcolor q (List.mem_range.1 hq), wireChannels_congr hch, readAll_pixel]

/-- Settles O55: the first `n` records pass over the zeros before the data and the data, and end in the zeros of the
tail and of the periods after it. -/
theorem finishedShowRecords : Obligations.FinishedShowRecords := by
  intro p cfg pix br entries n hp h hn
  have hcycles := (Safety.paramsFacts hp).cycles
  obtain ⟨bytes, -, rfl, hlen⟩ := encodeStream_some h
  rw [streamLen] at hn ⊢
  have hhead : (List.replicate (lagPeriods p.ccrLag) 0 ++ dataOf p br bytes).length =
      lagPeriods p.ccrLag + dataEntries cfg := by
    rw [List.length_append, List.length_replicate, hlen]
  have hsplit : List.replicate (lagPeriods p.ccrLag) 0 ++ (dataOf p br bytes ++ List.replicate p.resetCycles 0) ++
      List.replicate n 0 = (List.replicate (lagPeriods p.ccrLag) 0 ++ dataOf p br bytes) ++
        List.replicate (p.resetCycles + n) 0 := by
    rw [List.replicate_add, List.append_assoc, List.append_assoc, List.append_assoc]
  rw [Safety.wireRecords, hsplit, List.take_append, hhead, List.take_of_length_le (by omega), List.take_replicate,
    List.take_left' hlen]
  congr 2
  omega

end Sys2Proof.Machine

/-! PROOF. O54, O56: the records of a transmission (42_sequencer R205 to R208). `CCR` holds what the transfers so far
have loaded, a period emits what is in effect, and from the last entry on that is 0. -/

namespace Sys2Proof.Safety

open Sys2Proof.Machine

/-- What the compare register holds after `k` transfers of a stream: 0 before the first, and 0 where there is no
entry. -/
def loaded (stream : List Nat) (k : Nat) : Nat := (0 :: stream).getD k 0

/-- After the data a stream loads 0, and past its end nothing else (R166). -/
theorem loaded_eq_zero {p : Params} {c : Inst} (h : Encoded p c) {k : Nat} (hk : dataEntries c.cfg < k) :
    loaded c.stream k = 0 := by
  obtain ⟨j, rfl⟩ := Nat.exists_eq_add_one_of_ne_zero (Nat.ne_of_gt (Nat.zero_lt_of_lt hk))
  rw [loaded, List.getD_cons_succ, List.getD_eq_getElem?_getD]
  rcases Nat.lt_or_ge j (streamLen p c.cfg) with hlt | hge
  · rw [encodeStream_tail h (Nat.le_of_lt_succ hk) hlt, Option.getD_some]
  · rw [List.getElem?_eq_none ((encodeStream_length h).trans_le hge), Option.getD_none]

theorem dataEntries_lt_streamLen {p : Params} (hp : ParamsFacts p) (cfg : InstCfg) :
    dataEntries cfg + lagPeriods p.ccrLag < streamLen p cfg := by
  have := hp.cycles
  rw [streamLen]
  omega

/-- From the last entry on, further turns load nothing new. -/
theorem loaded_min {p : Params} {c : Inst} (hp : ParamsFacts p) (h : Encoded p c) (k : Nat) :
    loaded c.stream (min k (streamLen p c.cfg)) = loaded c.stream k := by
  have hlen := dataEntries_lt_streamLen hp c.cfg
  rcases Nat.le_total k (streamLen p c.cfg) with hle | hge
  · rw [Nat.min_eq_left hle]
  · rw [Nat.min_eq_right hge, loaded_eq_zero h (by omega), loaded_eq_zero h (by omega)]

/-- Record `n` of a SHOW: what was loaded `CCR_LAG` periods before the end of period `n` (R208). -/
def showRecord (lag : CcrLag) (stream : List Nat) (n : Nat) : Nat := loaded stream (n + 1 - lagPeriods lag)

theorem getElem?_append_replicate_zero (l : List Nat) {n k : Nat} (hk : k < n) :
    (l ++ List.replicate n 0)[k]? = some (l.getD k 0) := by
  rw [List.getD_eq_getElem?_getD]
  rcases Nat.lt_or_ge k l.length with hlt | hge
  · rw [List.getElem?_append_left hlt, List.getElem?_eq_getElem hlt, Option.getD_some]
  · rw [List.getElem?_append_right hge, List.getElem?_replicate_of_lt (by omega), List.getElem?_eq_none hge,
      Option.getD_none]

/-- The sequence of R208, record by record. -/
theorem wireRecords_eq_map (lag : CcrLag) (stream : List Nat) (n : Nat) :
    wireRecords lag stream n = (List.range n).map (showRecord lag stream) := by
  refine List.ext_getElem? fun k => ?_
  rw [wireRecords, List.getElem?_take, List.getElem?_map]
  split
  · next hk =>
    rw [getElem?_append_replicate_zero _ hk, List.getElem?_range hk, Option.map_some, showRecord, loaded]
    cases lag <;> rfl
  · next hk => rw [List.getElem?_eq_none (by simpa using hk), Option.map_none]

@[simp] theorem wireRecords_zero (lag : CcrLag) (stream : List Nat) : wireRecords lag stream 0 = [] := rfl

theorem wireRecords_succ (lag : CcrLag) (stream : List Nat) (n : Nat) :
    wireRecords lag stream (n + 1) = wireRecords lag stream n ++ [showRecord lag stream n] := by
  rw [wireRecords_eq_map, wireRecords_eq_map, List.range_succ, List.map_append, List.map_singleton]

/-- In a transmission the compare register holds what the transfers so far have loaded. -/
theorem TransmittingOk.ccr_eq_loaded {p : Params} {c : Inst} (h : TransmittingOk p c) :
    c.ccr = loaded c.stream c.xfIdx := by
  obtain ⟨-, -, -, -, -, -, -, -, -, hccr, -⟩ := h
  rw [loaded, List.getD_eq_getElem?_getD, hccr, Option.getD_some]

/-- One period of a transmission, from `c` to `d` (R205): the next transfer, if one is left, and the next record. -/
structure PeriodOf (p : Params) (c d : Inst) : Prop where
  cfg : d.cfg = c.cfg
  pix : d.pix = c.pix
  bright : d.bright = c.bright
  stream : d.stream = c.stream
  index : d.xfIdx = min (c.xfIdx + 1) (streamLen p c.cfg)
  count : d.xfCnt = c.xfCnt - 1
  wire : d.wire = c.wire ++ [showRecord p.ccrLag c.stream c.xfIdx]

/-- What a transfer leaves, one made or none left to make. -/
theorem TransmittingOk.transfer {p : Params} {c c' : Inst} {i : InstNo} (h : TransmittingOk p c)
    (ht : c.transfer i = .ok c') :
    c'.xfIdx = min (c.xfIdx + 1) (streamLen p c.cfg) ∧ c'.xfCnt = c.xfCnt - 1 ∧ c'.stream = c.stream ∧
      c'.bright = c.bright ∧ c'.act = c.act ∧ c'.pinMode = c.pinMode ∧ c'.wire = c.wire := by
  obtain ⟨-, -, -, hdreq, -, hsum, hen, -, -, -, -⟩ := h
  rcases Inst.transfer_ok ht with ⟨-, -, d, left, -, hleft, rfl⟩ | ⟨hno, rfl⟩
  · refine ⟨?_, ?_, rfl, rfl, rfl, rfl, rfl⟩
    · rw [Inst.transferred_xfIdx]
      omega
    · rw [Inst.transferred_xfCnt]
      omega
  · have hcnt : c'.xfCnt = 0 := by
      rcases hno with hno | hno
      · cases hdreq.symm.trans hno
      · by_contra hne
        cases hno.symm.trans (hen.2 (Nat.pos_of_ne_zero hne))
    exact ⟨by omega, by omega, rfl, rfl, rfl, rfl, rfl⟩

/-- The engine is armed only while an entry is left (R202 d). -/
theorem TransmittingOk.disarmed_of_count {p : Params} {c : Inst} (h : TransmittingOk p c) (hcnt : c.xfCnt = 0) :
    c.xfEn = false := by
  obtain ⟨-, -, -, -, -, -, hen, -⟩ := h
  rw [← Bool.not_eq_true, hen, hcnt]
  exact Nat.lt_irrefl 0

/-- A transmission has an entry for every transfer still to make (R202 c). -/
theorem InstInv.exists_transfer {p : Params} {c : Inst} (h : InstInv p (some .waitDone) c) (i : InstNo) :
    ∃ c', c.transfer i = .ok c' := by
  obtain ⟨-, -, -, hdreq, -, hsum, hen, -, hencoded, -, -⟩ := h.phase
  cases hcnt : c.xfCnt with
  | zero =>
    exact ⟨c, Inst.transfer_of_not_requested (.inr (TransmittingOk.disarmed_of_count h.phase hcnt))⟩
  | succ left =>
    have hlt : c.xfIdx < c.stream.length := by
      rw [encodeStream_length hencoded]
      omega
    exact ⟨_, Inst.transfer_of_entry hdreq (hen.2 (by omega)) (List.getElem?_eq_getElem hlt) hcnt⟩

/-- The step of a timing generator is a period of its transmission. -/
theorem InstInv.periodOf {p : Params} {c c' : Inst} {i : InstNo} (hp : ParamsFacts p)
    (h : InstInv p (some .waitDone) c) (ht : c.transfer i = .ok c') : PeriodOf p c (c'.produce p.ccrLag) := by
  have hc : TransmittingOk p c := h.phase
  have hd : TransmittingOk p (c'.produce p.ccrLag) := (h.period hp ht).phase
  have hccr := hc.ccr_eq_loaded
  have hccr' := hd.ccr_eq_loaded
  obtain ⟨hidx, hcnt, hstream, hbright, hact, hpin, hwire⟩ := hc.transfer ht
  obtain ⟨-, -, -, -, htimer, hsum, -, -, hencoded, -, hload⟩ := hc
  have hpix := congrArg Prod.fst (Inst.transfer_pixelStore ht)
  refine ⟨?_, ?_, ?_, ?_, ?_, ?_, ?_⟩
  · rw [Inst.produce_cfg, Inst.transfer_cfg ht]
  · rw [Inst.produce_pix]
    exact hpix
  · rw [Inst.produce_bright, hbright]
  · rw [Inst.produce_stream, hstream]
  · rw [Inst.produce_xfIdx, hidx]
  · rw [Inst.produce_xfCnt, hcnt]
  · rw [Inst.produce_ccr, Inst.produce_stream, Inst.produce_xfIdx, hstream, hidx] at hccr'
    rw [showRecord]
    cases hlag : p.ccrLag with
    | lag0 =>
      rw [Inst.produce_wire_lag0, hpin, if_pos htimer, hwire, hccr', loaded_min hp hencoded]
      rfl
    | lag1 => rw [Inst.produce_wire_lag1, hpin, if_pos htimer, hwire, hact, hload, hccr]; rfl

/-- Once all entries are transferred every record is 0. -/
theorem showRecord_min {p : Params} {c : Inst} (hp : ParamsFacts p) (h : Encoded p c) (n : Nat) :
    showRecord p.ccrLag c.stream (min n (streamLen p c.cfg)) = showRecord p.ccrLag c.stream n := by
  have hlen := dataEntries_lt_streamLen hp c.cfg
  rw [showRecord, showRecord]
  rcases Nat.le_total n (streamLen p c.cfg) with hle | hge
  · rw [Nat.min_eq_left hle]
  · rw [Nat.min_eq_right hge, loaded_eq_zero h (by omega), loaded_eq_zero h (by omega)]

/-- The record of the last transfer is 0 (R207). -/
theorem showRecord_last {p : Params} {c : Inst} (hp : ParamsFacts p) (h : Encoded p c) {n : Nat}
    (hn : n + 1 = streamLen p c.cfg) : showRecord p.ccrLag c.stream n = 0 := by
  have hlen := dataEntries_lt_streamLen hp c.cfg
  exact loaded_eq_zero h (by omega)

theorem tgPeriod_of_none {s : State} {i : InstNo} (h : s.inst? i = none) : tgPeriod i s = .next s := by
  simp only [tgPeriod, h]

/-! One turn while a SHOW of instance `i` is under way. -/

/-- A generator that runs is that of the instance whose SHOW waits for completion (R202 b). -/
theorem Inv.show_of_running {s : State} {i j : InstNo} {c : Inst} {ph : Phase} (h : Inv s) (hcur : s.cur = showAt i ph)
    (hc : s.inst? j = some c) (hrun : c.tgRun = true) : j = i ∧ ph = .waitDone := by
  have hphase := (h.insts j c hc).phase_of_running hrun
  rw [hcur] at hphase
  by_cases hj : j = i
  · subst hj
    rw [showPhase_showAt_self] at hphase
    exact ⟨rfl, Option.some.inj hphase⟩
  · rw [showPhase_showAt_of_ne ph hj] at hphase
    cases hphase

/-- The instance of the SHOW under way. -/
theorem Inv.exists_inst_of_show {s : State} {i : InstNo} {ph : Phase} (h : Inv s) (hcur : s.cur = showAt i ph) :
    ∃ c, s.inst? i = some c ∧ InstInv s.params (some ph) c := by
  obtain ⟨-, -, c, hc⟩ := h.cur _ hcur
  exact ⟨c, hc, h.inst_of_show hc hcur⟩

theorem Inv.faults_of_show {s : State} {i : InstNo} {ph : Phase} (h : Inv s) (hcur : s.cur = showAt i ph) :
    s.faults = [] := by
  by_contra hne
  cases hcur.symm.trans (h.stopped hne)

/-- Everything the turn of an agent can answer while a SHOW of `i` is in phase `ph`: the host's step of the phase, a
period of the transmission, a tick, or a turn that passes. -/
inductive ShowTurn (i : InstNo) (ph : Phase) (c : Inst) (s : State) : Agent → State → Prop
  | host {t : State} (h : phaseStep ph i c s = .next t) : ShowTurn i ph c s .host t
  | period {d : Inst} (hph : ph = .waitDone) (h : PeriodOf s.params c d) :
      ShowTurn i ph c s (.timingGenerator i) (s.setInst i d)
  | tick : ShowTurn i ph c s .timeSource { s with clock := s.clock + 1 }
  | pass {j : InstNo} (h : j = i → ph ≠ .waitDone) : ShowTurn i ph c s (.timingGenerator j) s

theorem Inv.showTurn {a : Agent} {i : InstNo} {ph : Phase} {c : Inst} {s t : State} (h : Inv s)
    (hcur : s.cur = showAt i ph) (hc : s.inst? i = some c) (hturn : Machine.agentTurn a s = .next t) :
    ShowTurn i ph c s a t := by
  have hinst := h.inst_of_show hc hcur
  cases a with
  | host =>
    refine .host ?_
    rw [← continueCurrent_show hc, ← hostTurn_of_cur (h.faults_of_show hcur) hcur]
    exact hturn
  | timeSource =>
    cases hturn
    exact .tick
  | timingGenerator j =>
    have hp := paramsFacts_of_configOk h.config
    have hstopped : ∀ b, s.inst? j = some b → b.tgRun = false → j = i → ph ≠ .waitDone := by
      rintro b hb hno rfl rfl
      cases hc.symm.trans hb
      obtain ⟨-, -, hrun, -⟩ := hinst.phase
      cases hno.symm.trans hrun
    cases hb : s.inst? j with
    | none =>
      cases (tgPeriod_of_none hb).symm.trans hturn
      refine .pass ?_
      rintro rfl
      cases hb.symm.trans hc
    | some b =>
      cases hrun : b.tgRun with
      | false =>
        cases (tgPeriod_of_stopped hb hrun).symm.trans hturn
        exact .pass (hstopped b hb hrun)
      | true =>
        obtain ⟨rfl, rfl⟩ := h.show_of_running hcur hb hrun
        cases hc.symm.trans hb
        obtain ⟨c', htransfer⟩ := hinst.exists_transfer j
        cases (tgPeriod_of_transfer hc hrun htransfer).symm.trans hturn
        exact .period rfl (hinst.periodOf hp htransfer)

/-- A step from a state of the invariant is the turn of the next agent. -/
theorem Inv.turn_of_step {s t : State} (h : Inv s) (hstep : Machine.step s = .next t) :
    Machine.agentTurn s.nextAgent s.takeTurn = .next t := by
  obtain ⟨-, ⟨hno, -⟩ | ⟨-, hturn⟩⟩ := step_next hstep
  · cases hno.symm.trans h.config
  · exact hturn

theorem Inv.showTurn_of_step {i : InstNo} {ph : Phase} {c : Inst} {s t : State} (h : Inv s)
    (hcur : s.cur = showAt i ph) (hc : s.inst? i = some c) (hstep : Machine.step s = .next t) :
    ShowTurn i ph c s.takeTurn s.nextAgent t :=
  h.takeTurn.showTurn (s.takeTurn_cur.trans hcur) ((s.inst?_takeTurn i).trans hc) (h.turn_of_step hstep)

/-- WAIT_DONE's step passes, or ends a SHOW whose flag is up (R197). -/
theorem stepWaitDone_next {i : InstNo} {c : Inst} {s t : State} (h : stepWaitDone i c s = .next t) :
    (c.xfTc = false ∧ t = s) ∨ (c.xfTc = true ∧ t = (s.setInst i (c.disarmed s.now)).ret .unit) := by
  unfold stepWaitDone at h
  split at h
  · next htc => exact .inr ⟨htc, (Host.Outcome.next.inj h).symm⟩
  · next htc => exact .inl ⟨by simpa using htc, (Host.Outcome.next.inj h).symm⟩

/-- A raised flag means that every entry is transferred (R202 d). -/
theorem TransmittingOk.index_of_flag {p : Params} {c : Inst} (h : TransmittingOk p c) (htc : c.xfTc = true) :
    c.xfCnt = 0 ∧ c.xfIdx = streamLen p c.cfg := by
  obtain ⟨-, -, -, -, -, hsum, -, hflag, -⟩ := h
  have hcnt := hflag.1 htc
  exact ⟨hcnt, by omega⟩

/-- Settles O54: ARM leaves index 0 and no record; of the later turns a period takes the records of `n` periods to those
of `n + 1`, the host's last step finds the index at `L`, and no other turn touches the transmission. -/
theorem wireCarriesTheStreamInOrder : Obligations.WireCarriesTheStreamInOrder := by
  refine ⟨fun s t i c _ hturn hc hcur hstep => ?_, fun s t i before n hinv hsend hstep => ?_⟩
  · rw [step_of_phase hturn hc hcur] at hstep
    cases hstep
    refine ⟨rfl, _, State.inst?_setInst_self _ i _ c ((s.inst?_takeTurn i).trans hc), ?_, ?_⟩
    · rw [Inst.armed_xfIdx, Nat.zero_min]
    · rw [Inst.armed_wire, wireRecords_zero, List.append_nil]
  · obtain ⟨hcur, c, hc, hidx, hwire⟩ := hsend
    have hp := paramsFacts_of_configOk hinv.config
    have htrans : TransmittingOk s.params c := (hinv.inst_of_show hc hcur).phase
    have hc' := (s.inst?_takeTurn i).trans hc
    have hcur' := s.takeTurn_cur.trans hcur
    have hstay : Sending s.takeTurn i before n := by
      refine ⟨hcur', c, hc', ?_, ?_⟩
      · rwa [s.takeTurn_params]
      · rwa [s.takeTurn_params]
    have hshow := hinv.showTurn_of_step hcur hc hstep
    generalize s.nextAgent = a at hshow
    cases hshow with
    | host h =>
      rcases stepWaitDone_next h with ⟨-, rfl⟩ | ⟨htc, rfl⟩
      · exact .inl hstay
      · obtain ⟨-, hdone⟩ := htrans.index_of_flag htc
        have hn : streamLen s.params c.cfg ≤ n := by omega
        exact .inr (.inr ⟨rfl, _, State.inst?_setInst_self _ i _ c hc', rfl, rfl, hn, hwire⟩)
    | period _ h =>
      have hencoded : Encoded s.params c := by
        obtain ⟨-, -, -, -, -, -, -, -, hencoded, -⟩ := htrans
        exact hencoded
      rw [s.takeTurn_params] at h
      refine .inr (.inl ⟨hcur', _, State.inst?_setInst_self _ i _ c hc', ?_, ?_⟩)
      · rw [State.setInst_params, s.takeTurn_params, h.index, h.cfg, hidx]
        omega
      · rw [State.setInst_params, s.takeTurn_params, h.wire, h.stream, hwire, hidx, showRecord_min hp hencoded,
          wireRecords_succ, List.append_assoc]
    | tick => exact .inl hstay
    | pass => exact .inl hstay

/-- Settles O56: the period that raises the flag transfers the last entry, whose record lies in the tail of the
stream. -/
theorem cutPeriodIsZero : Obligations.CutPeriodIsZero := by
  intro s t i c d hinv _ hc hstep hd hlow hhigh
  have hp := paramsFacts_of_configOk hinv.config
  obtain ⟨hagent, hrun, hlast⟩ := step_raises_flag hstep hc hd hlow hhigh
  have hinst := hinv.insts i c hc
  rw [hinst.phase_of_running hrun] at hinst
  obtain ⟨c', htransfer⟩ := hinst.exists_transfer i
  have hturn := hinv.turn_of_step hstep
  have hc' := (s.inst?_takeTurn i).trans hc
  rw [hagent, Machine.agentTurn, tgPeriod_of_transfer hc' hrun htransfer] at hturn
  cases hturn
  cases (State.inst?_setInst_self _ i _ c hc').symm.trans hd
  obtain ⟨-, -, -, -, -, hsum, -, -, hencoded, -⟩ := hinst.phase
  have hcnt := hlast.count
  rw [s.takeTurn_params, (hinst.periodOf hp htransfer).wire, showRecord_last hp hencoded (by omega)]

end Sys2Proof.Safety

/-! PROOF. O49, O52, O53, O59: what the invariant gives (42_sequencer R202, 60_exceptions R231, 70_reset_and_hazards
R277), and that the power-on state meets it (R260). -/

namespace Sys2Proof.Safety

open Sys2Proof.Machine

theorem Inv.powerOn {p : Params} {cfgs : List InstCfg} (h : Machine.configOk p cfgs = true) :
    Inv (State.powerOn p cfgs) where
  config := by rwa [State.configOk, State.powerOn_params, State.powerOn_cfgs]
  insts i c hc := by
    obtain ⟨cfg, -, rfl⟩ := exists_cfg_of_mem_powerOn (List.mem_of_getElem? hc)
    exact InstInv.powerOn p cfg
  cur := nofun
  faults := List.nodup_nil
  stopped _ := rfl

/-- Settles O49: every instance is a power-on instance, and the configuration of the reset state is admitted. -/
theorem powerOnMeetsTheInvariant : Obligations.PowerOnMeetsTheInvariant := by
  have hreset : Machine.configOk Params.atReset [InstCfg.atReset] = true := by decide
  exact ⟨fun _ _ => Inv.powerOn, Inv.powerOn hreset, _, _, rfl, hreset⟩

/-! A next state for the turn of every agent. -/

/-- A READY instance's pixel memory is complete (R76). -/
theorem Inv.pix_of_ready {s : State} {i : InstNo} {c : Inst} (h : Inv s) (hc : s.inst? i = some c)
    (hr : c.init = .ready) : c.pix.map Prod.fst = List.range (pixBytes c.cfg) := by
  obtain ⟨hpix, -⟩ := (h.insts i c hc).allocated hr
  exact hpix

theorem Inv.exists_exec {s : State} (h : Inv s) (i : Instr) : ∃ t, Machine.exec i s = .next t := by
  obtain ⟨k, hk⟩ := exec_eq_guarded i s
  cases hc : s.inst? i.inst with
  | none => exact ⟨_, hk.trans (State.guarded_of_badInstance hc)⟩
  | some c =>
    by_cases hinit : c.init = requiredInit i.opcode
    · by_cases hbusy : needsIdle i.opcode = true ∧ c.state ≠ .idle
      · exact ⟨_, hk.trans (State.guarded_of_busy hc hinit hbusy.1 hbusy.2)⟩
      · obtain ⟨t, ht, -⟩ := exec_of_pass hc hinit (fun hn => by_contra fun hs => hbusy ⟨hn, hs⟩) fun hop =>
          h.pix_of_ready hc (hinit.trans (by rw [hop]; rfl))
        exact ⟨t, ht⟩
    · exact ⟨_, hk.trans (State.guarded_of_init_ne hc hinit)⟩

/-- A command under way is a SHOW in one of its phases. -/
theorem Inv.exists_show {s : State} {k : Cur} (h : Inv s) (hk : s.cur = some k) : ∃ ph, s.cur = showAt k.inst ph := by
  obtain ⟨hop, hph, -⟩ := h.cur k hk
  obtain ⟨ph, hph⟩ := Option.ne_none_iff_exists'.1 hph
  exact ⟨ph, hk.trans (cur_eq_showAt hop hph)⟩

theorem Inv.exists_phaseStep {s : State} {i : InstNo} {c : Inst} {ph : Phase} (h : Inv s) (hcur : s.cur = showAt i ph)
    (hc : s.inst? i = some c) : ∃ t, phaseStep ph i c s = .next t := by
  have hphase := (h.inst_of_show hc hcur).phase
  cases ph with
  | waitReset =>
    rw [phaseStep, stepWaitReset]
    split <;> exact ⟨_, rfl⟩
  | encode =>
    obtain ⟨hr, -⟩ := hphase
    obtain ⟨entries, hentries⟩ := encodeStream_isSome (p := s.params) c.bright (h.pix_of_ready hc hr)
    exact ⟨_, stepEncode_of_encode hentries⟩
  | arm => exact ⟨_, rfl⟩
  | waitDone =>
    rw [phaseStep, stepWaitDone]
    split <;> exact ⟨_, rfl⟩

/-- R277: with no word left the host's turn passes. -/
theorem hostTurn_of_ended {s : State} (hf : s.faults = []) (hcur : s.cur = none) (hp : s.program = []) :
    Machine.hostTurn s = .next s := by
  simp only [Machine.hostTurn, hf, hcur, hp]

theorem Inv.exists_hostTurn {s : State} (h : Inv s) : ∃ t, Machine.hostTurn s = .next t := by
  cases hf : s.faults with
  | cons f rest => exact ⟨s, by simp only [Machine.hostTurn, hf]⟩
  | nil =>
    cases hk : s.cur with
    | some k =>
      obtain ⟨ph, hcur⟩ := h.exists_show hk
      obtain ⟨c, hc, -⟩ := h.exists_inst_of_show hcur
      rw [hostTurn_of_cur hf hcur, continueCurrent_show hc]
      exact h.exists_phaseStep hcur hc
    | none =>
      cases hp : s.program with
      | nil => exact ⟨s, hostTurn_of_ended hf hk hp⟩
      | cons w rest =>
        rw [hostTurn_of_program hf hk hp]
        cases hw : decode w with
        | error e =>
          exact ⟨_, issueWord_of_not_ok (fun i hi => by cases hw.symm.trans hi) _⟩
        | ok i =>
          rw [issueWord, hw]
          exact (h.setProgram rest).exists_exec i

theorem Inv.exists_tgPeriod {s : State} (h : Inv s) (i : InstNo) : ∃ t, Machine.tgPeriod i s = .next t := by
  cases hc : s.inst? i with
  | none => exact ⟨s, tgPeriod_of_none hc⟩
  | some c =>
    cases hrun : c.tgRun with
    | false => exact ⟨s, tgPeriod_of_stopped hc hrun⟩
    | true =>
      have hinst := h.insts i c hc
      rw [hinst.phase_of_running hrun] at hinst
      obtain ⟨c', htransfer⟩ := hinst.exists_transfer i
      exact ⟨_, tgPeriod_of_transfer hc hrun htransfer⟩

/-- Settles O52: under the invariant the host finds every byte it reads and a generator every entry. -/
theorem everyStepHasANextState : Obligations.EveryStepHasANextState := by
  intro s h hr
  rw [step_of_running ⟨hr, h.config⟩]
  cases s.nextAgent with
  | host => exact h.takeTurn.exists_hostTurn
  | timingGenerator i => exact h.takeTurn.exists_tgPeriod i
  | timeSource => exact ⟨_, rfl⟩

/-! The phase an instance is in, from its registers. -/

theorem InstInv.idleOk {p : Params} {ph : Option Phase} {c : Inst} (h : InstInv p ph c) (hs : c.state = .idle) :
    IdleOk c := by
  have hphase := h.phase
  match ph with
  | none => exact hphase
  | some .waitReset =>
    obtain ⟨-, hidle⟩ := hphase
    exact hidle
  | some .encode =>
    obtain ⟨-, hstate, -⟩ := hphase
    cases hs.symm.trans hstate
  | some .arm =>
    obtain ⟨⟨-, hstate, -⟩, -⟩ := hphase
    cases hs.symm.trans hstate
  | some .waitDone =>
    obtain ⟨-, hstate, -⟩ := hphase
    cases hs.symm.trans hstate

theorem InstInv.phase_of_not_idle {p : Params} {ph : Option Phase} {c : Inst} (h : InstInv p ph c)
    (hs : c.state ≠ .idle) : ph ≠ none := by
  rintro rfl
  obtain ⟨hidle, -⟩ := h.phase
  exact hs hidle

theorem InstInv.transmitting {p : Params} {ph : Option Phase} {c : Inst} (h : InstInv p ph c)
    (hs : c.state = .transmitting ∨ c.xfEn = true) : TransmittingOk p c := by
  have hphase := h.phase
  have hother : ∀ {st}, c.state = st → Quiet c → st = .transmitting := by
    rintro _ rfl ⟨-, -, hoff⟩
    rcases hs with hs | hs
    · exact hs
    · cases hs.symm.trans hoff
  match ph with
  | none =>
    obtain ⟨hstate, hquiet, -⟩ := hphase
    cases hother hstate hquiet
  | some .waitReset =>
    obtain ⟨-, hstate, hquiet, -⟩ := hphase
    cases hother hstate hquiet
  | some .encode =>
    obtain ⟨-, hstate, hquiet, -⟩ := hphase
    cases hother hstate hquiet
  | some .arm =>
    obtain ⟨⟨-, hstate, hquiet, -⟩, -⟩ := hphase
    cases hother hstate hquiet
  | some .waitDone => exact hphase

/-- An instance that is not Idle is the one whose SHOW is under way (R202 b). -/
theorem Inv.cur_of_not_idle {s : State} {i : InstNo} {c : Inst} (h : Inv s) (hc : s.inst? i = some c)
    (hs : c.state ≠ .idle) : ∃ k, s.cur = some k ∧ k.inst = i ∧ k.opcode = .showFrame := by
  have hphase := (h.insts i c hc).phase_of_not_idle hs
  unfold showPhase at hphase
  split at hphase
  · exact absurd rfl hphase
  · next k hk =>
    split_ifs at hphase with hand
    · exact ⟨k, hk, hand⟩
    · exact absurd rfl hphase

/-- Settles O53: the registers tell the phase, and the phase gives the rest; two instances that are not Idle are both
that of `CUR`. -/
theorem invariantGivesTheResourceRules : Obligations.InvariantGivesTheResourceRules := by
  intro s i c h hc hr
  have hinst := h.insts i c hc
  refine ⟨fun hs => ?_, h.cur_of_not_idle hc, fun hen => ?_, fun htc hs => ?_, fun j d hd hs hs' => ?_⟩
  · obtain ⟨-, ⟨hrun, hdreq, hoff⟩, hpin⟩ := hinst.idleOk hs
    exact ⟨hrun, hdreq, hoff, hpin hr⟩
  · obtain ⟨-, hstate, -, -, -, hsum, hiff, -⟩ := hinst.transmitting (.inr hen)
    exact ⟨hstate, hiff.1 hen, hsum⟩
  · have htrans := hinst.transmitting (.inl hs)
    obtain ⟨hcnt, hidx⟩ := htrans.index_of_flag htc
    exact ⟨htrans.disarmed_of_count hcnt, hidx⟩
  · obtain ⟨k, hk, rfl, -⟩ := h.cur_of_not_idle hc hs
    obtain ⟨k', hk', rfl, -⟩ := h.cur_of_not_idle hd hs'
    cases hk.symm.trans hk'
    rfl

/-- Settles O59: with no command under way every instance is Idle, so no generator runs; and the host has no word. -/
theorem runEndLeavesEveryInstanceQuiet : Obligations.RunEndLeavesEveryInstanceQuiet := by
  rintro s h ⟨hprogram, hcur, hf, hr⟩
  have hidle : ∀ i c, s.inst? i = some c → IdleOk c := fun i c hc => h.idle_of_cur_none hc hcur
  refine ⟨fun i c hc => ?_, fun hagent => ?_⟩
  · obtain ⟨hstate, ⟨hrun, -⟩, hpin⟩ := hidle i c hc
    exact ⟨hstate, hrun, hpin⟩
  · rw [step_of_running ⟨hr, h.config⟩]
    cases ha : s.nextAgent with
    | timeSource => exact absurd ha hagent
    | host =>
      exact hostTurn_of_ended (s.takeTurn_faults.trans hf) (s.takeTurn_cur.trans hcur)
        (s.takeTurn_program.trans hprogram)
    | timingGenerator i =>
      cases hc : s.inst? i with
      | none => exact tgPeriod_of_none ((s.inst?_takeTurn i).trans hc)
      | some c =>
        obtain ⟨-, ⟨hrun, -⟩, -⟩ := hidle i c hc
        exact tgPeriod_of_stopped ((s.inst?_takeTurn i).trans hc) hrun

end Sys2Proof.Safety

/-! PROOF. O57, O58 and what time does to `canShowFn`, O41 (42_sequencer R186, R190, R194, R210; 60_exceptions R245). -/

namespace Sys2Proof.Machine

/-- The elapsed time is the difference of `CLOCK` and the timestamp modulo `2^TIME_WIDTH` (R186). -/
theorem State.elapsedSince_eq (s : State) (t : Nat) :
    (s.elapsedSince t : Int) = ((s.clock : Int) - t) % ((2 ^ s.params.timeWidth : Nat) : Int) := by
  have hpos : ((2 ^ s.params.timeWidth : Nat) : Int) ≠ 0 := by positivity
  rw [State.elapsedSince, Int.toNat_of_nonneg (Int.emod_nonneg _ hpos), State.now, Int.natCast_mod, Int.emod_sub_emod]

theorem State.elapsedSince_lt (s : State) (t : Nat) : s.elapsedSince t < 2 ^ s.params.timeWidth := by
  have hpos : (0 : Int) < ((2 ^ s.params.timeWidth : Nat) : Int) := by positivity
  have hlt := Int.emod_lt_of_pos ((s.clock : Int) - t) hpos
  rw [← s.elapsedSince_eq] at hlt
  exact_mod_cast hlt

/-- Ticks add to the elapsed time. -/
theorem State.elapsedSince_add (s : State) (k t : Nat) :
    State.elapsedSince { s with clock := s.clock + k } t = (s.elapsedSince t + k) % 2 ^ s.params.timeWidth := by
  have h : ((State.elapsedSince { s with clock := s.clock + k } t : Nat) : Int) =
      (((s.elapsedSince t + k) % 2 ^ s.params.timeWidth : Nat) : Int) := by
    rw [State.elapsedSince_eq, Int.natCast_mod, Nat.cast_add, Nat.cast_add, s.elapsedSince_eq, Int.emod_add_emod]
    congr 1
    ring
  exact_mod_cast h

/-- A timestamp just taken. -/
theorem State.elapsedSince_now (s : State) : s.elapsedSince s.now = 0 := by
  rw [State.elapsedSince, Int.sub_self, Int.zero_emod, Int.toNat_zero]

/-- A timestamp taken at an earlier `CLOCK`. -/
theorem State.elapsedSince_taken {s : State} {taken : Nat} (h : taken ≤ s.clock) :
    s.elapsedSince (taken % 2 ^ s.params.timeWidth) = (s.clock - taken) % 2 ^ s.params.timeWidth := by
  have hcast := s.elapsedSince_eq (taken % 2 ^ s.params.timeWidth)
  rw [Int.natCast_mod, Int.sub_emod_emod, ← Nat.cast_sub h, ← Int.natCast_mod] at hcast
  exact_mod_cast hcast

@[simp] theorem State.elapsedSince_ret (s : State) (v : Result) (t : Nat) :
    (s.ret v).elapsedSince t = s.elapsedSince t := rfl

@[simp] theorem State.elapsedSince_setInst (s : State) (i : InstNo) (c : Inst) (t : Nat) :
    (s.setInst i c).elapsedSince t = s.elapsedSince t := rfl

/-- Settles O41: right after WAIT_DONE no time has passed, and the threshold is positive; later the elapsed time is at
most what `CLOCK` has advanced. -/
theorem quietPeriodIsKept : Obligations.QuietPeriodIsKept := by
  refine ⟨fun s t i c d hturn hc hcur htc hstep hd => ?_, fun s c taken hle htaken hcan => ?_⟩
  · obtain ⟨⟨-, hcfg⟩, -⟩ := id hturn
    have hpos := (Safety.paramsFacts_of_configOk hcfg).thresholdPos
    rw [step_of_waitDone hturn hc hcur, htc] at hstep
    cases hstep
    cases (State.inst?_setInst_self _ i _ c ((s.inst?_takeTurn i).trans hc)).symm.trans hd
    rw [State.canShowFn_of_some (Inst.disarmed_tLast s.now c), State.elapsedSince_ret, State.elapsedSince_setInst,
      s.takeTurn_elapsedSince, s.elapsedSince_now]
    refine decide_eq_false (Nat.not_le.2 ?_)
    rwa [State.ret_params, State.setInst_params, s.takeTurn_params]
  · rw [State.canShowFn_of_some htaken, decide_eq_true_iff, State.elapsedSince_taken hle] at hcan
    have hmod := Nat.mod_le (s.clock - taken) (2 ^ s.params.timeWidth)
    omega

end Sys2Proof.Machine

namespace Sys2Proof.Safety

open Sys2Proof.Machine

/-! How long the reset wait still lasts. -/

/-- The ticks the threshold still lacks (R194). -/
def lack (s : State) (c : Inst) : Nat :=
  match c.tLast with
  | none => 0
  | some t => s.params.resetThresholdUs - s.elapsedSince t

theorem lack_of_none {s : State} {c : Inst} (h : c.tLast = none) : lack s c = 0 := by
  rw [lack, h]

theorem lack_of_some {s : State} {c : Inst} {t : Nat} (h : c.tLast = some t) :
    lack s c = s.params.resetThresholdUs - s.elapsedSince t := by
  rw [lack, h]

theorem lack_le_threshold (s : State) (c : Inst) : lack s c ≤ s.params.resetThresholdUs := by
  cases h : c.tLast with
  | none => exact (lack_of_none h).trans_le (Nat.zero_le _)
  | some t => exact (lack_of_some h).trans_le (Nat.sub_le _ _)

theorem canShowFn_iff_lack (s : State) (c : Inst) : s.canShowFn c = true ↔ lack s c = 0 := by
  cases h : c.tLast with
  | none => rw [State.canShowFn_of_none h, lack_of_none h]; exact ⟨fun _ => rfl, fun _ => rfl⟩
  | some t => rw [State.canShowFn_of_some h, lack_of_some h, decide_eq_true_iff, Nat.sub_eq_zero_iff_le]

/-- Up to the end of the wait a tick takes one off: the elapsed time does not wrap before it reaches the threshold. -/
theorem lack_add {s : State} (hp : ParamsFacts s.params) (c : Inst) {k : Nat} (hk : k ≤ lack s c) :
    lack { s with clock := s.clock + k } c = lack s c - k := by
  cases h : c.tLast with
  | none =>
    rw [lack_of_none h] at hk ⊢
    rw [lack_of_none h, Nat.zero_sub]
  | some t =>
    have hlt := s.elapsedSince_lt t
    have hfits := hp.thresholdFits
    rw [lack_of_some h] at hk ⊢
    rw [lack_of_some h, State.elapsedSince_add, Nat.mod_eq_of_lt (by omega)]
    exact (Nat.sub_sub _ _ _).symm

/-- A run of the time source alone. -/
theorem run_ticks {s : State} (h : Running s) (k m : Nat) (rest : List Agent) :
    Sys2Proof.core.run (k + m) { s with sched := List.replicate k .timeSource ++ rest } =
      Sys2Proof.core.run m { s with sched := rest, clock := s.clock + k } := by
  induction k generalizing s with
  | zero => rw [Nat.zero_add]; rfl
  | succ k ih =>
    have hstep := step_of_timeSource (s := { s with sched := List.replicate (k + 1) .timeSource ++ rest }) h rfl
    have hrest := ih (s := { s with clock := s.clock + 1 }) h
    rw [Nat.succ_add, core_run_next _ hstep]
    refine hrest.trans ?_
    rw [Nat.add_assoc, Nat.add_comm 1 k]

/-- Settles O58: `k` ticks leave `lack s c - k`, and the hold is lifted exactly when nothing is lacking. -/
theorem resetWaitEndsAfterTheThreshold : Obligations.ResetWaitEndsAfterTheThreshold := by
  intro s i c n hinv hr hc hcur hn
  have hlack : n = lack s c := hn
  subst hlack
  have hp := paramsFacts_of_configOk hinv.config
  have hrun : Running s := ⟨hr, hinv.config⟩
  have hturn : ∀ (k : Nat) (rest : List Agent), HostTurn { s with sched := .host :: rest, clock := s.clock + k } :=
    fun k rest => ⟨hrun, hinv.faults_of_show hcur, rfl⟩
  refine ⟨lack_le_threshold s c, fun k rest hk => ?_, fun rest => ?_⟩
  · have hheld : State.canShowFn { s with sched := .host :: rest, clock := s.clock + k } c = false := by
      rw [Bool.eq_false_iff, Ne, canShowFn_iff_lack]
      intro hzero
      have hleft := (lack_add hp c hk.le).symm.trans hzero
      omega
    obtain ⟨hpass, -⟩ := waitResetHoldsUntilCanShow _ i c (hturn k rest) hc hcur
    rw [run_ticks hrun, core_run_next 0 (hpass hheld)]
    exact ⟨_, rfl, hcur, rfl, rfl⟩
  · have hlifted : State.canShowFn { s with sched := .host :: rest, clock := s.clock + lack s c } c = true := by
      rw [canShowFn_iff_lack]
      exact (lack_add hp c le_rfl).trans (Nat.sub_self _)
    obtain ⟨-, hgo⟩ := waitResetHoldsUntilCanShow _ i c (hturn _ rest) hc hcur
    rw [run_ticks hrun, core_run_next 0 (hgo hlifted)]
    exact ⟨_, rfl, rfl, rfl, rfl, State.inst?_setInst_self s i _ c hc⟩

/-! How long a transmission still lasts. -/

theorem set_of_inst? {s : State} {i : InstNo} {c : Inst} (hc : s.inst? i = some c) :
    s.insts.set i.toNat c = s.insts := by
  obtain ⟨hlt, rfl⟩ := List.getElem?_eq_some_iff.1 hc
  exact List.set_getElem_self hlt

/-- A period of the transmission under way (R205). -/
theorem step_of_period {s : State} {i : InstNo} {c : Inst} {rest : List Agent} (hinv : Inv s) (hr : s.refusedBy = none)
    (hc : s.inst? i = some c) (hcur : s.cur = showAt i .waitDone) (hsched : s.sched = .timingGenerator i :: rest) :
    ∃ d, PeriodOf s.params c d ∧ Machine.step s = .next { s with sched := rest, insts := s.insts.set i.toNat d } := by
  have hinst := hinv.inst_of_show hc hcur
  obtain ⟨-, -, hrun, -⟩ := id hinst.phase
  obtain ⟨c', htransfer⟩ := hinst.exists_transfer i
  refine ⟨_, hinst.periodOf (paramsFacts_of_configOk hinv.config) htransfer, ?_⟩
  have hagent : s.nextAgent = .timingGenerator i := by rw [State.nextAgent, hsched]
  rw [step_of_transfer ⟨hr, hinv.config⟩ hagent hc hrun htransfer, State.takeTurn, hsched]

/-- `d` has what the encoder reads and writes as `c` has it. -/
structure SameFrame (c d : Inst) : Prop where
  cfg : d.cfg = c.cfg
  pix : d.pix = c.pix
  bright : d.bright = c.bright
  stream : d.stream = c.stream

/-- A run of the generator alone transfers everything that is left. -/
theorem run_periods {i : InstNo} {rest : List Agent} (m k : Nat) {s : State} {c : Inst} (hinv : Inv s)
    (hr : s.refusedBy = none) (hc : s.inst? i = some c) (hcur : s.cur = showAt i .waitDone) (hcnt : c.xfCnt = k)
    (hsched : s.sched = List.replicate k (.timingGenerator i) ++ rest) :
    ∃ d, Sys2Proof.core.run (k + m) s =
        Sys2Proof.core.run m { s with sched := rest, insts := s.insts.set i.toNat d } ∧
      Inv { s with sched := rest, insts := s.insts.set i.toNat d } ∧ d.xfCnt = 0 ∧ SameFrame c d := by
  induction k generalizing s c with
  | zero =>
    obtain rfl : s.sched = rest := hsched
    refine ⟨c, ?_, ?_, hcnt, rfl, rfl, rfl, rfl⟩
    · rw [Nat.zero_add, set_of_inst? hc]
    · rwa [set_of_inst? hc]
  | succ k ih =>
    obtain ⟨b, hb, hstep⟩ := step_of_period hinv hr hc hcur hsched
    have hcntb : b.xfCnt = k := by rw [hb.count, hcnt, Nat.add_sub_cancel]
    obtain ⟨d, hrun, hinvd, hcntd, hframe⟩ :=
      ih (hinv.step hstep) hr (State.inst?_setInst_self s i b c hc) hcur hcntb rfl
    rw [List.set_set] at hrun hinvd
    refine ⟨d, ?_, hinvd, hcntd, hframe.cfg.trans hb.cfg, hframe.pix.trans hb.pix, hframe.bright.trans hb.bright,
      hframe.stream.trans hb.stream⟩
    rw [Nat.succ_add, core_run_next _ hstep, hrun]

/-- Settles O57: the periods leave nothing to transfer, so the flag is up and the host's turn disarms and returns. -/
theorem showEndsAfterItsPeriods : Obligations.ShowEndsAfterItsPeriods := by
  intro s i c rest hinv hr hf hc hcur hsched
  obtain ⟨d, hrun, hinvd, hcnt, hframe⟩ := run_periods 1 c.xfCnt hinv hr hc hcur rfl hsched
  have hd := State.inst?_setInst_self s i d c hc
  have htrans : TransmittingOk s.params d := (hinvd.inst_of_show hd hcur).phase
  have htc : d.xfTc = true := by
    obtain ⟨-, -, -, -, -, -, -, hflag, -⟩ := htrans
    exact hflag.2 hcnt
  obtain ⟨-, hidx⟩ := htrans.index_of_flag htc
  have hturn : HostTurn { s with sched := .host :: rest, insts := s.insts.set i.toNat d } :=
    ⟨⟨hr, hinvd.config⟩, hf, rfl⟩
  have hstep := step_of_waitDone hturn hd hcur
  rw [htc, if_pos rfl] at hstep
  refine ⟨_, d.disarmed s.now, hrun.trans (core_run_next 0 hstep), rfl, rfl, rfl,
    State.inst?_setInst_self _ i _ d hd, rfl, rfl, rfl, rfl, htc, ?_, hcnt, rfl, rfl, hframe.pix, hframe.bright,
    hframe.stream⟩
  rw [Inst.disarmed_xfIdx, hidx, hframe.cfg]

end Sys2Proof.Safety

/-! PROOF. O60: what fairness gives on infinite runs (42_sequencer R210, R211). A hold stands with a measure that no
turn raises and that the turns of one agent lower: for WAIT_RESET the ticks the threshold lacks, for WAIT_DONE the
entries left to transfer, and for the whole SHOW the phases left. -/

namespace Sys2Proof.Safety

open Sys2Proof.Machine

/-- A hold `H` that stands until it is lifted (`L`) is lifted, when helpful turns keep coming while it stands and each
lowers a measure that no turn raises. -/
theorem exists_lifted {H L helpful : Nat → Prop} {μ : Nat → Nat}
    (hstep : ∀ m, H m → ¬ L m → H (m + 1) ∧ μ (m + 1) ≤ μ m ∧ (helpful m → μ (m + 1) < μ m))
    (hfair : ∀ n, (∀ m, n ≤ m → H m) → ∃ m, n ≤ m ∧ helpful m) {n : Nat} (hn : H n) :
    ∃ m, n ≤ m ∧ H m ∧ L m := by
  by_contra hno
  have hstands : ∀ m, n ≤ m → H m ∧ ¬ L m := by
    intro m hm
    induction m, hm using Nat.le_induction with
    | base => exact ⟨hn, fun hl => hno ⟨n, le_rfl, hn, hl⟩⟩
    | succ m hm ih =>
      obtain ⟨hnext, -⟩ := hstep m ih.1 ih.2
      exact ⟨hnext, fun hl => hno ⟨m + 1, Nat.le_succ_of_le hm, hnext, hl⟩⟩
  have hdown : Antitone fun k => μ (n + k) := antitone_nat_of_succ_le fun k => by
    obtain ⟨hH, hL⟩ := hstands (n + k) (Nat.le_add_right n k)
    obtain ⟨-, hle, -⟩ := hstep _ hH hL
    exact hle
  have hnever : ∀ v k, μ (n + k) ≠ v := by
    intro v
    induction v using Nat.strong_induction_on with
    | _ v ih =>
      rintro k rfl
      obtain ⟨m, hm, hhelp⟩ := hfair (n + k) fun m hm => (hstands m (Nat.le_of_add_right_le hm)).1
      obtain ⟨l, rfl⟩ := Nat.exists_eq_add_of_le (Nat.le_of_add_right_le hm)
      obtain ⟨hH, hL⟩ := hstands (n + l) (Nat.le_add_right n l)
      obtain ⟨-, -, hlt⟩ := hstep _ hH hL
      have hle : μ (n + l) ≤ μ (n + k) := hdown (Nat.le_of_add_le_add_left hm)
      exact ih _ ((hlt hhelp).trans_le hle) (l + 1) rfl
  exact hnever _ 0 rfl

/-! Runs from a state of the invariant. -/

theorem Inv.giveTurn {s : State} (h : Inv s) (a : Agent) : Inv (giveTurn a s) :=
  h.same_insts rfl rfl rfl h.faults h.stopped

theorem inv_of_runOn {sched : Nat → Agent} {r : Nat → State} (hrun : RunOn sched r) (h : Inv (r 0)) (n : Nat) :
    Inv (r n) := by
  induction n with
  | zero => exact h
  | succ n ih => exact (ih.giveTurn _).step (hrun n)

/-- Turn `n` of a run while a SHOW of `i` is under way. The schedule the model holds is used up. -/
theorem showTurn_of_runOn {sched : Nat → Agent} {r : Nat → State} {i : InstNo} {ph : Phase} {c : Inst} {n : Nat}
    (hrun : RunOn sched r) (h : Inv (r n)) (hcur : (r n).cur = showAt i ph) (hc : (r n).inst? i = some c) :
    ShowTurn i ph c { r n with sched := [] } (sched n) (r (n + 1)) :=
  (h.giveTurn _).showTurn_of_step hcur hc (hrun n)

/-- The number of periods that are left to a SHOW of `i`. -/
def entriesLeft (i : InstNo) (s : State) : Nat :=
  match s.inst? i with
  | some c => c.xfCnt
  | none => 0

theorem entriesLeft_of_inst? {i : InstNo} {s : State} {c : Inst} (hc : s.inst? i = some c) :
    entriesLeft i s = c.xfCnt := by
  rw [entriesLeft, hc]

theorem hostEnabled_of_show {i : InstNo} {ph : Phase} {c : Inst} {s : State} (h : Inv s) (hcur : s.cur = showAt i ph)
    (hc : s.inst? i = some c) :
    hostEnabled s = currentEnabled { inst := i, opcode := .showFrame, phase := some ph } c s := by
  have hk : s.cur = some { inst := i, opcode := .showFrame, phase := some ph } := hcur
  simp only [hostEnabled, h.faults_of_show hcur, hk, hc, List.isEmpty_nil, Bool.true_and]

/-! The two holds, turn by turn. -/

/-- While WAIT_RESET holds only time passes. -/
theorem ShowTurn.held_waitReset {a : Agent} {i : InstNo} {c : Inst} {s t : State} (h : ShowTurn i .waitReset c s a t)
    (hp : ParamsFacts s.params) (hno : s.canShowFn c = false) :
    t.cur = s.cur ∧ t.inst? i = s.inst? i ∧ lack t c ≤ lack s c ∧ (a = .timeSource → lack t c < lack s c) := by
  cases h with
  | host hphase =>
    rw [phaseStep, stepWaitReset, hno] at hphase
    cases hphase
    exact ⟨rfl, rfl, le_rfl, nofun⟩
  | period hph => cases hph
  | tick =>
    have hpos : lack s c ≠ 0 := fun hzero => by simp [(canShowFn_iff_lack s c).2 hzero] at hno
    have htick := lack_add hp c (Nat.one_le_iff_ne_zero.2 hpos)
    exact ⟨rfl, rfl, htick.trans_le (Nat.sub_le _ _), fun _ => htick.trans_lt (by omega)⟩
  | pass => exact ⟨rfl, rfl, le_rfl, nofun⟩

/-- While WAIT_DONE holds a turn of its generator is a period, and no other turn touches the transmission. -/
theorem ShowTurn.held_waitDone {a : Agent} {i : InstNo} {c : Inst} {s t : State} (h : ShowTurn i .waitDone c s a t)
    (hc : s.inst? i = some c) (hno : c.xfTc = false) :
    t.cur = s.cur ∧ ((a = .timingGenerator i ∧ ∃ d, PeriodOf s.params c d ∧ t.inst? i = some d) ∨
      (a ≠ .timingGenerator i ∧ t.inst? i = s.inst? i)) := by
  cases h with
  | host hphase =>
    rcases stepWaitDone_next hphase with ⟨-, rfl⟩ | ⟨hyes, -⟩
    · exact ⟨rfl, .inr ⟨nofun, rfl⟩⟩
    · cases hno.symm.trans hyes
  | period _ hperiod => exact ⟨rfl, .inl ⟨rfl, _, hperiod, State.inst?_setInst_self s i _ c hc⟩⟩
  | tick => exact ⟨rfl, .inr ⟨nofun, rfl⟩⟩
  | pass hother => exact ⟨rfl, .inr ⟨fun ha => hother (Agent.timingGenerator.inj ha) rfl, rfl⟩⟩

/-- A transmission whose flag is down has an entry left. -/
theorem TransmittingOk.count_pos {p : Params} {c : Inst} (h : TransmittingOk p c) (hno : c.xfTc = false) :
    0 < c.xfCnt := by
  obtain ⟨-, -, -, -, -, -, -, hflag, -⟩ := h
  refine Nat.pos_of_ne_zero fun hzero => ?_
  cases hno.symm.trans (hflag.2 hzero)

/-- The ticks the reset wait of `i` still lacks. -/
def ticksLeft (i : InstNo) (s : State) : Nat :=
  match s.inst? i with
  | some c => lack s c
  | none => 0

theorem ticksLeft_of_inst? {i : InstNo} {s : State} {c : Inst} (hc : s.inst? i = some c) :
    ticksLeft i s = lack s c := by
  rw [ticksLeft, hc]

/-- The phases of a SHOW after this one. -/
def phasesAfter : Phase → Nat
  | .waitReset => 3
  | .encode => 2
  | .arm => 1
  | .waitDone => 0

/-- The phases that are left to the SHOW under way. -/
def phasesLeft (cur : Option Cur) : Nat :=
  match cur.bind Cur.phase with
  | some ph => phasesAfter ph
  | none => 0

theorem phasesLeft_of_show {cur : Option Cur} {i : InstNo} {ph : Phase} (h : cur = showAt i ph) :
    phasesLeft cur = phasesAfter ph := by
  rw [h]
  rfl

/-- A SHOW of `i` has ended. -/
def ShowOver (i : InstNo) (s : State) : Prop := s.cur = none ∧ ∃ c, s.inst? i = some c ∧ c.state = .idle

/-- The host's step of a phase, where it is enabled, ends the SHOW or takes it to the next phase; where it is not, the
turn passes. -/
theorem phaseStep_progress {ph : Phase} {i : InstNo} {c : Inst} {s t : State} (hcur : s.cur = showAt i ph)
    (hc : s.inst? i = some c) (h : phaseStep ph i c s = .next t) :
    ShowOver i t ∨ ∃ ph', t.cur = showAt i ph' ∧ phasesAfter ph' ≤ phasesAfter ph ∧
      (currentEnabled { inst := i, opcode := .showFrame, phase := some ph } c s = true →
        phasesAfter ph' < phasesAfter ph) := by
  cases ph with
  | waitReset =>
    rw [phaseStep, stepWaitReset] at h
    split at h
    · cases h
      exact .inr ⟨.encode, rfl, by decide, fun _ => by decide⟩
    · next hno =>
      cases h
      exact .inr ⟨.waitReset, hcur, le_rfl, fun hyes => absurd hyes hno⟩
  | encode =>
    rw [phaseStep, stepEncode] at h
    split at h
    · cases h
      exact .inr ⟨.arm, rfl, by decide, fun _ => by decide⟩
    · cases h
  | arm =>
    cases h
    exact .inr ⟨.waitDone, rfl, by decide, fun _ => by decide⟩
  | waitDone =>
    rcases stepWaitDone_next h with ⟨hno, rfl⟩ | ⟨-, rfl⟩
    · exact .inr ⟨.waitDone, hcur, le_rfl, fun hyes => by cases hno.symm.trans hyes⟩
    · exact .inl ⟨rfl, _, State.inst?_setInst_self s i _ c hc, rfl⟩

/-- Every turn ends the SHOW or leaves it with no more phases than before, and fewer if the host's step was enabled. -/
theorem ShowTurn.progress {a : Agent} {ph : Phase} {i : InstNo} {c : Inst} {s t : State} (h : ShowTurn i ph c s a t)
    (hcur : s.cur = showAt i ph) (hc : s.inst? i = some c) :
    ShowOver i t ∨ ∃ ph', t.cur = showAt i ph' ∧ phasesAfter ph' ≤ phasesAfter ph ∧
      (a = .host → currentEnabled { inst := i, opcode := .showFrame, phase := some ph } c s = true →
        phasesAfter ph' < phasesAfter ph) := by
  cases h with
  | host hphase =>
    rcases phaseStep_progress hcur hc hphase with hover | ⟨ph', hnext, hle, hlt⟩
    · exact .inl hover
    · exact .inr ⟨ph', hnext, hle, fun _ => hlt⟩
  | period => exact .inr ⟨ph, hcur, le_rfl, nofun⟩
  | tick => exact .inr ⟨ph, hcur, le_rfl, nofun⟩
  | pass => exact .inr ⟨ph, hcur, le_rfl, nofun⟩

section Fair

variable {sched : Nat → Agent} {r : Nat → State}

/-- The time source's turns lift a WAIT_RESET hold. -/
theorem exists_waitReset_lifted (hinv : Inv (r 0)) (hrun : RunOn sched r) (hfair : WeaklyFair sched r) {n : Nat}
    {i : InstNo} (hcur : (r n).cur = showAt i .waitReset) :
    ∃ m, n ≤ m ∧ (r m).cur = showAt i .waitReset ∧ hostEnabled (r m) = true := by
  refine exists_lifted (helpful := fun m => sched m = .timeSource) (μ := fun m => ticksLeft i (r m))
    (fun m hm hno => ?_) (fun n _ => hfair.2 n) hcur
  have h := inv_of_runOn hrun hinv m
  obtain ⟨c, hc, -⟩ := h.exists_inst_of_show hm
  rw [hostEnabled_of_show h hm hc, Bool.not_eq_true] at hno
  have hp := paramsFacts_of_configOk h.config
  obtain ⟨hstay, hinst, hle, hlt⟩ := (showTurn_of_runOn hrun h hm hc).held_waitReset hp hno
  simp only [ticksLeft_of_inst? hc, ticksLeft_of_inst? (hinst.trans hc)]
  exact ⟨hstay.trans hm, hle, hlt⟩

/-- The generator's turns lift a WAIT_DONE hold. -/
theorem exists_waitDone_lifted (hinv : Inv (r 0)) (hrun : RunOn sched r) (hfair : WeaklyFair sched r) {n : Nat}
    {i : InstNo} (hcur : (r n).cur = showAt i .waitDone) :
    ∃ m, n ≤ m ∧ (r m).cur = showAt i .waitDone ∧ hostEnabled (r m) = true := by
  refine exists_lifted (helpful := fun m => sched m = .timingGenerator i) (μ := fun m => entriesLeft i (r m))
    (fun m hm hno => ?_) (fun n hstands => hfair.1 i n fun m hm => ?_) hcur
  · have h := inv_of_runOn hrun hinv m
    obtain ⟨c, hc, hinst⟩ := h.exists_inst_of_show hm
    rw [hostEnabled_of_show h hm hc, Bool.not_eq_true] at hno
    have hpos := TransmittingOk.count_pos hinst.phase hno
    obtain ⟨hstay, ⟨-, d, hperiod, hd⟩ | ⟨hother, hsame⟩⟩ := (showTurn_of_runOn hrun h hm hc).held_waitDone hc hno
    · have hcount := hperiod.count
      simp only [entriesLeft_of_inst? hc, entriesLeft_of_inst? hd]
      exact ⟨hstay.trans hm, by omega, fun _ => by omega⟩
    · simp only [entriesLeft_of_inst? hc, entriesLeft_of_inst? (hsame.trans hc)]
      exact ⟨hstay.trans hm, le_rfl, fun ha => absurd ha hother⟩
  · obtain ⟨c, hc, hinst⟩ := (inv_of_runOn hrun hinv m).exists_inst_of_show (hstands m hm)
    obtain ⟨-, -, hon, -⟩ := hinst.phase
    rw [generatorEnabled, hc]
    exact hon

theorem not_hangs (hinv : Inv (r 0)) (hrun : RunOn sched r) (hfair : WeaklyFair sched r) : ¬ Hangs r := by
  rintro ⟨n, hn⟩
  obtain ⟨hcur, hno⟩ := hn n le_rfl
  have h := inv_of_runOn hrun hinv n
  obtain ⟨k, hk⟩ := Option.ne_none_iff_exists'.1 hcur
  obtain ⟨ph, hshow⟩ := h.exists_show hk
  obtain ⟨c, hc, -⟩ := h.exists_inst_of_show hshow
  have hnever : ∀ m, n ≤ m → hostEnabled (r m) ≠ true := fun m hm hyes => by cases (hn m hm).2.symm.trans hyes
  cases ph with
  | waitReset =>
    obtain ⟨m, hm, -, hyes⟩ := exists_waitReset_lifted hinv hrun hfair hshow
    exact hnever m hm hyes
  | encode => exact hnever n le_rfl (hostEnabled_of_show h hshow hc)
  | arm => exact hnever n le_rfl (hostEnabled_of_show h hshow hc)
  | waitDone =>
    obtain ⟨m, hm, -, hyes⟩ := exists_waitDone_lifted hinv hrun hfair hshow
    exact hnever m hm hyes

/-- While a SHOW never ends the host is enabled again and again, so a fair host takes an enabled step. -/
theorem exists_host_step (hinv : Inv (r 0)) (hrun : RunOn sched r) (hfair : WeaklyFair sched r)
    (hhost : HostFair sched r) {n : Nat} (hshow : ∀ m, n ≤ m → (r m).cur ≠ none) :
    ∃ m, n ≤ m ∧ sched m = .host ∧ hostEnabled (r m) = true := by
  refine hhost (fun k => ?_) n
  by_contra hno
  refine not_hangs hinv hrun hfair ⟨max k n, fun m hm => ⟨hshow m (le_of_max_le_right hm), ?_⟩⟩
  rw [← Bool.not_eq_true]
  exact fun hyes => hno ⟨m, le_of_max_le_left hm, hyes⟩

theorem exists_showOver (hinv : Inv (r 0)) (hrun : RunOn sched r) (hfair : WeaklyFair sched r)
    (hhost : HostFair sched r) {n : Nat} {i : InstNo} {ph : Phase} (hcur : (r n).cur = showAt i ph) :
    ∃ m, n ≤ m ∧ ShowOver i (r m) := by
  obtain ⟨m, hm, -, hover⟩ : ∃ m, n ≤ m ∧ (∃ ph, (r m).cur = showAt i ph) ∧ ShowOver i (r (m + 1)) := by
    refine exists_lifted (helpful := fun m => sched m = .host ∧ hostEnabled (r m) = true)
      (μ := fun m => phasesLeft (r m).cur) (fun m hm hno => ?_) (fun n hstands => ?_) ⟨ph, hcur⟩
    · obtain ⟨ph, hm⟩ := hm
      have h := inv_of_runOn hrun hinv m
      obtain ⟨c, hc, -⟩ := h.exists_inst_of_show hm
      rw [hostEnabled_of_show h hm hc]
      obtain ⟨ph', hnext, hle, hlt⟩ := ((showTurn_of_runOn hrun h hm hc).progress hm hc).resolve_left hno
      rw [phasesLeft_of_show hm, phasesLeft_of_show hnext]
      exact ⟨⟨ph', hnext⟩, hle, fun hhelp => hlt hhelp.1 hhelp.2⟩
    · refine exists_host_step hinv hrun hfair hhost fun m hm hnone => ?_
      obtain ⟨ph, hshow⟩ := hstands m hm
      cases hnone.symm.trans hshow
  exact ⟨m + 1, Nat.le_succ_of_le hm, hover⟩

end Fair

/-- Without a turn of its generator a transmission stands as it is (R211). -/
theorem waitDone_stands {sched : Nat → Agent} {r : Nat → State} {i : InstNo} {c : Inst} (hinv : Inv (r 0))
    (hrun : RunOn sched r) (hcur : (r 0).cur = showAt i .waitDone) (hc : (r 0).inst? i = some c) (hno : c.xfTc = false)
    (hnever : ∀ n, sched n ≠ .timingGenerator i) (n : Nat) :
    (r n).cur = showAt i .waitDone ∧ (r n).inst? i = some c := by
  induction n with
  | zero => exact ⟨hcur, hc⟩
  | succ n ih =>
    obtain ⟨hcurn, hcn⟩ := ih
    have hturn := showTurn_of_runOn hrun (inv_of_runOn hrun hinv n) hcurn hcn
    obtain ⟨hstay, ⟨ha, -⟩ | ⟨-, hsame⟩⟩ := hturn.held_waitDone hcn hno
    · exact absurd ha (hnever n)
    · exact ⟨hstay.trans hcurn, hsame.trans hcn⟩

/-- Settles O60: the holds are lifted by the fair agents' turns, a SHOW whose holds are lifted ends with a fair host,
and a transmission that stands as it is keeps its flag down. -/
theorem fairSchedulesEndEveryShow : Obligations.FairSchedulesEndEveryShow := by
  refine ⟨fun sched r hinv hrun hfair => ⟨fun n i hcur => ?_, fun n i hcur => ?_, not_hangs hinv hrun hfair,
    fun hhost n i ph hcur => ?_⟩, fun sched r i c hinv hrun hcur hc hno hnever => ?_⟩
  · obtain ⟨m, hm, hstay, hyes⟩ := exists_waitReset_lifted hinv hrun hfair hcur
    have h := inv_of_runOn hrun hinv m
    obtain ⟨c, hc, -⟩ := h.exists_inst_of_show hstay
    rw [hostEnabled_of_show h hstay hc] at hyes
    exact ⟨m, c, hm, hstay, hc, hyes⟩
  · obtain ⟨m, hm, hstay, hyes⟩ := exists_waitDone_lifted hinv hrun hfair hcur
    have h := inv_of_runOn hrun hinv m
    obtain ⟨c, hc, hinst⟩ := h.exists_inst_of_show hstay
    rw [hostEnabled_of_show h hstay hc] at hyes
    obtain ⟨-, hidx⟩ := TransmittingOk.index_of_flag hinst.phase hyes
    exact ⟨m, c, hm, hstay, hc, hyes, hidx⟩
  · obtain ⟨m, hm, hnone, c, hc, hidle⟩ := exists_showOver hinv hrun hfair hhost hcur
    exact ⟨m, c, hm, hnone, hc, hidle⟩
  · refine ⟨0, fun m _ => ?_⟩
    obtain ⟨hstay, hcm⟩ := waitDone_stands hinv hrun hcur hc hno hnever m
    refine ⟨fun hnone => (by cases hnone.symm.trans hstay), ?_⟩
    rw [hostEnabled_of_show (inv_of_runOn hrun hinv m) hstay hcm]
    exact hno

end Sys2Proof.Safety

/-! PROOF. O15, O17, O24, O25, O43: the pixel port (40_pixelstore R131 to R142, 30_encoding
R109) and the reads that find no byte and no entry (logs 14, 15). -/

namespace Sys2Proof.Machine

/-- What `setPixel` leaves: in range each channel of the order at its offset and no byte elsewhere, out of range nothing
(R131, R142). -/
def WritesOnePixel (c : Inst) (index : Index) (value : Channel → Byte) (m : Memory) : Prop :=
  (index.toNat < c.cfg.ledCount →
    (∀ ch k, off c.cfg.colorOrder ch = some k →
      m.read (index.toNat * channels c.cfg.colorOrder + k) = some (value ch)) ∧
    (∀ a, ¬ (index.toNat * channels c.cfg.colorOrder ≤ a ∧
        a < index.toNat * channels c.cfg.colorOrder + channels c.cfg.colorOrder) → m.read a = c.pix.read a)) ∧
  (c.cfg.ledCount ≤ index.toNat → m = c.pix)

theorem setPixel_writesOnePixel (c : Inst) (index : Index) (r g b w : Byte) :
    WritesOnePixel c index (channelValue r g b w) (c.setPixel index r g b w) := by
  refine ⟨fun hlt => ?_, fun hle => Inst.setPixel_of_le hle r g b w⟩
  rw [Inst.setPixel_of_lt hlt]
  exact ⟨read_writePixel_channel c.cfg.colorOrder index.toNat r g b w c.pix,
    read_writePixel_outside c.cfg.colorOrder index.toNat r g b w c.pix⟩

/-- Settles O15: the command's memory is `setPixel` with white 0. -/
theorem setPixelRgbWritesOnePixel : Obligations.SetPixelRgbWritesOnePixel :=
  fun _ _ c index r g b hc hi hs => ⟨_, pixelWrite_of_pass hc hi hs, setPixel_writesOnePixel c index r g b 0⟩

/-- Settles O17: the command's memory is `setPixel` of the fields of the Color. -/
theorem setPixelColorWritesOnePixel : Obligations.SetPixelColorWritesOnePixel :=
  fun _ _ c index color hc hi hs => ⟨_, pixelWrite_of_pass hc hi hs,
    setPixel_writesOnePixel c index (Color.red color) (Color.green color) (Color.blue color) (Color.white color)⟩

/-- GET_PIXEL_COLOR after a command that wrote the pixel (R140). -/
theorem execGetPixelColor_setPixel {s : State} {i : InstNo} {c : Inst} {index : Index} {r g b w : Byte}
    (hc : s.inst? i = some c) (hi : c.init = .ready) (hlt : index.toNat < c.cfg.ledCount) :
    execGetPixelColor i index ((s.setInst i { c with pix := c.setPixel index r g b w }).ret .unit) =
      .next (((s.setInst i { c with pix := c.setPixel index r g b w }).ret .unit).ret
        (.color (Color.pack r g b (if channels c.cfg.colorOrder = 4 then w else 0)))) := by
  refine execGetPixelColor_of_lt (c := { c with pix := c.setPixel index r g b w })
    (State.inst?_setInst_self s i _ c hc) hi hlt ?_
  rw [Inst.setPixel_of_lt hlt]
  exact readPixel_writePixel _ _ _ _ _ _ _

/-- The mask keeps the three low bytes of a Color. -/
theorem Color.and_rgb (color : Color) :
    Color.pack (Color.red color) (Color.green color) (Color.blue color) 0 = color &&& 0x00FFFFFF := by
  have hmask : (0x00FFFFFF : Color) = Color.pack 0xFF 0xFF 0xFF 0 := by decide
  have hones : ∀ x : Byte, x &&& 0xFF = x := fun x => BitVec.and_allOnes
  have hzero : ∀ x : Byte, x &&& 0 = 0 := fun x => BitVec.and_zero
  conv_rhs => rw [hmask, ← Color.pack_fields color, Color.pack_and_pack, hones, hones, hones, hzero]

/-- Settles O24: reading the pixel back gives the bytes written, white where the order has it. -/
theorem pixelRoundTrip : Obligations.PixelRoundTrip := by
  intro s i c index hc hi hs hlt
  refine ⟨fun r g b => ⟨_, pixelWrite_of_pass hc hi hs, ?_⟩, fun color => ⟨_, pixelWrite_of_pass hc hi hs, ?_⟩⟩
  · refine (execGetPixelColor_setPixel hc hi hlt).trans ?_
    rw [ite_self]
    rfl
  · refine (execGetPixelColor_setPixel hc hi hlt).trans ?_
    rcases channels_eq c.cfg.colorOrder with h | h
    · rw [h, if_neg (by decide), if_neg (by decide), Color.and_rgb]
      rfl
    · rw [h, if_pos rfl, if_pos rfl, Color.pack_fields]
      rfl

/-- The range from 0 with `N` pixels is the whole store (R109). -/
theorem rangeEnd_all {n : Nat} (h : n ≤ 65535) : rangeEnd 0 (BitVec.ofNat 16 n) n = n := by
  have hn : (BitVec.ofNat 16 n).toNat = n := by
    rw [BitVec.toNat_ofNat]
    exact Nat.mod_eq_of_lt (Nat.lt_succ_of_le h)
  rw [rangeEnd, hn]
  exact (congrArg (min · n) (Nat.zero_add n)).trans (Nat.min_self n)

/-- Zeroing every byte fills every pixel with the Color 0 (R109, R138). -/
theorem zeroBytes_eq_fillPixels {cfg : InstCfg} {m : Memory} (h : m.wf = true) :
    zeroBytes (pixBytes cfg) m = fillPixels cfg.colorOrder 0 cfg.ledCount 0 m := by
  refine Memory.ext_of_wf _ _ (wf_zeroBytes _ m h) (wf_fillPixels _ _ _ _ m h) fun a => ?_
  rw [read_zeroBytes]
  split
  · next ha =>
    have hpos := channels_pos cfg.colorOrder
    obtain ⟨ch, hch⟩ := off_surjective cfg.colorOrder (a % channels cfg.colorOrder) (Nat.mod_lt a hpos)
    have hread := read_fillPixels_of_mem (0 : Color) m (Nat.zero_le _) (Nat.div_lt_of_lt_mul (by
      rwa [Nat.mul_comm])) hch
    rw [Nat.div_add_mod'] at hread
    rw [hread]
    cases ch <;> rfl
  · next ha =>
    exact (read_fillPixels_of_not_mem 0 m fun hin =>
      Nat.not_lt.2 (ledCount_le_div_channels (Nat.le_of_not_lt ha)) hin.2).symm

/-- Settles O25: the commands of each pair write the same memory. -/
theorem pseudoCommandsAreEquivalent : Obligations.PseudoCommandsAreEquivalent := by
  intro s i c hc hi hs
  have hwrite : ∀ {op op' : Opcode} {f f' : Inst → Memory}, requiredInit op = .ready → requiredInit op' = .ready →
      f c = f' c → pixelWrite op i f s = pixelWrite op' i f' s := fun hop hop' hf => by
    rw [pixelWrite_of_pass hc (hi.trans hop.symm) hs, pixelWrite_of_pass hc (hi.trans hop'.symm) hs, hf]
  refine ⟨fun color hn => hwrite rfl rfl ?_, fun hwf => hwrite rfl rfl ?_, fun index r g b w =>
    ⟨hwrite rfl rfl ?_, hwrite rfl rfl ?_⟩⟩
  · rw [rangeEnd_all hn]
    rfl
  · exact zeroBytes_eq_fillPixels hwf
  · rw [Color.red_pack, Color.green_pack, Color.blue_pack, Color.white_pack]
  · rw [Color.red_pack, Color.green_pack, Color.blue_pack, Color.white_pack]

theorem readPixel_eq_none {o : ColorOrder} {q k : Nat} {m : Memory} {ch : Channel} (hk : off o ch = some k)
    (h : m.read (q * channels o + k) = none) : readPixel o q m = none := by
  cases hcolor : readPixel o q m with
  | none => rfl
  | some color => cases h.symm.trans (read_of_readPixel hcolor ch k hk)

theorem encodeStream_eq_none {p : Params} {cfg : InstCfg} {q k : Nat} {m : Memory} {br : Byte} {ch : Channel}
    (hq : q < cfg.ledCount) (hk : off cfg.colorOrder ch = some k)
    (h : m.read (q * channels cfg.colorOrder + k) = none) : encodeStream p cfg m br = none := by
  have hmem : q * channels cfg.colorOrder + k ∈ wireAddresses cfg :=
    List.mem_flatMap.2 ⟨q, List.mem_range.2 hq, List.mem_map_of_mem (mem_woff_of_off hk)⟩
  rw [encodeStream, Memory.readAll_eq_none_of_mem hmem h, Option.map_none]

theorem Inst.transfer_of_no_entry {i : InstNo} {c : Inst} (hreq : c.tgDreq = true) (hen : c.xfEn = true)
    (h : c.stream.length ≤ c.xfIdx) : c.transfer i = .error (.noStreamEntry i) := by
  simp only [Inst.transfer, hreq, hen, List.getElem?_eq_none h, Bool.and_true, if_true]

theorem Inst.transfer_of_no_count {i : InstNo} {c : Inst} (hreq : c.tgDreq = true) (hen : c.xfEn = true)
    (h : c.xfIdx < c.stream.length) (hcnt : c.xfCnt = 0) : c.transfer i = .error (.transferCountZero i) := by
  simp only [Inst.transfer, hreq, hen, List.getElem?_eq_getElem h, hcnt, Bool.and_true, if_true]

theorem step_of_transfer_error {s : State} {i : InstNo} {c : Inst} {f : Fault} (h : Safety.Running s)
    (hagent : s.nextAgent = .timingGenerator i) (hc : s.inst? i = some c) (hrun : c.tgRun = true)
    (ht : c.transfer i = .error f) : step s = .fault f := by
  rw [step_of_generator h hagent]
  simp only [tgPeriod, (s.inst?_takeTurn i).trans hc, hrun, ht, if_true]

/-- Settles O43: a missing byte leaves the pixel without a Color and the store without an encode; a transfer looks for
its entry first and then at the count. -/
theorem readsOfWhatIsNotThereStop : Obligations.ReadsOfWhatIsNotThereStop := by
  refine ⟨fun s i c index ch k hc hi hlt hk hnone => ?_, fun s i c q k ch hturn hc hcur hq hk hnone => ?_,
    fun s i c hrunning hagent hc hrun hreq hen => ⟨fun hidx => ?_, fun hidx hcnt => ?_⟩⟩
  · change execGetPixelColor i index s = _
    rw [execGetPixelColor, State.guarded_of_pass (op := .getPixelColor) hc hi nofun, if_pos hlt,
      readPixel_eq_none hk hnone]
  · rw [step_of_phase hturn hc hcur, phaseStep, stepEncode, encodeStream_eq_none hq hk hnone]
  · exact step_of_transfer_error hrunning hagent hc hrun (Inst.transfer_of_no_entry hreq hen hidx)
  · exact step_of_transfer_error hrunning hagent hc hrun (Inst.transfer_of_no_count hreq hen hidx hcnt)

end Sys2Proof.Machine

/-! PROOF. O45, O51: a step writes one instance at most (10_state R57), and leaves every pixel memory in canonical form
(log 5). Both are followed through what a step can do to `insts`. -/

namespace Sys2Proof.Machine

/-- `t` has the instances of `s`, but for one written at number `i`. -/
def State.WritesOnly (i : InstNo) (s t : State) : Prop := t.insts = s.insts ∨ ∃ c', t.insts = s.insts.set i.toNat c'

theorem State.WritesOnly.inst?_eq {i j : InstNo} {s t : State} (h : s.WritesOnly i t) (hj : j ≠ i) :
    t.inst? j = s.inst? j := by
  rcases h with h | ⟨c', h⟩
  · rw [State.inst?, h, State.inst?]
  · rw [← State.inst?_setInst_of_ne s c' hj, State.inst?, h, State.inst?, State.setInst_insts]

/-- The effect of each command that passed its checks. -/
theorem CommandEffect.writesOnly {i : Instr} {c : Inst} {s t : State} (h : CommandEffect i c s t) :
    s.WritesOnly i.inst t := by
  cases i with
  | beginCtl =>
    obtain ⟨-, rfl⟩ := h
    split
    · exact .inr ⟨_, rfl⟩
    · exact .inl rfl
  | endCtl | setPixelRgb | setPixelRgbw | setPixelColor | fill | fillRange | clear | setBrightness =>
    obtain ⟨-, -, rfl⟩ := h
    exact .inr ⟨_, rfl⟩
  | getPixelColor =>
    obtain ⟨-, color, rfl, -, -⟩ := h
    exact .inl rfl
  | showFrame =>
    obtain ⟨-, -, rfl⟩ := h
    exact .inl rfl
  | getCount | canShow | isBusy =>
    obtain ⟨-, rfl⟩ := h
    exact .inl rfl
  | wait j =>
    obtain ⟨-, rfl⟩ := h
    exact .inl (waitOn_insts j c s)

theorem exec_writesOnly {i : Instr} {s t : State} (h : exec i s = .next t) : s.WritesOnly i.inst t := by
  rcases exec_next h with ⟨rfl, -⟩ | ⟨r, rfl⟩ | ⟨c, -, he⟩
  · exact .inl rfl
  · exact .inl rfl
  · exact he.writesOnly

theorem continueCurrent_writesOnly {k : Cur} {s t : State} (h : continueCurrent k s = .next t) :
    s.WritesOnly k.inst t := by
  rcases continueCurrent_next h with rfl | ⟨c, -, hphase⟩
  · exact .inl rfl
  · rcases hphase with ⟨-, -, -, rfl⟩ | ⟨-, -, entries, -, rfl⟩ | ⟨-, -, rfl⟩ | ⟨-, -, -, rfl⟩ | ⟨-, rfl⟩
    · exact .inr ⟨_, rfl⟩
    · exact .inr ⟨_, rfl⟩
    · exact .inr ⟨_, rfl⟩
    · exact .inr ⟨_, rfl⟩
    · exact .inl (waitOn_insts k.inst c s)

theorem hostTurn_writesOnly {k : Cur} {s t : State} (hk : s.cur = some k) (h : hostTurn s = .next t) :
    s.WritesOnly k.inst t := by
  rcases hostTurn_next h with rfl | ⟨-, k', hk', hcontinue⟩ | ⟨-, hnone, -⟩
  · exact .inl rfl
  · cases hk.symm.trans hk'
    exact continueCurrent_writesOnly hcontinue
  · cases hnone.symm.trans hk

theorem tgPeriod_writesOnly {i : InstNo} {s t : State} (h : tgPeriod i s = .next t) : s.WritesOnly i t := by
  rcases tgPeriod_next h with rfl | ⟨c, c', -, -, -, rfl⟩
  · exact .inl rfl
  · exact .inr ⟨_, rfl⟩

/-- A step in which the agent `a` has the turn writes what the turn of `a` writes; a refusal writes no instance. -/
theorem step_writesOnly {a : Agent} {i : InstNo} {s t : State} (h : step s = .next t) (ha : s.nextAgent = a)
    (hturn : agentTurn a s.takeTurn = .next t → s.takeTurn.WritesOnly i t) : s.WritesOnly i t := by
  obtain ⟨-, ⟨-, rfl⟩ | ⟨-, hnext⟩⟩ := step_next h
  · exact .inl rfl
  · rw [ha] at hnext
    have hwrites := hturn hnext
    rwa [State.WritesOnly, s.takeTurn_insts] at hwrites

/-- Settles O45: each of these writes at most the instance it names. -/
theorem otherInstancesAreUntouched : Obligations.OtherInstancesAreUntouched := by
  refine ⟨fun i s t j h hj => (exec_writesOnly h).inst?_eq hj, fun s t k j h ha hk hj => ?_, fun s t i j h ha hj => ?_,
    fun s t h ha => ?_⟩
  · exact (step_writesOnly h ha (hostTurn_writesOnly (s.takeTurn_cur.trans hk))).inst?_eq hj
  · exact (step_writesOnly h ha tgPeriod_writesOnly).inst?_eq hj
  · obtain ⟨-, ⟨-, rfl⟩ | ⟨-, hnext⟩⟩ := step_next h
    · rfl
    · rw [ha] at hnext
      cases hnext
      exact s.takeTurn_insts

end Sys2Proof.Machine

namespace Sys2Proof.Safety

open Sys2Proof.Machine

theorem MemoriesWf.of_insts_eq {s t : State} (h : MemoriesWf s) (hi : t.insts = s.insts) : MemoriesWf t :=
  fun c hc => h c (hi ▸ hc)

/-- Replacing one instance by one whose memory is canonical if the old one's was. -/
theorem MemoriesWf.of_insts_set {s t : State} {i : InstNo} {c c' : Inst} (h : MemoriesWf s) (hc : s.inst? i = some c)
    (hi : t.insts = s.insts.set i.toNat c') (hwf : c.pix.wf = true → c'.pix.wf = true) : MemoriesWf t := by
  intro d hd
  rw [hi] at hd
  rcases List.mem_or_eq_of_mem_set hd with hmem | rfl
  · exact h d hmem
  · exact hwf (h c (List.mem_of_getElem? hc))

/-- The effect of each command that passed its checks. -/
theorem MemoriesWf.commandEffect {i : Instr} {c : Inst} {s t : State} (h : MemoriesWf s) (hc : s.inst? i.inst = some c)
    (he : CommandEffect i c s t) : MemoriesWf t := by
  cases i with
  | beginCtl =>
    obtain ⟨-, rfl⟩ := he
    split
    · exact h.of_insts_set hc rfl fun _ => Memory.wf_of_keys_range _ _ (drawnPixels_keys s.draws c.cfg)
    · exact h.of_insts_eq rfl
  | endCtl =>
    obtain ⟨-, -, rfl⟩ := he
    exact h.of_insts_set hc rfl fun _ => rfl
  | setPixelRgb | setPixelRgbw | setPixelColor =>
    obtain ⟨-, -, rfl⟩ := he
    exact h.of_insts_set hc rfl (wf_setPixel c _ _ _ _ _)
  | fill | fillRange =>
    obtain ⟨-, -, rfl⟩ := he
    exact h.of_insts_set hc rfl (wf_fillPixels _ _ _ _ c.pix)
  | clear =>
    obtain ⟨-, -, rfl⟩ := he
    exact h.of_insts_set hc rfl (wf_zeroBytes _ c.pix)
  | setBrightness =>
    obtain ⟨-, -, rfl⟩ := he
    exact h.of_insts_set hc rfl id
  | getPixelColor =>
    obtain ⟨-, color, rfl, -, -⟩ := he
    exact h.of_insts_eq rfl
  | showFrame =>
    obtain ⟨-, -, rfl⟩ := he
    exact h.of_insts_eq rfl
  | getCount | canShow | isBusy =>
    obtain ⟨-, rfl⟩ := he
    exact h.of_insts_eq rfl
  | wait j =>
    obtain ⟨-, rfl⟩ := he
    exact h.of_insts_eq (waitOn_insts j c s)

theorem MemoriesWf.exec {i : Instr} {s t : State} (h : MemoriesWf s) (he : Machine.exec i s = .next t) :
    MemoriesWf t := by
  rcases exec_next he with ⟨rfl, -⟩ | ⟨r, rfl⟩ | ⟨c, hc, heffect⟩
  · exact h.of_insts_eq rfl
  · exact h.of_insts_eq rfl
  · exact h.commandEffect hc heffect

/-- No phase of SHOW writes a pixel memory (R171). -/
theorem MemoriesWf.continueCurrent {k : Cur} {s t : State} (h : MemoriesWf s)
    (he : Machine.continueCurrent k s = .next t) : MemoriesWf t := by
  rcases continueCurrent_next he with rfl | ⟨c, hc, hphase⟩
  · exact h
  · rcases hphase with ⟨-, -, -, rfl⟩ | ⟨-, -, entries, -, rfl⟩ | ⟨-, -, rfl⟩ | ⟨-, -, -, rfl⟩ | ⟨-, rfl⟩
    · exact h.of_insts_set hc rfl id
    · exact h.of_insts_set hc rfl id
    · exact h.of_insts_set hc rfl id
    · exact h.of_insts_set hc rfl id
    · exact h.of_insts_eq (waitOn_insts k.inst c s)

theorem MemoriesWf.hostTurn {s t : State} (h : MemoriesWf s) (he : Machine.hostTurn s = .next t) : MemoriesWf t := by
  rcases hostTurn_next he with rfl | ⟨-, k, -, hk⟩ | ⟨-, -, w, rest, -, ⟨i, -, hi⟩ | ⟨e, -, rfl⟩⟩
  · exact h
  · exact h.continueCurrent hk
  · exact MemoriesWf.exec (s := { s with program := rest }) h hi
  · exact h.of_insts_eq rfl

theorem MemoriesWf.tgPeriod {i : InstNo} {s t : State} (h : MemoriesWf s) (he : Machine.tgPeriod i s = .next t) :
    MemoriesWf t := by
  rcases tgPeriod_next he with rfl | ⟨c, c', hc, -, htransfer, rfl⟩
  · exact h
  · refine h.of_insts_set hc rfl fun hwf => ?_
    have hpix : c'.pix = c.pix := congrArg Prod.fst (Inst.transfer_pixelStore htransfer)
    rwa [Inst.produce_pix, hpix]

theorem MemoriesWf.agentTurn {a : Agent} {s t : State} (h : MemoriesWf s) (he : Machine.agentTurn a s = .next t) :
    MemoriesWf t := by
  cases a with
  | host => exact h.hostTurn he
  | timingGenerator i => exact h.tgPeriod he
  | timeSource =>
    cases he
    exact h.of_insts_eq rfl

/-- Settles O51: the pixel writers keep the canonical form, BEGIN and END write a memory that has it, and no other turn
writes one. -/
theorem everyStepKeepsMemoriesCanonical : Obligations.EveryStepKeepsMemoriesCanonical := by
  intro s t h hstep
  obtain ⟨-, ⟨-, rfl⟩ | ⟨-, hturn⟩⟩ := step_next hstep
  · exact h.of_insts_eq rfl
  · exact MemoriesWf.agentTurn (h.of_insts_eq s.takeTurn_insts) hturn

end Sys2Proof.Safety

/-! PROOF. O34, O35: IS_BUSY and WAIT (42_sequencer R200, R201). -/

namespace Sys2Proof.Machine

open Sys2Proof.Safety

theorem Inst.isBusy_of_idle {c : Inst} (h : c.state = .idle) : c.isBusy = false := by
  rw [Inst.isBusy, h]
  rfl

/-- Settles O34: `isBusy` is the comparison, and with no command under way every instance is Idle. -/
theorem isBusyReportsTransmitting : Obligations.IsBusyReportsTransmitting := by
  intro s i c hc hi
  have hexec : exec (.isBusy i) s = .next (s.ret (.bool c.isBusy)) := State.guarded_of_pass hc hi nofun
  refine ⟨hexec, fun hinv hcur => ?_⟩
  obtain ⟨hidle, -⟩ := hinv.idle_of_cur_none hc hcur
  rw [hexec, Inst.isBusy_of_idle hidle]
  rfl

/-- R201: the hold stands while the instance transmits. -/
theorem waitOn_eq (i : InstNo) (c : Inst) (s : State) : waitOn i c s =
    if c.state = .transmitting then { s with cur := some { inst := i, opcode := .wait, phase := none } }
    else s.ret .unit := by
  by_cases h : c.state = .transmitting <;> simp [waitOn, Inst.isBusy, h]

theorem continueCurrent_wait {s : State} {i : InstNo} {c : Inst} (hc : s.inst? i = some c) (ph : Option Phase) :
    continueCurrent { inst := i, opcode := .wait, phase := ph } s = .next (waitOn i c s) := by
  simp only [continueCurrent, hc]

/-- Settles O35: WAIT's issuing step and its later turns are one look at the instance, which under the invariant does
not transmit. -/
theorem waitHoldsWhileTransmitting : Obligations.WaitHoldsWhileTransmitting := by
  intro s i c hc
  have hexec : c.init = .ready → exec (.wait i) s = .next (waitOn i c s) := fun hi => State.guarded_of_pass hc hi nofun
  refine ⟨fun hi hs => ?_, fun hi hs => ?_, fun hturn hcur => ?_, fun hinv hcur hi => ?_⟩
  · rw [hexec hi, waitOn_eq, if_neg hs]
    rfl
  · rw [hexec hi, waitOn_eq, if_pos hs]
  · rw [step_of_cur hturn hcur, continueCurrent_wait ((s.inst?_takeTurn i).trans hc), waitOn_eq, ← hcur,
      ← s.takeTurn_cur]
    rfl
  · obtain ⟨hidle, -⟩ := hinv.idle_of_cur_none hc hcur
    rw [hexec hi, waitOn_of_idle hidle]
    rfl

end Sys2Proof.Machine

/-! PROOF. O12, O13: what a fault and a refusal do to a run (60_exceptions R233, R234). -/

namespace Sys2Proof.Machine

theorem State.mem_raise {s : State} {f g : FaultRecord} : g ∈ (s.raise f).faults ↔ g = f ∨ g ∈ s.faults := by
  rw [State.raise_faults]
  split
  · next hf => exact ⟨.inr, fun h => h.elim (fun e => e ▸ hf) id⟩
  · rw [List.mem_append, List.mem_singleton, or_comm]

/-- R233: with a fault held the host's turn passes. -/
theorem hostTurn_of_faults {s : State} (hf : s.faults ≠ []) : hostTurn s = .next s := by
  obtain ⟨f, rest, hcons⟩ := List.exists_cons_of_ne_nil hf
  simp only [hostTurn, hcons]

theorem exec_keeps_faults {i : Instr} {s t : State} (h : exec i s = .next t) : s.faults ⊆ t.faults := by
  rcases exec_next h with ⟨rfl, -⟩ | ⟨r, rfl⟩ | ⟨c, -, he⟩
  · exact List.Subset.refl _
  · exact fun _ hg => State.mem_raise.2 (.inr hg)
  · rw [he.sameStatus.faults]
    exact List.Subset.refl _

theorem continueCurrent_faults {k : Cur} {s t : State} (h : continueCurrent k s = .next t) : t.faults = s.faults := by
  rcases continueCurrent_next h with rfl | ⟨c, -, hphase⟩
  · rfl
  · rcases hphase with ⟨-, -, -, rfl⟩ | ⟨-, -, entries, -, rfl⟩ | ⟨-, -, rfl⟩ | ⟨-, -, -, rfl⟩ | ⟨-, rfl⟩
    · rfl
    · rfl
    · rfl
    · rfl
    · exact (waitOn_sameStatus k.inst c s).faults

theorem hostTurn_keeps_faults {s t : State} (h : hostTurn s = .next t) : s.faults ⊆ t.faults := by
  rcases hostTurn_next h with rfl | ⟨-, k, -, hk⟩ | ⟨-, -, w, rest, -, ⟨i, -, hi⟩ | ⟨e, -, rfl⟩⟩
  · exact List.Subset.refl _
  · rw [continueCurrent_faults hk]
    exact List.Subset.refl _
  · exact exec_keeps_faults (s := { s with program := rest }) hi
  · exact List.Subset.refl _

theorem agentTurn_keeps_faults {a : Agent} {s t : State} (h : agentTurn a s = .next t) : s.faults ⊆ t.faults := by
  cases a with
  | host => exact hostTurn_keeps_faults h
  | timingGenerator i => rcases tgPeriod_next h with rfl | ⟨c, c', -, -, -, rfl⟩ <;> exact List.Subset.refl _
  | timeSource =>
    cases h
    exact List.Subset.refl _

theorem step_keeps_faults {s t : State} (h : step s = .next t) : s.faults ⊆ t.faults := by
  obtain ⟨-, ⟨-, rfl⟩ | ⟨-, hturn⟩⟩ := step_next h
  · exact List.Subset.refl _
  · rw [← s.takeTurn_faults]
    exact agentTurn_keeps_faults hturn

/-- Settles O12: `raise` adds to the set, the host's turn asks for an empty one, and no turn takes a record out. -/
theorem faultsStopTheHostForGood : Obligations.FaultsStopTheHostForGood := by
  refine ⟨fun _ _ _ => State.mem_raise, fun _ _ => rfl, fun s hrun hf hagent => ?_,
    fun _ _ _ h hf => step_keeps_faults h hf⟩
  rw [Safety.step_of_running hrun, hagent]
  exact hostTurn_of_faults (by rwa [s.takeTurn_faults])

/-- Settles O13: `step` looks at the refusal first. -/
theorem refusedRunHasNoStep : Obligations.RefusedRunHasNoStep := by
  intro s r h
  rw [step, h]

end Sys2Proof.Machine

/-! PROOF. O5, O6, O7: words and text (30_encoding R101 to R108) and the step that issues a command (00_scope R13). -/

namespace Sys2Proof.Machine

/-- Settles O5: the words evaluated. -/
theorem sampleWordsDecode : Obligations.SampleWordsDecode := by
  unfold Obligations.SampleWordsDecode
  decide

theorem issueWord_of_ok {w : Word} {i : Instr} (h : decode w = .ok i) (s : State) : issueWord w s = exec i s := by
  rw [issueWord, h]

/-- Settles O6: the host's turn issues the word; with `withFetchWord` taking the turn and the word gives back the
state. -/
theorem stepRunsTheDecodedCommand : Obligations.StepRunsTheDecodedCommand := by
  refine ⟨fun s w rest i hturn hcur hprogram hw => ?_, fun s w i hrun hf hcur hlt hw => ?_⟩
  · rw [step_of_program hturn hcur hprogram, issueWord_of_ok hw]
  · rw [State.withFetchWord, Nat.mod_eq_of_lt hlt]
    have hturn : Safety.HostTurn (placeWord (BitVec.ofNat 96 w) s) := ⟨hrun, hf, rfl⟩
    rw [step_of_program hturn hcur rfl, issueWord_of_ok hw]
    rfl

/-- A field's own value fits it. -/
theorem field?_toNat {n : Nat} (x : BitVec n) : field? n x.toNat = some x := by
  rw [field?, if_pos x.isLt, BitVec.ofNat_toNat, BitVec.setWidth_eq]

/-- Settles O7: the number of arguments picks the form, and each argument is its field. -/
theorem arityResolvesSetPixelColor : Obligations.ArityResolvesSetPixelColor := by
  intro i index color r g b w
  refine ⟨?_, ?_, ?_⟩
  · simp [callOf, field?_toNat]
  · simp [callOf, field?_toNat]
  · simp [callOf, field?_toNat]

/-- Settles O47: byte `b` of entry `j` lies `j` entries and `b` bytes from the base, and cutting it to a byte takes the
low eight bits of what is left of the entry. -/
theorem streamImageIsLittleEndian : Obligations.StreamImageIsLittleEndian := by
  intro p c j b e hb he
  refine ⟨BitVec.ofNat 8 (e / 2 ^ (8 * b)), BitVec.toNat_ofNat _ _, ?_⟩
  have hbase : ¬ c.cfg.streamBase + j * (dutyBits p.dutyWidth / 8) + b < c.cfg.streamBase := by omega
  have hoffset : c.cfg.streamBase + j * (dutyBits p.dutyWidth / 8) + b - c.cfg.streamBase =
      b + j * (dutyBits p.dutyWidth / 8) := by omega
  rw [streamImageByte, if_neg hbase]
  simp only [hoffset, Nat.add_mul_div_right _ _ (Nat.zero_lt_of_lt hb), Nat.div_eq_of_lt hb, Nat.zero_add, he,
    Nat.add_mul_mod_self_right, Nat.mod_eq_of_lt hb]

end Sys2Proof.Machine

/-! PROOF. O10: which configurations are admitted (00_scope R7, R8, R33; 20_memory R80, R82; 60_exceptions R236). Each
check is put in the form of its rule, pairs of instances by their numbers and memories by their addresses. -/

namespace Sys2Proof.Machine

theorem pairwise_iff_getElem? {α : Type} {R : α → α → Prop} {l : List α} :
    l.Pairwise R ↔ ∀ (j k : Nat) (a b : α), j < k → l[j]? = some a → l[k]? = some b → R a b := by
  rw [List.pairwise_iff_getElem]
  constructor
  · intro h j k a b hjk ha hb
    obtain ⟨hj, rfl⟩ := List.getElem?_eq_some_iff.1 ha
    obtain ⟨hk, rfl⟩ := List.getElem?_eq_some_iff.1 hb
    exact h j k hj hk hjk
  · intro h j k hj hk hjk
    exact h j k _ _ hjk (List.getElem?_eq_getElem hj) (List.getElem?_eq_getElem hk)

/-- R8 on the shared parameters. -/
theorem paramsOk_iff (p : Params) : paramsOk p = true ↔
    (0 < p.dutyZero ∧ p.dutyZero < p.dutyOne ∧ p.dutyOne < p.periodTicks) ∧ p.dutyOne < 2 ^ dutyBits p.dutyWidth ∧
      1 + lagPeriods p.ccrLag ≤ p.resetCycles ∧ (1 ≤ p.resetThresholdUs ∧ p.resetThresholdUs < 2 ^ p.timeWidth) ∧
      p.brightnessInit ≤ 255 ∧ 0 < p.timeWidth := by
  simp only [paramsOk, Bool.and_eq_true, decide_eq_true_eq]
  tauto

/-- R8 on the number of LEDs, R80 on the stream's place. -/
theorem instCfgOk_iff (p : Params) (c : InstCfg) : instCfgOk p c = true ↔
    (1 ≤ c.ledCount ∧ c.ledCount ≤ 65535) ∧ c.streamBase % (dutyBits p.dutyWidth / 8) = 0 := by
  simp only [instCfgOk, Bool.and_eq_true, decide_eq_true_eq]
  rfl

/-- Two instances share a part of the binding (R8, R203). -/
def SharesBinding (c d : InstCfg) : Prop :=
  c.binding.timingGenerator = d.binding.timingGenerator ∨ c.binding.transferChannel = d.binding.transferChannel ∨
    c.binding.pin = d.binding.pin

theorem bindingsOk_iff (cfgs : List InstCfg) :
    bindingsOk cfgs = true ↔ cfgs.Pairwise fun c d => ¬ SharesBinding c d := by
  simp only [bindingsOk, Bool.and_eq_true, decide_eq_true_eq, List.Nodup, List.pairwise_map, SharesBinding, not_or,
    List.pairwise_and_iff]
  tauto

/-- A host address lies in two memories, that of `PIX[j]` and of `STREAM[k]`, or two of one kind (R82). -/
def Overlap (p : Params) (j k : Nat) (c d : InstCfg) (addr : Nat) : Prop :=
  InPix c addr ∧ InStream p d addr ∨
    j < k ∧ (InPix c addr ∧ InPix d addr ∨ InStream p c addr ∧ InStream p d addr)

theorem pix_mem_regions (p : Params) (c : InstCfg) : (c.pixBase, pixBytes c) ∈ regions p c := List.mem_cons_self

theorem stream_mem_regions (p : Params) (c : InstCfg) : (c.streamBase, streamBytes p c) ∈ regions p c :=
  List.mem_cons_of_mem _ List.mem_cons_self

theorem memoriesOk_iff_no_overlap {p : Params} {cfgs : List InstCfg} (hpix : ∀ c ∈ cfgs, 0 < pixBytes c)
    (hstream : ∀ c, 0 < streamBytes p c) : memoriesOk p cfgs = true ↔
      ∀ j k c d addr, cfgs[j]? = some c → cfgs[k]? = some d → ¬ Overlap p j k c d addr := by
  rw [memoriesOk_iff, pairwise_iff_getElem?]
  constructor
  · rintro ⟨hown, hothers⟩ j k c d addr hc hd
    have hpc := hpix c (List.mem_of_getElem? hc)
    have hpd := hpix d (List.mem_of_getElem? hd)
    rintro (hin | ⟨hjk, hin | hin⟩)
    · rcases Nat.lt_trichotomy j k with hjk | rfl | hkj
      · have hapart := hothers j k c d hjk hc hd _ (pix_mem_regions p c) _ (stream_mem_regions p d)
        exact (apart_iff hpc (hstream d)).1 hapart addr hin
      · cases hc.symm.trans hd
        exact (apart_iff hpc (hstream c)).1 (hown c (List.mem_of_getElem? hc)) addr hin
      · have hapart := hothers k j d c hkj hd hc _ (stream_mem_regions p d) _ (pix_mem_regions p c)
        exact (apart_iff (hstream d) hpc).1 hapart addr hin.symm
    · have hapart := hothers j k c d hjk hc hd _ (pix_mem_regions p c) _ (pix_mem_regions p d)
      exact (apart_iff hpc hpd).1 hapart addr hin
    · have hapart := hothers j k c d hjk hc hd _ (stream_mem_regions p c) _ (stream_mem_regions p d)
      exact (apart_iff (hstream c) (hstream d)).1 hapart addr hin
  · intro h
    refine ⟨fun c hc => ?_, fun j k c d hjk hc hd => ?_⟩
    · obtain ⟨j, hj⟩ := List.mem_iff_getElem?.1 hc
      exact (apart_iff (hpix c hc) (hstream c)).2 fun x hx => h j j c c x hj hj (.inl hx)
    · have hpc := hpix c (List.mem_of_getElem? hc)
      have hpd := hpix d (List.mem_of_getElem? hd)
      simp only [regions, List.mem_cons, List.not_mem_nil, or_false, forall_eq_or_imp, forall_eq]
      refine ⟨⟨?_, ?_⟩, ?_, ?_⟩
      · exact (apart_iff hpc hpd).2 fun x hx => h j k c d x hc hd (.inr ⟨hjk, .inl hx⟩)
      · exact (apart_iff hpc (hstream d)).2 fun x hx => h j k c d x hc hd (.inl hx)
      · exact (apart_iff (hstream c) hpd).2 fun x hx => h k j d c x hd hc (.inl hx.symm)
      · exact (apart_iff (hstream c) (hstream d)).2 fun x hx => h j k c d x hc hd (.inr ⟨hjk, .inr hx⟩)

/-- R82 for the instances of a state, whose memories are not empty where the other rules hold. -/
theorem State.memoriesOk_iff {s : State} (hp : paramsOk s.params = true)
    (hi : ∀ c ∈ s.insts, instCfgOk s.params c.cfg = true) : memoriesOk s.params s.cfgs = true ↔
      ∀ (j k : Nat) (c d : Inst) (addr : Nat), s.insts[j]? = some c → s.insts[k]? = some d →
        ¬ Overlap s.params j k c.cfg d.cfg addr := by
  have hstream : ∀ c, 0 < streamBytes s.params c := fun c =>
    streamBytes_pos c ((Nat.le_add_right 1 _).trans (Safety.paramsFacts hp).cycles)
  have hpix : ∀ c ∈ s.cfgs, 0 < pixBytes c := by
    intro c hc
    obtain ⟨d, hd, rfl⟩ := List.mem_map.1 hc
    obtain ⟨⟨hone, -⟩, -⟩ := (instCfgOk_iff s.params d.cfg).1 (hi d hd)
    exact pixBytes_pos hone
  have hcfg : ∀ (j : Nat) (c : InstCfg), s.cfgs[j]? = some c ↔ ∃ d, s.insts[j]? = some d ∧ d.cfg = c := fun j c => by
    rw [State.cfgs, List.getElem?_map, Option.map_eq_some_iff]
  rw [memoriesOk_iff_no_overlap hpix hstream]
  constructor
  · intro h j k c d addr hc hd
    exact h j k c.cfg d.cfg addr ((hcfg j _).2 ⟨c, hc, rfl⟩) ((hcfg k _).2 ⟨d, hd, rfl⟩)
  · intro h j k c d addr hc hd
    obtain ⟨c', hc', rfl⟩ := (hcfg j c).1 hc
    obtain ⟨d', hd', rfl⟩ := (hcfg k d).1 hd
    exact h j k c' d' addr hc' hd'

/-- The admitted configurations, rule by rule (R7, R8, R80, R82). -/
theorem State.configOk_iff (s : State) : s.configOk = true ↔
    (1 ≤ s.insts.length ∧ s.insts.length ≤ 256) ∧ paramsOk s.params = true ∧
      (∀ c ∈ s.insts, instCfgOk s.params c.cfg = true) ∧
      (∀ (j k : Nat) (c d : Inst), j < k → s.insts[j]? = some c → s.insts[k]? = some d → ¬ SharesBinding c.cfg d.cfg) ∧
      (∀ (j k : Nat) (c d : Inst) (addr : Nat), s.insts[j]? = some c → s.insts[k]? = some d →
        ¬ Overlap s.params j k c.cfg d.cfg addr) := by
  have hall : s.cfgs.all (instCfgOk s.params) = true ↔ ∀ c ∈ s.insts, instCfgOk s.params c.cfg = true := by
    rw [State.cfgs, List.all_map, List.all_eq_true]
    rfl
  have hbind : bindingsOk s.cfgs = true ↔ ∀ (j k : Nat) (c d : Inst), j < k → s.insts[j]? = some c →
      s.insts[k]? = some d → ¬ SharesBinding c.cfg d.cfg := by
    rw [bindingsOk_iff, State.cfgs, List.pairwise_map, pairwise_iff_getElem?]
  have hmem := State.memoriesOk_iff (s := s)
  have hlen : s.cfgs.length = s.insts.length := List.length_map ..
  rw [State.configOk, Machine.configOk]
  simp only [Bool.and_eq_true, decide_eq_true_eq, hall, hbind, hlen]
  tauto

/-- Settles O10: each item of the list denies one check; and `step` looks at the configuration before any turn. -/
theorem badConfigurationsAreRefused : Obligations.BadConfigurationsAreRefused := by
  intro s hr
  refine ⟨?_, fun hno => ?_, fun hok => Safety.step_of_running ⟨hr, hok⟩⟩
  · rw [← Bool.not_eq_true, State.configOk_iff, paramsOk_iff]
    simp only [instCfgOk_iff]
    constructor
    · rintro hbad ⟨hlen, ⟨hduty, hfits, hcycles, hthreshold, hbright, htime⟩, hinsts, hbindings, hmemories⟩
      rcases hbad with h | h | h | h | h | h | h | ⟨c, hc, h | h⟩ | ⟨j, k, c, d, hjk, hc, hd, h⟩ |
        ⟨j, k, c, d, addr, hc, hd, h⟩
      · exact h hduty
      · exact h hfits
      · exact h hcycles
      · exact h hthreshold
      · exact h hbright
      · exact h htime
      · exact h hlen
      · exact h (hinsts c hc).1
      · exact h (hinsts c hc).2
      · exact hbindings j k c d hjk hc hd h
      · exact hmemories j k c d addr hc hd h
    · intro hbroken
      by_contra hno
      simp only [not_or, not_not] at hno
      obtain ⟨hduty, hfits, hcycles, hthreshold, hbright, htime, hlen, hinsts, hbindings, hmemories⟩ := hno
      refine hbroken ⟨hlen, ⟨hduty, hfits, hcycles, hthreshold, hbright, htime⟩, fun c hc => ⟨?_, ?_⟩, ?_, ?_⟩
      · by_contra h
        exact hinsts ⟨c, hc, .inl h⟩
      · by_contra h
        exact hinsts ⟨c, hc, .inr h⟩
      · exact fun j k c d hjk hc hd h => hbindings ⟨j, k, c, d, hjk, hc, hd, h⟩
      · exact fun j k c d addr hc hd h => hmemories ⟨j, k, c, d, addr, hc, hd, h⟩
  · rw [step, hr, runTurn, hno]
    rfl

end Sys2Proof.Machine
